-- ==== Sys2Proof/Word.lean ====
section
/-! DEFINITION. The hardware's words: a byte, a cache slot number, a pixel (spec/00_scope.md R6, R9). -/

namespace Sys2Proof

/-- `u8`, an unsigned 8-bit value (R9): a channel of a pixel or a byte of a stream. -/
abbrev Byte := BitVec 8

/-- A slot number of the cache, 0..63 (R11). -/
abbrev Slot := Fin 64

/-- A pixel: "4 unsigned 8-bit channel values (r, g, b, a)" (R9). Equality is exact equality of all four channels. -/
structure Pixel where
  r : Byte
  g : Byte
  b : Byte
  a : Byte
  deriving DecidableEq, Repr

end Sys2Proof
end

