-- ==== Sys2Proof/Config.lean ====
section
/-! DEFINITION. The fixed constants of the hardware (spec/00_scope.md R6) and `DELTA_WRAP` (R7). None of them is configurable.
No operation has an undefined result (spec/93_implementation_defined.md Part A), so there is no free value here. -/

namespace Sys2Proof.Config

/-- `CACHE_SLOTS` (R6). -/
abbrev cacheSlots : Nat := 64

/-- `RUN_MAX` (R6): the largest length one RUN carries. -/
def runMax : Nat := 62

/-- `DIFF_MIN`, `DIFF_MAX` (R6). -/
def diffMin : Int := -2
def diffMax : Int := 1

/-- `LUMA_G_MIN`, `LUMA_G_MAX` (R6). -/
def lumaGMin : Int := -32
def lumaGMax : Int := 31

/-- `LUMA_RB_MIN`, `LUMA_RB_MAX` (R6). -/
def lumaRbMin : Int := -8
def lumaRbMax : Int := 7

/-- `PREV_INIT` (R6): the previous pixel at stream start. -/
def prevInit : Pixel := ⟨0, 0, 0, 255⟩

/-- `SLOT_INIT` (R6): every cache slot at stream start. -/
def slotInit : Pixel := ⟨0, 0, 0, 0⟩

/-- `ALPHA_DEFAULT` (R6): the alpha of a 3-channel source pixel. -/
def alphaDefault : Byte := 255

/-- `DELTA_WRAP` (R7), fixed `true` by the spec's decision D3: channel differences are formed modulo 256. -/
def deltaWrap : Bool := true

end Sys2Proof.Config
end

