-- ==== Sys2Proof/Syntax.lean ====
section
/-! DEFINITION. The six pixel operations (spec/00_scope.md R3, spec/opcode_table.json), one constructor per row, in the
table's order. Operands have the meaning of R56: signed deltas are integers, `length` is the run length itself. -/

namespace Sys2Proof

/-- One pixel operation. Operands out of the ranges of R56 are ill-formed (`Instr.wf`). -/
inductive Instr where
  | rgb (r g b : Byte)
  | rgba (r g b a : Byte)
  | run (length : Nat)
  | luma (dg drg dbg : Int)
  | diff (dr dg db : Int)
  | index (slot : Slot)
  deriving DecidableEq, Repr

end Sys2Proof
end

