-- ==== Sys2Proof/WellFormed.lean ====
section
/-! DEFINITION. Which operations have an encoding: the operand ranges of spec/30_encoding.md R56. -/

namespace Sys2Proof

/-- `lo <= v <= hi`. -/
def inRange (lo hi v : Int) : Bool := decide (lo ≤ v) && decide (v ≤ hi)

/-- The operand ranges of R56: a run of 1..62, DIFF deltas in -2..1, LUMA's green delta in -32..31 and its two
differences in -8..7. Slots and raw channels are in range by their types. -/
def Instr.wf : Instr → Bool
  | .rgb _ _ _ => true
  | .rgba _ _ _ _ => true
  | .run length => decide (1 ≤ length) && decide (length ≤ Config.runMax)
  | .luma dg drg dbg =>
    inRange Config.lumaGMin Config.lumaGMax dg && inRange Config.lumaRbMin Config.lumaRbMax drg &&
      inRange Config.lumaRbMin Config.lumaRbMax dbg
  | .diff dr dg db =>
    inRange Config.diffMin Config.diffMax dr && inRange Config.diffMin Config.diffMax dg &&
      inRange Config.diffMin Config.diffMax db
  | .index _ => true

end Sys2Proof
end

