-- ==== Sys2Proof/Decode.lean ====
section
/-! DEFINITION. Reading and writing the operations' bytes (spec/30_encoding.md). The decoder is total on any bytes; the one
rejection is running out of bytes (R60). The packing functions are also those of the delta unit (spec/40_delta.md R74, R75,
R77, R78). -/

namespace Sys2Proof

/-- `v[hi:lo]` as an unsigned number (R9). -/
def bits (v : Byte) (hi lo : Nat) : Nat := (v.extractLsb hi lo).toNat

/-- A signed operand stored with a bias as an unsigned field of a byte (R56). -/
def biased (bias v : Int) : Byte := BitVec.ofInt 8 (v + bias)

/-- `diff_pack` (R74, layout R52). R74 defines it where `diff_fits` holds; outside, its value is the model's (DESIGN CHOICE, log entry 15). -/
def diffPack (dr dg db : Int) : Byte :=
  0x40 ||| (biased 2 dr <<< 4) ||| (biased 2 dg <<< 2) ||| biased 2 db

/-- `diff_unpack` (R75): `(dr, dg, db)`. -/
def diffUnpack (t : Byte) : Int × Int × Int :=
  ((bits t 5 4 : Int) - 2, (bits t 3 2 : Int) - 2, (bits t 1 0 : Int) - 2)

/-- The two bytes of a LUMA from its operands `dg`, `dr - dg`, `db - dg` (R53; R77 gives them from the deltas). R77 defines them where
`luma_fits` holds; outside, their value is the model's (DESIGN CHOICE, log entry 15). -/
def lumaBytes (dg drg dbg : Int) : Byte × Byte :=
  (0x80 ||| biased 32 dg, (biased 8 drg <<< 4) ||| biased 8 dbg)

/-- `luma_pack` (R77): the byte pair from the three deltas (outside `luma_fits`: log entry 15). -/
def lumaPack (vr vg vb : Int) : Byte × Byte := lumaBytes vg (vr - vg) (vb - vg)

/-- `luma_unpack` (R78): `(dg, drg, dbg)`. -/
def lumaUnpack (t b2 : Byte) : Int × Int × Int :=
  ((bits t 5 0 : Int) - 32, (bits b2 7 4 : Int) - 8, (bits b2 3 0 : Int) - 8)

/-- Why bytes are not an operation: its first `present` bytes are there and the next one is missing (R60, R172). -/
inductive DecodeError where
  | truncated (present : Nat)
  deriving DecidableEq, Repr

/-- The operation parser (R57, R123): the operation at the head of the bytes and the bytes after it. -/
def decode : List Byte → Except DecodeError (Instr × List Byte)
  | [] => .error (.truncated 0)
  | t :: rest =>
    if t = 0xFE then
      match rest with
      | r :: g :: b :: rest' => .ok (.rgb r g b, rest')
      | short => .error (.truncated (1 + short.length))
    else if t = 0xFF then
      match rest with
      | r :: g :: b :: a :: rest' => .ok (.rgba r g b a, rest')
      | short => .error (.truncated (1 + short.length))
    else if t &&& 0xC0 = 0xC0 then .ok (.run (bits t 5 0 + 1), rest)
    else if t &&& 0xC0 = 0x80 then
      match rest with
      | b2 :: rest' =>
        .ok (.luma (lumaUnpack t b2).1 (lumaUnpack t b2).2.1 (lumaUnpack t b2).2.2, rest')
      | [] => .error (.truncated 1)
    else if t &&& 0xC0 = 0x40 then
      .ok (.diff (diffUnpack t).1 (diffUnpack t).2.1 (diffUnpack t).2.2, rest)
    else .ok (.index (Fin.ofNat 64 (bits t 5 0)), rest)

/-- The bytes of an operation (R51-R55), the tag byte first (R36). Of an ill-formed operation, which has no encoding (R56), the bytes
are the model's (DESIGN CHOICE, log entry 15). -/
def encode : Instr → List Byte
  | .rgb r g b => [0xFE, r, g, b]
  | .rgba r g b a => [0xFF, r, g, b, a]
  | .run length => [0xC0 ||| BitVec.ofNat 8 (length - 1)]
  | .luma dg drg dbg => [(lumaBytes dg drg dbg).1, (lumaBytes dg drg dbg).2]
  | .diff dr dg db => [diffPack dr dg db]
  | .index slot => [BitVec.ofNat 8 slot.val]

/-- The length of an operation in bytes (R50, R59). -/
def Instr.length : Instr → Nat
  | .rgb _ _ _ => 4
  | .rgba _ _ _ _ => 5
  | .run _ => 1
  | .luma _ _ _ => 2
  | .diff _ _ _ => 1
  | .index _ => 1

/-- The longest operation, RGBA (R50). -/
def maxLength : Nat := 5

/-- The bytes of an instruction whose bits are `w`, its first byte in bits 7..0; every bit above `nbits` is 0, up to the
longest operation. -/
def tableBytes (nbits w : Nat) : List Byte :=
  (List.range (max maxLength ((nbits + 7) / 8))).map fun k => BitVec.ofNat 8 ((w % 2 ^ nbits) >>> (8 * k))

/-- The instruction the decoder reads from a word of the opcode table. -/
def decodeTableWord (nbits w : Nat) : Option Instr :=
  match decode (tableBytes nbits w) with
  | .ok (i, _) => some i
  | .error _ => none

end Sys2Proof
end

