-- ==== Sys2Proof/Machine/State.lean ====
section
/-! DEFINITION. The machine's state as plain data (spec/10_state.md), its reset (R23, R190), and the reasons a step stops.
One decoder `DEC` and one encoder `ENC`, each with its own context (R8, R10), each with its half of the wrapper
(spec/43_container.md) beside it, and the events not yet taken. -/

namespace Sys2Proof.Machine

/-- A byte stream as addressed bytes (R21, R9 `MemRead`/`MemWrite`): (offset, byte) cells, offsets strictly rising. An offset
that is not listed holds no byte. -/
abbrev Memory := List Host.Cell

/-- The canonical form of a memory: offsets strictly rising. No listed byte can equal "no byte". -/
abbrev Memory.wf (m : Memory) : Prop := m.Pairwise fun x y => x.1 < y.1

/-- `CH` (R7, R19): three or four channels; nothing else has a meaning. -/
inductive ChannelCount where
  | three
  | four
  deriving DecidableEq, Repr

/-- The error kinds of R170 with the information each records. `none` (code 0) is the absence of one. -/
inductive ErrorKind where
  /-- code 1: the first four bytes are not the magic (R171). -/
  | invalidMagic
  /-- code 2: a byte was missing and the source had ended (R172); `missing` is its offset: `BYTEPOS` in `DEC`, the file
  offset in the header (log entry 11). -/
  | truncatedStream (missing : Nat)
  /-- code 3: the 8 marker bytes mismatch or are cut short; not fatal (R173). -/
  | invalidEndMarker
  /-- code 4: `channels` is not 3 or 4 (R175). -/
  | unsupportedChannelCount (channels : Byte)
  /-- code 5: the byte sink refused a byte during `encode` (R176). -/
  | sinkFailure
  deriving DecidableEq, Repr

/-- The context of one agent (R10): `CACHE` (R11), `PREV` (R12), `RUN` (R13, R14). -/
structure Context where
  cache : Vector Pixel 64
  prev : Pixel
  run : BitVec 6
  deriving DecidableEq, Repr

/-- A pixel `DEC` delivers: three or four channels (R131). -/
inductive OutPixel where
  | rgb (r g b : Byte)
  | rgba (r g b a : Byte)
  deriving DecidableEq, Repr

/-- The header fields after the magic (R151). -/
structure Header where
  width : BitVec 32
  height : BitVec 32
  channels : Byte
  colorspace : Byte
  deriving DecidableEq, Repr

/-- The byte source of the decode side (R154, R204): the bytes delivered so far and whether the source has ended. -/
structure ByteSource where
  bytes : Memory
  ended : Bool
  deriving DecidableEq, Repr

/-- The byte sink of the encode side (R154, R176): the bytes accepted, the first offset at which it refuses (if any), and
whether it has refused a byte (log entry 6). -/
structure ByteSink where
  bytes : Memory
  limit : Option Nat
  failed : Bool
  deriving DecidableEq, Repr

/-- The three outcomes of `decode` (R158). -/
inductive DecodeResult where
  | success
  | invalidEndMarker
  | failed (e : ErrorKind)
  deriving DecidableEq, Repr

/-- Where the decode side is (R156): no wrapper (another host drives `DEC`), reading the magic, reading the other header
fields, in the pixels and then the marker, done. -/
inductive DecodePhase where
  | bare
  | magic
  | fields
  | pixels
  | done (r : DecodeResult)
  deriving DecidableEq, Repr

/-- The outcomes of `encode` (R155, R158). -/
inductive EncodeResult where
  | success
  | failed (e : ErrorKind)
  deriving DecidableEq, Repr

/-- Where the encode side is (R155): no wrapper, the header still to write, in the pixels and then the marker, done. -/
inductive EncodePhase where
  | bare
  | header
  | pixels
  | done (r : EncodeResult)
  deriving DecidableEq, Repr

/-- The decode side: `DEC` (R120) with its input and output, and the decode half of the wrapper (`base`, `phase`, `header`). -/
structure Decoder where
  ctx : Context
  /-- `PIXPOS` (R15). -/
  pixpos : Nat
  /-- `BYTEPOS` (R16), the program counter of this hardware. -/
  bytepos : Nat
  /-- `FAULT` (R18). -/
  fault : Option ErrorKind
  /-- `N` (R19). -/
  n : Nat
  /-- `CH` (R19). -/
  ch : ChannelCount
  /-- the pixels delivered, in order (R131). -/
  out : List OutPixel
  source : ByteSource
  /-- offset in the source where the operation stream begins: `BYTEPOS = 0` (R16, R152). -/
  base : Nat
  phase : DecodePhase
  header : Header
  deriving DecidableEq, Repr

/-- The encode side: `ENC` (R90) with its input and output, and the encode half of the wrapper (`base`, `phase`, `header`). -/
structure Encoder where
  ctx : Context
  /-- `PIXPOS` (R15). -/
  pixpos : Nat
  /-- `OUTPOS` (R16). -/
  outpos : Nat
  /-- `FAULT` (R18); `ENC` raises nothing (R110). -/
  fault : Option ErrorKind
  /-- `N` (R19). -/
  n : Nat
  /-- `CH` (R19). -/
  ch : ChannelCount
  /-- the input pixels delivered so far, in order; `PIXPOS` is the position of the next one (R21). -/
  pixels : List Pixel
  sink : ByteSink
  /-- offset in the sink where the operation stream begins: `OUTPOS = 0` (R152). -/
  base : Nat
  phase : EncodePhase
  header : Header
  deriving DecidableEq, Repr

/-- What the host does to an agent (R204, R190, R155, R156). -/
inductive HostAction where
  /-- stream start of a bare `ENC` with `N`, `CH` (R191). -/
  | startEnc (n : Nat) (channels : Byte)
  /-- stream start of a bare `DEC` with `N`, `CH` (R191). -/
  | startDec (n : Nat) (channels : Byte)
  /-- hardware reset of `ENC` (R190). -/
  | resetEnc
  /-- hardware reset of `DEC` (R190). -/
  | resetDec
  /-- the next input pixel; with `CH = 3` its alpha lanes are ignored (R103). -/
  | deliverPixel (p : Pixel)
  /-- the next byte of the byte source. -/
  | deliverByte (b : Byte)
  /-- the byte source has ended. -/
  | endBytes
  /-- the sink will refuse the byte at this offset and every later one (R176); `none`: it accepts all. -/
  | limitSink (limit : Option Nat)
  /-- `encode` (R155); its pixels are delivered by `deliverPixel`. -/
  | encodeFile (h : Header)
  /-- `decode` (R156); its bytes are delivered by `deliverByte`. -/
  | decodeFile
  deriving DecidableEq, Repr

/-- What moves next: the host acts, or an agent has its turn (log entry 3). -/
inductive Event where
  | host (a : HostAction)
  | dec
  | enc
  deriving DecidableEq, Repr

/-- The whole machine. `agenda` is the model's own: the events not yet taken, oldest first (log entry 3). -/
structure State where
  dec : Decoder
  enc : Encoder
  agenda : List Event
  deriving DecidableEq, Repr

/-- Why the decode side has no step. -/
inductive DecStop where
  /-- `PIXPOS = N` on a bare core (R203). -/
  | finished
  /-- `FAULT` is set on a bare core (R18). -/
  | faulted
  /-- the next byte has not arrived and the source has not ended (R187). -/
  | waiting
  /-- `decode` has returned (R156). -/
  | done
  deriving DecidableEq, Repr

/-- Why the encode side has no step. -/
inductive EncStop where
  /-- `PIXPOS = N` on a bare core (R203). -/
  | finished
  /-- `FAULT` is set (R18). -/
  | faulted
  /-- the next pixel has not arrived (R110, R187). -/
  | waiting
  /-- the sink of a bare core has refused a byte (R176). -/
  | sinkRefused
  /-- `encode` has returned (R155). -/
  | done
  deriving DecidableEq, Repr

/-- Why a step stops the machine. -/
inductive Fault where
  /-- Raised by `step` alone, when no event is left and neither agent has a step (R187 "simply has no step", R203): the stuck
  state. SAFE: the hardware does nothing either until the host acts. -/
  | noStep (dec : DecStop) (enc : EncStop)
  deriving DecidableEq, Repr

/-- Why a step is refused. -/
inductive Refusal where
  /-- Raised by `exec` for an instruction without a meaning; none is left. SAFE: nothing can be proved of it. -/
  | notModelled (mnemonic : String)
  /-- Raised by a stream start of a bare core with `CH` outside {3,4} (R7 "the core refuses", D8). SAFE: the spec gives no
  meaning to such a run. -/
  | unsupportedChannelCount (channels : Byte)
  /-- Raised by a byte delivered after the end of its source, which R204 assumes never. SAFE: the spec gives it no effect. -/
  | byteAfterEnd
  deriving DecidableEq, Repr

/-- The context at stream start (R23). -/
def Context.init : Context := ⟨Vector.replicate 64 Config.slotInit, Config.prevInit, 0⟩

/-- An all-zero header: the wrapper's fields before any file (log entry 2). -/
def Header.zero : Header := ⟨0, 0, 0, 0⟩

/-- A decode side right after a stream start or reset with the given `N` and `CH` (R23, R191), nothing delivered yet. -/
def Decoder.fresh (n : Nat) (ch : ChannelCount) : Decoder :=
  { ctx := Context.init, pixpos := 0, bytepos := 0, fault := none, n := n, ch := ch, out := [],
    source := ⟨[], false⟩, base := 0, phase := .bare, header := Header.zero }

/-- An encode side right after a stream start or reset with the given `N` and `CH` (R23, R191), nothing delivered yet. -/
def Encoder.fresh (n : Nat) (ch : ChannelCount) : Encoder :=
  { ctx := Context.init, pixpos := 0, outpos := 0, fault := none, n := n, ch := ch, pixels := [],
    sink := ⟨[], none, false⟩, base := 0, phase := .bare, header := Header.zero }

/-- The machine right after reset (R190): both agents at the values of R23; no `N` and `CH` have been presented, for which the
model takes 0 and 4 (DESIGN CHOICE, log entry 1); no event is pending. -/
def State.reset : State := ⟨Decoder.fresh 0 .four, Encoder.fresh 0 .four, []⟩

end Sys2Proof.Machine
end

