-- ==== Sys2Proof/Machine/Ops.lean ====
section
/-! DEFINITION. The named operations over the state: byte memories, the cache unit `CHC` (spec/20_memory.md), the streams,
stream start, taking the one error of the core (spec/60_exceptions.md R179), and the common tail of a decoder step
(spec/42_decoder.md R130-R132). -/

namespace Sys2Proof.Machine

/-! ### Byte memories -/

/-- The byte at an offset, if there is one. -/
def Memory.read : Memory → Nat → Option Byte
  | [], _ => none
  | (a', b) :: m, a => if a' = a then some b else Memory.read m a

/-- The memory with a byte at an offset, in canonical form. -/
def Memory.write : Memory → Nat → Byte → Memory
  | [], a, b => [(a, b)]
  | (a', b') :: m, a, b =>
    if a < a' then (a, b) :: (a', b') :: m
    else if a = a' then (a, b) :: m
    else (a', b') :: Memory.write m a b

/-- Bytes laid out from an offset upwards. -/
def Memory.writeAll (m : Memory) (a : Nat) : List Byte → Memory
  | [] => m
  | b :: bs => Memory.writeAll (m.write a b) (a + 1) bs

/-- The first offset above every listed byte. -/
def Memory.endOffset : Memory → Nat
  | [] => 0
  | [(a, _)] => a + 1
  | _ :: c :: m => Memory.endOffset (c :: m)

/-- The bytes from an offset upwards, at most `k` of them, up to the first that is missing. -/
def Memory.window (m : Memory) (a : Nat) : Nat → List Byte
  | 0 => []
  | k + 1 =>
    match m.read a with
    | some b => b :: Memory.window m (a + 1) k
    | none => []

/-! ### The color-history cache `CHC` -/

/-- `hash(P)` (R30): a pure function from pixels to slots, computed without wraparound. -/
def slotHash (p : Pixel) : Slot :=
  Fin.ofNat 64 (p.r.toNat * 3 + p.g.toNat * 5 + p.b.toNat * 7 + p.a.toNat * 11)

/-- `lookup(slot)` (R32). -/
def Context.lookup (c : Context) (slot : Slot) : Pixel := c.cache[slot]

/-- `store(slot, pixel)` (R33). -/
def Context.store (c : Context) (slot : Slot) (p : Pixel) : Context :=
  { c with cache := c.cache.set slot.val p slot.isLt }

/-- The store every caller makes, at the pixel's own hash (R33, R101, R130). -/
def Context.remember (c : Context) (p : Pixel) : Context := c.store (slotHash p) p

/-! ### Pixels at a port -/

/-- The pixel word `{r, g, b, a}` (R25). -/
def pixelWord (p : Pixel) : BitVec 32 := p.r ++ p.g ++ p.b ++ p.a

/-- The pixel in a pixel word (R25). -/
def wordPixel (w : BitVec 32) : Pixel :=
  ⟨w.extractLsb' 24 8, w.extractLsb' 16 8, w.extractLsb' 8 8, w.extractLsb' 0 8⟩

/-- The delivered form of a pixel (R131). -/
def outPixel : ChannelCount → Pixel → OutPixel
  | .three, p => .rgb p.r p.g p.b
  | .four, p => .rgba p.r p.g p.b p.a

/-- The pixel `ENC` sees for a source pixel (R103). -/
def sourcePixel : ChannelCount → Pixel → Pixel
  | .three, p => { p with a := Config.alphaDefault }
  | .four, p => p

/-! ### The byte sink -/

/-- Whether the sink refuses the byte at an offset (R176, log entry 6). -/
def ByteSink.refuses (k : ByteSink) (a : Nat) : Bool :=
  match k.limit with
  | some l => decide (l ≤ a)
  | none => false

/-- One byte to the sink; a sink that has refused takes nothing more (R176). -/
def ByteSink.put (k : ByteSink) (a : Nat) (b : Byte) : ByteSink :=
  if k.failed then k
  else if k.refuses a then { k with failed := true }
  else { k with bytes := k.bytes.write a b }

/-- Bytes to the sink in order from an offset upwards, up to the first it refuses. -/
def ByteSink.putAll (k : ByteSink) (a : Nat) : List Byte → ByteSink
  | [] => k
  | b :: bs => ByteSink.putAll (k.put a b) (a + 1) bs

/-! ### Stream start -/

/-- `CH` from a channels value (R7, R159). -/
def channelCount (channels : Byte) : Option ChannelCount :=
  if channels = 3 then some .three else if channels = 4 then some .four else none

/-- Stream start of `DEC` (R191): the core's state takes the values of R23, `N` and `CH` are sampled. The wrapper and the byte
source stay. This is also the only recovery from an error (R180). -/
def Decoder.streamStart (d : Decoder) (n : Nat) (ch : ChannelCount) : Decoder :=
  { d with ctx := Context.init, pixpos := 0, bytepos := 0, fault := none, n := n, ch := ch, out := [] }

/-- Stream start of `ENC` (R191). The wrapper, the pixel source and the sink stay. -/
def Encoder.streamStart (e : Encoder) (n : Nat) (ch : ChannelCount) : Encoder :=
  { e with ctx := Context.init, pixpos := 0, outpos := 0, fault := none, n := n, ch := ch }

/-! ### Fetching and the error of the core -/

/-- The numeric code of a `FAULT` value (R170). -/
def faultCode : Option ErrorKind → Nat
  | none => 0
  | some .invalidMagic => 1
  | some (.truncatedStream _) => 2
  | some .invalidEndMarker => 3
  | some (.unsupportedChannelCount _) => 4
  | some .sinkFailure => 5

/-- Whether an error kind ends the run (R170): all but `InvalidEndMarker`. -/
def ErrorKind.fatal : ErrorKind → Bool
  | .invalidEndMarker => false
  | _ => true

/-- The bytes at `BYTEPOS`, at most `k`, up to the first that is missing (R9 `Fetch8`). -/
def Decoder.fetch (d : Decoder) (k : Nat) : List Byte := d.source.bytes.window (d.base + d.bytepos) k

/-- `raise TruncatedStream(BYTEPOS)` (R134, R179) in a step whose first `present` bytes were there: `BYTEPOS` is left at the
missing byte, `FAULT` takes the kind, nothing else changes. Control goes nowhere; nothing is saved; there is no return
operation (R180): only a stream start leaves this state. -/
def Decoder.raiseTruncated (d : Decoder) (present : Nat) : Decoder :=
  { d with bytepos := d.bytepos + present, fault := some (.truncatedStream (d.bytepos + present)) }

/-! ### The common tail of a decoder step -/

/-- `BYTEPOS` past an operation of `k` bytes (R16). -/
def Decoder.advance (d : Decoder) (k : Nat) : Decoder := { d with bytepos := d.bytepos + k }

/-- `EmitPixel(P)`, `PREV <- P`, `PIXPOS <- PIXPOS + 1` (R131, R132, R121). -/
def Decoder.produce (d : Decoder) (p : Pixel) : Decoder :=
  { d with ctx := { d.ctx with prev := p }, out := d.out ++ [outPixel d.ch p], pixpos := d.pixpos + 1 }

/-- The tail of every operation but RUN: the cache write of R130, then `produce`. -/
def Decoder.storeAndProduce (d : Decoder) (p : Pixel) : Decoder :=
  Decoder.produce { d with ctx := d.ctx.remember p } p

/-- A non-run operation of `k` bytes whose pixel is `p`. -/
def storeOp (k : Nat) (p : Pixel) (s : State) : Host.Outcome State Fault Refusal :=
  .next { s with dec := (s.dec.advance k).storeAndProduce p }

/-! ### Placing an instruction -/

/-- `d` ready to fetch the given bytes next (log entry 12): they stand at `BYTEPOS`, no run is pending, no fault is set, a pixel is
still to be produced, and the phase is one in which `DEC` steps. -/
def Decoder.place (d : Decoder) (bs : List Byte) : Decoder :=
  { d with
    source := { d.source with bytes := d.source.bytes.writeAll (d.base + d.bytepos) bs }
    ctx := { d.ctx with run := 0 }
    fault := none
    n := if d.n = d.pixpos then d.pixpos + 1 else d.n
    phase := if d.phase = .pixels then .pixels else .bare }

end Sys2Proof.Machine
end

