-- ==== Sys2Proof/Machine/Operands.lean ====
section
/-! DEFINITION. The channel delta unit `DLT` (spec/40_delta.md R70): purely combinational. Its packing and unpacking functions
(R74, R75, R77, R78) are `diffPack`, `diffUnpack`, `lumaPack`, `lumaUnpack` of `Sys2Proof/Decode.lean`. -/

namespace Sys2Proof.Machine

/-- `a +8 d` for a signed `d` (R9, R79): modulo 256, never saturating. -/
def addDelta (c : Byte) (d : Int) : Byte := c + BitVec.ofInt 8 d

/-- The difference of one channel: `s8(cur -8 prev)` when `wrap` (R71), the plain integer difference otherwise (D3). -/
def channelDelta (wrap : Bool) (cur prev : Byte) : Int :=
  if wrap then (cur - prev).toInt else (cur.toNat : Int) - (prev.toNat : Int)

/-- The three colour differences in either reading of D3 (R71, R80). -/
def deltaWith (wrap : Bool) (cur prev : Pixel) : Int × Int × Int :=
  (channelDelta wrap cur.r prev.r, channelDelta wrap cur.g prev.g, channelDelta wrap cur.b prev.b)

/-- `delta(cur, prev)` (R71), with `DELTA_WRAP` as the spec fixes it (R7). -/
def delta (cur prev : Pixel) : Int × Int × Int := deltaWith Config.deltaWrap cur prev

/-- `diff_apply` (R75): alpha unchanged. -/
def diffApply (prev : Pixel) (dr dg db : Int) : Pixel :=
  ⟨addDelta prev.r dr, addDelta prev.g dg, addDelta prev.b db, prev.a⟩

/-- `luma_apply` (R78): alpha unchanged. -/
def lumaApply (prev : Pixel) (dg drg dbg : Int) : Pixel :=
  ⟨addDelta prev.r (drg + dg), addDelta prev.g dg, addDelta prev.b (dbg + dg), prev.a⟩

end Sys2Proof.Machine
end

