-- ==== Sys2Proof/Machine/ColorOps.lean ====
section
/-! DEFINITION. RGB and RGBA (spec/42_decoder.md R124, R125). -/

namespace Sys2Proof.Machine

/-- RGB (R124): `P <- (r, g, b, PREV.a)`. -/
def execRgb (r g b : Byte) (s : State) : Host.Outcome State Fault Refusal :=
  storeOp 4 ⟨r, g, b, s.dec.ctx.prev.a⟩ s

/-- RGBA (R125): `P <- (r, g, b, a)`. -/
def execRgba (r g b a : Byte) (s : State) : Host.Outcome State Fault Refusal :=
  storeOp 5 ⟨r, g, b, a⟩ s

end Sys2Proof.Machine
end

