-- ==== Sys2Proof/Machine/DeltaOps.lean ====
section
/-! DEFINITION. LUMA and DIFF (spec/42_decoder.md R127, R128). -/

namespace Sys2Proof.Machine

/-- LUMA (R127): `P <- luma_apply(PREV, dg, drg, dbg)`. -/
def execLuma (dg drg dbg : Int) (s : State) : Host.Outcome State Fault Refusal :=
  storeOp 2 (lumaApply s.dec.ctx.prev dg drg dbg) s

/-- DIFF (R128): `P <- diff_apply(PREV, dr, dg, db)`. -/
def execDiff (dr dg db : Int) (s : State) : Host.Outcome State Fault Refusal :=
  storeOp 1 (diffApply s.dec.ctx.prev dr dg db) s

end Sys2Proof.Machine
end

