-- ==== Sys2Proof/Machine/IndexOps.lean ====
section
/-! DEFINITION. INDEX (spec/42_decoder.md R129). -/

namespace Sys2Proof.Machine

/-- INDEX (R129): `P <- CACHE[slot]`, all four channels, read before the cache write to `hash(P)` (R43). -/
def execIndex (slot : Slot) (s : State) : Host.Outcome State Fault Refusal :=
  storeOp 1 (s.dec.ctx.lookup slot) s

end Sys2Proof.Machine
end

