-- ==== Sys2Proof/Machine/RunOps.lean ====
section
/-! DEFINITION. RUN and the run expander (spec/42_decoder.md R126, R122). -/

namespace Sys2Proof.Machine

/-- RUN (R126): `RUN <- len_m1`, `P <- PREV`; no cache access. -/
def execRun (length : Nat) (s : State) : Host.Outcome State Fault Refusal :=
  let d := s.dec.advance 1
  .next { s with dec := Decoder.produce { d with ctx := { d.ctx with run := BitVec.ofNat 6 (length - 1) } } d.ctx.prev }

/-- The run expander (R122): `RUN <- RUN - 1`, `P <- PREV`; no cache access, no byte read. -/
def Decoder.expandRun (d : Decoder) : Decoder :=
  Decoder.produce { d with ctx := { d.ctx with run := d.ctx.run - 1 } } d.ctx.prev

end Sys2Proof.Machine
end

