-- ==== Sys2Proof/Machine/Dispatch.lean ====
section
/-! DEFINITION. The meaning of each operation for `DEC` (spec/42_decoder.md section 3), one arm per constructor. -/

namespace Sys2Proof.Machine

def exec (i : Instr) (s : State) : Host.Outcome State Fault Refusal :=
  match i with
  | .rgb r g b => Sys2Proof.Machine.execRgb r g b s
  | .rgba r g b a => Sys2Proof.Machine.execRgba r g b a s
  | .run length => Sys2Proof.Machine.execRun length s
  | .luma dg drg dbg => Sys2Proof.Machine.execLuma dg drg dbg s
  | .diff dr dg db => Sys2Proof.Machine.execDiff dr dg db s
  | .index slot => Sys2Proof.Machine.execIndex slot s

end Sys2Proof.Machine
end

