-- ==== Sys2Proof/Machine/Flags.lean ====
section
/-! DEFINITION. The conditions of spec/10_state.md R17. The hardware has no flags: each condition is a function of the current
pixel and the context, evaluated inside one step and not stored. -/

namespace Sys2Proof.Machine

/-- `alpha_same(cur, prev)` (R72). -/
def alphaSame (cur prev : Pixel) : Bool := cur.a == prev.a

/-- `diff_fits` (R73). -/
def diffFits (v : Int × Int × Int) : Bool :=
  inRange Config.diffMin Config.diffMax v.1 && inRange Config.diffMin Config.diffMax v.2.1 &&
    inRange Config.diffMin Config.diffMax v.2.2

/-- `luma_fits` (R76). The second differences are plain integer differences. -/
def lumaFits (v : Int × Int × Int) : Bool :=
  inRange Config.lumaGMin Config.lumaGMax v.2.1 &&
    inRange Config.lumaRbMin Config.lumaRbMax (v.1 - v.2.1) &&
    inRange Config.lumaRbMin Config.lumaRbMax (v.2.2 - v.2.1)

/-- A cache hit: the slot of the pixel's hash holds exactly the pixel (R96). -/
def cacheHit (c : Context) (p : Pixel) : Bool := c.lookup (slotHash p) == p

/-- `last` (R91): the step processes pixel `N - 1`. -/
def Encoder.last (e : Encoder) : Bool := e.pixpos + 1 == e.n

/-- A run of `ENC` is over (R203). -/
def Encoder.over (e : Encoder) : Bool := e.pixpos == e.n

/-- A run of `DEC` has produced its `N` pixels (R133, R203). -/
def Decoder.over (d : Decoder) : Bool := d.pixpos == d.n

end Sys2Proof.Machine
end

