-- ==== Sys2Proof/Machine/EncoderUnit.lean ====
section
/-! DEFINITION. The pixel-operation encoder `ENC` (spec/41_encoder.md R91): the run-state FSM (R92-R94), the operation selector
(R95-R100), the state updates (R101, R102). The bytes of an emitted operation are `encode`'s. -/

namespace Sys2Proof.Machine

/-- The operation selector (R95): the first whose guard holds of INDEX (R96), DIFF (R97), LUMA (R98), RGB (R99), RGBA (R100),
on the context as it was before the step (R43). -/
def selectOp (c : Context) (p : Pixel) : Instr :=
  let v := delta p c.prev
  if cacheHit c p then .index (slotHash p)
  else if alphaSame p c.prev then
    if diffFits v then .diff v.1 v.2.1 v.2.2
    else if lumaFits v then .luma v.2.1 (v.1 - v.2.1) (v.2.2 - v.2.1)
    else .rgb p.r p.g p.b
  else .rgba p.r p.g p.b p.a

/-- A pending run as the operations that flush it (R94). -/
def pendingRun (c : Context) : List Instr := if c.run = 0 then [] else [.run c.run.toNat]

/-- What one encoder step does to the context, and the operations it emits in order (R91). -/
def encodePixel (last : Bool) (c : Context) (p : Pixel) : Context × List Instr :=
  if p = c.prev then
    let run := c.run + 1
    if run.toNat = Config.runMax ∨ last then
      ({ c with run := 0, prev := p }, [.run run.toNat])
    else ({ c with run := run, prev := p }, [])
  else
    ({ c.remember p with run := 0, prev := p }, pendingRun c ++ [selectOp c p])

/-- The bytes of operations in emission order (R36, R90). -/
def encodeAll (ops : List Instr) : List Byte := ops.flatMap encode

/-- The pixel `NextPixel()` takes (R9, R90, R103), if it has been delivered. -/
def Encoder.nextPixel (e : Encoder) : Option Pixel := (e.pixels[e.pixpos]?).map (sourcePixel e.ch)

/-- One step of `ENC` on the pixel `p` (R91). If the sink refuses a byte the step's earlier bytes have left and the rest of the
encode side stays (R176, log entry 6). -/
def Encoder.step (e : Encoder) (p : Pixel) : Encoder :=
  let r := encodePixel e.last e.ctx p
  let bs := encodeAll r.2
  let k := e.sink.putAll (e.base + e.outpos) bs
  if k.failed then { e with sink := k }
  else { e with ctx := r.1, sink := k, outpos := e.outpos + bs.length, pixpos := e.pixpos + 1 }

/-- A move of the bare `ENC`: one step, or why there is none (R18, R91, R110, R203). -/
def Encoder.coreMove (e : Encoder) : Except EncStop Encoder :=
  if e.fault.isSome then .error .faulted
  else if e.over then .error .finished
  else if e.sink.failed then .error .sinkRefused
  else
    match e.nextPixel with
    | some p => .ok (e.step p)
    | none => .error .waiting

end Sys2Proof.Machine
end

