-- ==== Sys2Proof/Machine/Wrapper.lean ====
section
/-! DEFINITION. The wrapper (spec/43_container.md): header codec (R151, R153), end marker (R157), the whole-file procedures
`encode` (R155) and `decode` (R156) as moves of the two sides, and the pixel buffer's layout (R48). -/

namespace Sys2Proof.Machine

/-- The magic `"qoif"` (R151, R154; the byte values are ASCII, log entry 13). -/
def magic : List Byte := [0x71, 0x6F, 0x69, 0x66]

/-- The end marker (R157). -/
def endMarker : List Byte := [0, 0, 0, 0, 0, 0, 0, 1]

/-- The length of the header (R151). -/
def headerLength : Nat := 14

/-- `writeU32BE` (R154). -/
def u32be (v : BitVec 32) : List Byte :=
  [v.extractLsb 31 24, v.extractLsb 23 16, v.extractLsb 15 8, v.extractLsb 7 0]

/-- `readU32BE` (R154) of four bytes. -/
def ofU32be (b0 b1 b2 b3 : Byte) : BitVec 32 := b0 ++ b1 ++ b2 ++ b3

/-- `writeHeader` (R153, layout R151). -/
def headerBytes (h : Header) : List Byte :=
  magic ++ u32be h.width ++ u32be h.height ++ [h.channels, h.colorspace]

/-- The header fields in the ten bytes behind the magic (R151); `none` when fewer are there. -/
def headerFields : List Byte → Option Header
  | [w0, w1, w2, w3, h0, h1, h2, h3, ch, cs] => some ⟨ofU32be w0 w1 w2 w3, ofU32be h0 h1 h2 h3, ch, cs⟩
  | _ => none

/-- `N = width * height` in naturals (R161). -/
def Header.pixelCount (h : Header) : Nat := h.width.toNat * h.height.toNat

/-! ### The pixel buffer (R48) -/

/-- The bytes of delivered pixels, row-major, no padding. -/
def bufferBytes : List OutPixel → List Byte
  | [] => []
  | .rgb r g b :: ps => r :: g :: b :: bufferBytes ps
  | .rgba r g b a :: ps => r :: g :: b :: a :: bufferBytes ps

/-- The source pixels in a buffer of `CH` channels; without alpha bytes the alpha is 255. Bytes short of a pixel are left. -/
def bufferPixels : ChannelCount → List Byte → List Pixel
  | .three, r :: g :: b :: bs => ⟨r, g, b, Config.alphaDefault⟩ :: bufferPixels .three bs
  | .four, r :: g :: b :: a :: bs => ⟨r, g, b, a⟩ :: bufferPixels .four bs
  | _, _ => []

/-! ### `decode` -/

/-- The call of `decode` (R156): a new byte source, the magic still to read. The core is left as it is: its state, `FAULT` among
it, changes at the stream start behind the header (R18, R34, R180). That the source holds nothing yet is log entry 4. -/
def Decoder.openFile (d : Decoder) : Decoder := { d with source := ⟨[], false⟩, phase := .magic }

/-- Read and compare the magic (R156, R171, R178): right after four bytes; a shorter ended source is truncated. -/
def Decoder.readMagic (d : Decoder) : Except DecStop Decoder :=
  let got := d.source.bytes.window 0 magic.length
  if got.length < magic.length then
    if d.source.ended then .ok { d with phase := .done (.failed (.truncatedStream got.length)) }
    else .error .waiting
  else if got = magic then .ok { d with phase := .fields }
  else .ok { d with phase := .done (.failed .invalidMagic) }

/-- Read the other header fields, refuse an unsupported channel count, start the stream (R156, R159). -/
def Decoder.readFields (d : Decoder) : Except DecStop Decoder :=
  let got := d.source.bytes.window magic.length (headerLength - magic.length)
  match headerFields got with
  | some h =>
    match channelCount h.channels with
    | some ch =>
      .ok (Decoder.streamStart { d with header := h, base := headerLength, phase := .pixels } h.pixelCount ch)
    | none =>
      .ok { d with header := h, phase := .done (.failed (.unsupportedChannelCount h.channels)) }
  | none =>
    if d.source.ended then
      .ok { d with phase := .done (.failed (.truncatedStream (magic.length + got.length))) }
    else .error .waiting

/-- The marker check (R156): stop at the first byte that differs; a marker cut short by the end of the source is a mismatch
(R173); more bytes are waited for only while all so far agree. -/
def Decoder.checkMarker (d : Decoder) : Except DecStop Decoder :=
  let got := d.fetch endMarker.length
  if got = endMarker then .ok { d with phase := .done .success }
  else if got.isPrefixOf endMarker && !d.source.ended then .error .waiting
  else .ok { d with phase := .done .invalidEndMarker }

/-- The end of `decode`'s pixel loop: a fault fails it, else the marker is checked (R156). -/
def Decoder.finish (d : Decoder) : Except DecStop Decoder :=
  match d.fault with
  | some e => .ok { d with phase := .done (.failed e) }
  | none => d.checkMarker

/-- The error a `decode` result reports (R158, R170). -/
def DecodeResult.error : DecodeResult → Option ErrorKind
  | .success => none
  | .invalidEndMarker => some .invalidEndMarker
  | .failed e => some e

/-- What `decode` has returned (R156, R158): the header and the pixels, which a failure has not, and the error reported; `none`
while it runs. -/
def Decoder.returned (d : Decoder) : Option (Option (Header × List OutPixel) × Option ErrorKind) :=
  match d.phase with
  | .done r =>
    match r with
    | .failed e => some (none, some e)
    | _ => some (some (d.header, d.out), r.error)
  | _ => none

/-! ### `encode` -/

/-- The call of `encode` (R155): its arguments, a new sink and a new pixel source, the header still to write. The core is left as it
is: its state changes at the stream start behind the header (R18, R34). That both hold nothing yet is log entry 4. -/
def Encoder.openFile (e : Encoder) (h : Header) : Encoder :=
  { e with pixels := [], sink := ⟨[], none, false⟩, phase := .header, header := h }

/-- The encode side after bytes to the sink: `encode` fails at once if one is refused (R155, R176), else `next`. -/
def Encoder.afterPut (e : Encoder) (k : ByteSink) (next : Encoder → Encoder) : Encoder :=
  if k.failed then { e with sink := k, phase := .done (.failed .sinkFailure) } else next { e with sink := k }

/-- Refuse an unsupported channel count before anything is written, write the header, start the stream (R155). -/
def Encoder.writeHeader (e : Encoder) : Encoder :=
  match channelCount e.header.channels with
  | some ch =>
    e.afterPut (e.sink.putAll 0 (headerBytes e.header)) fun e' =>
      Encoder.streamStart { e' with base := headerLength, phase := .pixels } e.header.pixelCount ch
  | none => { e with phase := .done (.failed (.unsupportedChannelCount e.header.channels)) }

/-- Write the end marker behind the last operation byte (R155, R157). -/
def Encoder.writeMarker (e : Encoder) : Encoder :=
  e.afterPut (e.sink.putAll (e.base + e.outpos) endMarker) fun e' => { e' with phase := .done .success }

end Sys2Proof.Machine
end

