-- ==== Sys2Proof/Machine/Agents.lean ====
section
/-! DEFINITION. One move of each side (spec/42_decoder.md R121, spec/43_container.md R155, R156) and the host's actions
(spec/70_reset_and_hazards.md R204, R190, R191). -/

namespace Sys2Proof.Machine

/-- The state with another decode side. -/
def State.withDec (s : State) (d : Decoder) : State := { s with dec := d }

/-- A move of the bare `DEC`: one step of R121, or why there is none (R18, R133, R187). A step either expands a run (R122), or
runs the operation at `BYTEPOS` (R123), or raises `TruncatedStream` when a byte is missing and the source has ended (R172). -/
def decCoreMove (s : State) : Except DecStop (Host.Outcome State Fault Refusal) :=
  if s.dec.fault.isSome then .error .faulted
  else if s.dec.over then .error .finished
  else if s.dec.ctx.run ≠ 0 then .ok (.next (s.withDec s.dec.expandRun))
  else
    match decode (s.dec.fetch maxLength) with
    | .ok (i, _) => .ok (exec i s)
    | .error (.truncated present) =>
      if s.dec.source.ended then .ok (.next (s.withDec (s.dec.raiseTruncated present)))
      else .error .waiting

/-- A move of the wrapper on the decode side. -/
def wrapperMove (s : State) (r : Except DecStop Decoder) : Except DecStop (Host.Outcome State Fault Refusal) :=
  match r with
  | .ok d => .ok (.next (s.withDec d))
  | .error e => .error e

/-- A move of the decode side: `DEC`'s own on a bare core, else the next part of `decode` (R156). -/
def decMove (s : State) : Except DecStop (Host.Outcome State Fault Refusal) :=
  match s.dec.phase with
  | .bare => decCoreMove s
  | .magic => wrapperMove s s.dec.readMagic
  | .fields => wrapperMove s s.dec.readFields
  | .pixels => if s.dec.fault.isSome ∨ s.dec.over then wrapperMove s s.dec.finish else decCoreMove s
  | .done _ => .error .done

/-- A move of the encode side: `ENC`'s own on a bare core, else the next part of `encode` (R155). -/
def Encoder.move (e : Encoder) : Except EncStop Encoder :=
  match e.phase with
  | .bare => e.coreMove
  | .header => .ok e.writeHeader
  | .pixels =>
    if e.sink.failed then .ok { e with phase := .done (.failed .sinkFailure) }
    else if e.over then .ok e.writeMarker
    else e.coreMove
  | .done _ => .error .done

/-- An action of the host. Starting or resetting an agent gives it fresh streams (R192; log entries 4, 5); a reset keeps the
`N` and `CH` last sampled (R19). A call of `encode` or `decode` opens new streams and leaves the core to the stream start inside it. -/
def hostAct (a : HostAction) (s : State) : Host.Outcome State Fault Refusal :=
  match a with
  | .startEnc n channels =>
    match channelCount channels with
    | some ch => .next { s with enc := Encoder.fresh n ch }
    | none => .refused (.unsupportedChannelCount channels)
  | .startDec n channels =>
    match channelCount channels with
    | some ch => .next { s with dec := Decoder.fresh n ch }
    | none => .refused (.unsupportedChannelCount channels)
  | .resetEnc => .next { s with enc := Encoder.fresh s.enc.n s.enc.ch }
  | .resetDec => .next { s with dec := Decoder.fresh s.dec.n s.dec.ch }
  | .deliverPixel p => .next { s with enc := { s.enc with pixels := s.enc.pixels ++ [p] } }
  | .deliverByte b =>
    if s.dec.source.ended then .refused .byteAfterEnd
    else .next { s with dec := { s.dec with source := { s.dec.source with bytes := s.dec.source.bytes.write s.dec.source.bytes.endOffset b } } }
  | .endBytes => .next { s with dec := { s.dec with source := { s.dec.source with ended := true } } }
  | .limitSink limit => .next { s with enc := { s.enc with sink := { s.enc.sink with limit := limit } } }
  | .encodeFile h => .next { s with enc := s.enc.openFile h }
  | .decodeFile => .next { s with dec := s.dec.openFile }

/-- A turn of the decode side: its move, or nothing when it has none (R187). -/
def decTurn (s : State) : Host.Outcome State Fault Refusal :=
  match decMove s with
  | .ok o => o
  | .error _ => .next s

/-- A turn of the encode side: its move, or nothing when it has none (R187). -/
def encTurn (s : State) : Host.Outcome State Fault Refusal :=
  match s.enc.move with
  | .ok e => .next { s with enc := e }
  | .error _ => .next s

/-- What happens when no event is left: `DEC` moves if it can, else `ENC`, else no agent has a step (R202, log entry 3). -/
def freeMove (s : State) : Host.Outcome State Fault Refusal :=
  match decMove s with
  | .ok o => o
  | .error rd =>
    match s.enc.move with
    | .ok e => .next { s with enc := e }
    | .error re => .fault (.noStep rd re)

/-- One event. -/
def takeEvent (v : Event) (s : State) : Host.Outcome State Fault Refusal :=
  match v with
  | .host a => hostAct a s
  | .dec => decTurn s
  | .enc => encTurn s

/-- The state in which the machine next runs the operation with the given bytes (log entry 12). -/
def placeInstr (s : State) (bs : List Byte) : State := { s with dec := s.dec.place bs, agenda := [] }

end Sys2Proof.Machine
end

