-- ==== Sys2Proof/Machine/Step.lean ====
section
/-! DEFINITION. One step of the machine: the oldest event of the agenda, or, when there is none, the move of the first agent
that has one (log entry 3). -/

namespace Sys2Proof.Machine

/-- One step. -/
def step (s : State) : Host.Outcome State Fault Refusal :=
  match s.agenda with
  | v :: rest => takeEvent v { s with agenda := rest }
  | [] => freeMove s

/-- The state in which the very next step fetches and runs the instruction whose bits are `w` (log entry 12). -/
def State.withFetchWord (s : State) (nbits w : Nat) : State := placeInstr s (tableBytes nbits w)

end Sys2Proof.Machine
end

