-- ==== Sys2Proof/Machine/Text.lean ====
section
/-! DEFINITION. The textual notation of operations (spec/30_encoding.md R62) and the `END` directive (R63): writing it, reading it,
and the bytes of a program. It is notation of the spec's own; no state and no step depends on it. -/

namespace Sys2Proof.Machine

/-- A line of a program: an operation, or `END`, which stands for the end marker's bytes (R63). -/
inductive Line where
  | op (i : Instr)
  | endDirective
  deriving DecidableEq, Repr

/-- The bytes of a program (R62, R63). -/
def assemble (ls : List Line) : List Byte :=
  ls.flatMap fun l =>
    match l with
    | .op i => encode i
    | .endDirective => endMarker

/-! ### Writing -/

/-- Operands after the mnemonic, with a comma and a space between two. -/
def writeLine (mnemonic : String) (operands : List Int) : String :=
  mnemonic ++ " " ++ String.intercalate ", " (operands.map fun v => toString v)

/-- An operation as text: operands in the order of R3, signed ones in decimal with their sign when negative. -/
def instrText : Instr → String
  | .rgb r g b => writeLine "RGB" [r.toNat, g.toNat, b.toNat]
  | .rgba r g b a => writeLine "RGBA" [r.toNat, g.toNat, b.toNat, a.toNat]
  | .run length => writeLine "RUN" [length]
  | .luma dg drg dbg => writeLine "LUMA" [dg, drg, dbg]
  | .diff dr dg db => writeLine "DIFF" [dr, dg, db]
  | .index slot => writeLine "INDEX" [slot.val]

/-- A line as text. -/
def lineText : Line → String
  | .op i => instrText i
  | .endDirective => "END"

/-! ### Reading -/

/-- Characters split at every occurrence of one. -/
def splitAt (c : Char) : List Char → List (List Char)
  | [] => [[]]
  | x :: xs =>
    match splitAt c xs with
    | [] => [[]]
    | w :: ws => if x = c then [] :: w :: ws else (x :: w) :: ws

/-- Characters without the spaces at both ends. -/
def trimSpaces (cs : List Char) : List Char :=
  ((cs.dropWhile (· = ' ')).reverse.dropWhile (· = ' ')).reverse

/-- The value of one digit in base 10 or 16. -/
def digitValue (base : Nat) (c : Char) : Option Nat :=
  let v :=
    if '0' ≤ c ∧ c ≤ '9' then some (c.toNat - '0'.toNat)
    else if 'a' ≤ c ∧ c ≤ 'f' then some (c.toNat - 'a'.toNat + 10)
    else if 'A' ≤ c ∧ c ≤ 'F' then some (c.toNat - 'A'.toNat + 10)
    else none
  v.bind fun d => if d < base then some d else none

/-- A number from its digits, the most significant first; `acc` is the value so far. -/
def digitsValue (base acc : Nat) : List Char → Option Nat
  | [] => some acc
  | c :: cs =>
    match digitValue base c with
    | some d => digitsValue base (acc * base + d) cs
    | none => none

/-- An unsigned operand: decimal, or hexadecimal after `0x` (R62). -/
def readUnsigned : List Char → Option Nat
  | [] => none
  | '0' :: 'x' :: c :: cs => digitsValue 16 0 (c :: cs)
  | cs => digitsValue 10 0 cs

/-- A signed operand: decimal with an optional sign (R62). -/
def readSigned : List Char → Option Int
  | '-' :: c :: cs => (digitsValue 10 0 (c :: cs)).map fun v => -(v : Int)
  | '+' :: c :: cs => (digitsValue 10 0 (c :: cs)).map fun v => (v : Int)
  | [] => none
  | cs => (digitsValue 10 0 cs).map fun v => (v : Int)

/-- A raw channel operand, 0..255. -/
def readByte (cs : List Char) : Option Byte :=
  (readUnsigned cs).bind fun v => if v < 256 then some (BitVec.ofNat 8 v) else none

/-- The operation with a mnemonic and operands, if the operands are in range (R56, R62). -/
def readInstr (mnemonic : List Char) (operands : List (List Char)) : Option Instr :=
  let wellFormed := fun i : Instr => if i.wf then some i else none
  match operands with
  | [x] =>
    if mnemonic = "INDEX".toList then
      (readUnsigned x).bind fun v => if h : v < 64 then some (.index ⟨v, h⟩) else none
    else if mnemonic = "RUN".toList then (readUnsigned x).bind fun v => wellFormed (.run v)
    else none
  | [x, y, z] =>
    if mnemonic = "DIFF".toList then
      (readSigned x).bind fun dr => (readSigned y).bind fun dg => (readSigned z).bind fun db =>
        wellFormed (.diff dr dg db)
    else if mnemonic = "LUMA".toList then
      (readSigned x).bind fun dg => (readSigned y).bind fun drg => (readSigned z).bind fun dbg =>
        wellFormed (.luma dg drg dbg)
    else if mnemonic = "RGB".toList then
      (readByte x).bind fun r => (readByte y).bind fun g => (readByte z).map fun b => .rgb r g b
    else none
  | [x, y, z, w] =>
    if mnemonic = "RGBA".toList then
      (readByte x).bind fun r => (readByte y).bind fun g => (readByte z).bind fun b =>
        (readByte w).map fun a => .rgba r g b a
    else none
  | _ => none

/-- One line of text (R62, R63). -/
def readLine (text : List Char) : Option Line :=
  let cs := trimSpaces text
  if cs = "END".toList then some .endDirective
  else
    let mnemonic := cs.takeWhile (· ≠ ' ')
    let rest := cs.dropWhile (· ≠ ' ')
    (readInstr mnemonic ((splitAt ',' rest).map trimSpaces)).map .op

end Sys2Proof.Machine
end

