-- ==== Sys2Proof/Safety.lean ====
section
/-! DEFINITION. The terms the claims use: what one operation does to the state and leaves alone, the invariants of the machine,
and runs over a list of events. -/

namespace Sys2Proof.Machine

/-! ### What an operation does -/

/-- What no operation of `DEC` changes: the error status, the configuration, the input, the wrapper's half, the encode side, the
events, and every byte of both byte streams (R24, R46). -/
structure DecFrame (s t : State) : Prop where
  fault : t.dec.fault = s.dec.fault
  n : t.dec.n = s.dec.n
  ch : t.dec.ch = s.dec.ch
  ended : t.dec.source.ended = s.dec.source.ended
  base : t.dec.base = s.dec.base
  phase : t.dec.phase = s.dec.phase
  header : t.dec.header = s.dec.header
  enc : t.enc = s.enc
  agenda : t.agenda = s.agenda
  sourceBytes : ∀ a, t.dec.source.bytes.read a = s.dec.source.bytes.read a
  sinkBytes : ∀ a, t.enc.sink.bytes.read a = s.enc.sink.bytes.read a

/-- The pixel `p` has been produced (R131, R132, R121): delivered with `CH` channels, `PREV` is `p`, `PIXPOS` one on. -/
structure Produced (s t : State) (p : Pixel) : Prop where
  prev : t.dec.ctx.prev = p
  out : t.dec.out = s.dec.out ++ [outPixel s.dec.ch p]
  pixpos : t.dec.pixpos = s.dec.pixpos + 1

/-- The cache write of R130: the slot of `p`'s hash holds `p`, every other slot what it held. -/
structure Stored (s t : State) (p : Pixel) : Prop where
  here : t.dec.ctx.lookup (slotHash p) = p
  elsewhere : ∀ i, i ≠ slotHash p → t.dec.ctx.lookup i = s.dec.ctx.lookup i

/-- What a non-run operation of `k` bytes with pixel `p` does, and leaves alone. -/
structure NonRunOp (s t : State) (k : Nat) (p : Pixel) : Prop where
  produced : Produced s t p
  stored : Stored s t p
  run : t.dec.ctx.run = s.dec.ctx.run
  bytepos : t.dec.bytepos = s.dec.bytepos + k
  frame : DecFrame s t

/-- What a step that repeats `PREV` does (R122, R126): no cache access; `run` is the value left in `RUN`, `k` the bytes read. -/
structure RepeatOp (s t : State) (k : Nat) (run : Nat) : Prop where
  produced : Produced s t s.dec.ctx.prev
  cache : ∀ i, t.dec.ctx.lookup i = s.dec.ctx.lookup i
  run : t.dec.ctx.run.toNat = run
  bytepos : t.dec.bytepos = s.dec.bytepos + k
  frame : DecFrame s t

/-- The step raised `TruncatedStream` with `k` bytes of the operation there (R172, R134): `FAULT` and the missing byte's offset; no
pixel is produced. What the context holds is left out (U3). -/
structure TruncatedAt (s t : State) (k : Nat) : Prop where
  fault : t.dec.fault = some (.truncatedStream (s.dec.bytepos + k))
  bytepos : t.dec.bytepos = s.dec.bytepos + k
  pixpos : t.dec.pixpos = s.dec.pixpos
  out : t.dec.out = s.dec.out

/-- What an encoder step does beside its context: the bytes `bs` stand at `OUTPOS` in order, every other byte of the sink is as
it was, `OUTPOS` is behind them, `PIXPOS` one on, and the rest of the encode side is unchanged. -/
structure EncEmits (e e' : Encoder) (bs : List Byte) : Prop where
  bytes : ∀ k, k < bs.length → e'.sink.bytes.read (e.base + e.outpos + k) = bs[k]?
  elsewhere : ∀ a, a < e.base + e.outpos ∨ e.base + e.outpos + bs.length ≤ a →
    e'.sink.bytes.read a = e.sink.bytes.read a
  outpos : e'.outpos = e.outpos + bs.length
  pixpos : e'.pixpos = e.pixpos + 1
  failed : e'.sink.failed = e.sink.failed
  limit : e'.sink.limit = e.sink.limit
  fault : e'.fault = e.fault
  n : e'.n = e.n
  ch : e'.ch = e.ch
  pixels : e'.pixels = e.pixels
  base : e'.base = e.base
  phase : e'.phase = e.phase
  header : e'.header = e.header

/-- The encode side is about to process the pixel `p` with a sink that takes the up to six bytes of the step (R106): the
conditions under which `ENC` has a step. -/
structure EncReady (e : Encoder) (p : Pixel) : Prop where
  phase : e.phase = .bare ∨ e.phase = .pixels
  fault : e.fault = none
  more : e.pixpos ≠ e.n
  open_ : e.sink.failed = false
  room : ∀ k, k < 6 → e.sink.refuses (e.base + e.outpos + k) = false
  pixel : e.nextPixel = some p

/-- `DEC` has a step that does not expand a run: the conditions under which it fetches (R121). -/
structure DecFetches (s : State) : Prop where
  phase : s.dec.phase = .bare ∨ s.dec.phase = .pixels
  fault : s.dec.fault = none
  more : s.dec.pixpos ≠ s.dec.n
  run : s.dec.ctx.run = 0

/-- The decode side has the turn in `s`, and `vs` are the events left: its event is the oldest, or no event is left. -/
def DecTurn (s : State) (vs : List Event) : Prop := s.agenda = .dec :: vs ∨ (s.agenda = [] ∧ vs = [])

/-- The operand bytes an operation needs behind its tag byte (R123). -/
def operandBytes (t : Byte) : Nat :=
  if t = 0xFE then 3 else if t = 0xFF then 4 else if t &&& 0xC0 = 0x80 then 1 else 0

/-- Two lists of source pixels with the same colours, whatever their alpha lanes carry (R103). -/
def sameColours (ps qs : List Pixel) : Prop :=
  ps.map (fun p => (p.r, p.g, p.b)) = qs.map (fun p => (p.r, p.g, p.b))

/-! ### Invariants -/

/-- R35 (b): every slot holds `(0,0,0,0)` or a pixel that hashes to it. -/
def CacheInv (c : Context) : Prop := ∀ i, c.lookup i = Config.slotInit ∨ slotHash (c.lookup i) = i

/-- Both byte memories are in canonical form. -/
def MemoriesCanonical (s : State) : Prop := s.dec.source.bytes.wf ∧ s.enc.sink.bytes.wf

/-- The streams of the encode side are those of the stream its core is in: not between a call of `encode` and the stream start
inside it, nor after a call that has failed. -/
def Encoder.inStream (e : Encoder) : Bool :=
  match e.phase with
  | .bare => true
  | .header => false
  | .pixels => true
  | .done .success => true
  | .done (.failed _) => false

/-- What `ENC` holds belongs to its streams and may be read: its stream has started and the sink has refused nothing (R176). -/
def Encoder.Readable (e : Encoder) : Prop := e.inStream = true ∧ e.sink.failed = false

/-- R35 (b) for both agents, where the context may be read: not after a fault of `DEC` (D10, U3) nor a failed sink (R176). -/
def CachesInv (s : State) : Prop :=
  (s.dec.fault = none → CacheInv s.dec.ctx) ∧ (s.enc.Readable → CacheInv s.enc.ctx)

/-- The input pixel `k` as `ENC` sees it (R103). -/
def Encoder.pixelAt (e : Encoder) (k : Nat) : Option Pixel := (e.pixels[k]?).map (sourcePixel e.ch)

/-- R107 (a), (b), (d), (e): `RUN` is 0..61; the last `RUN` pixels processed equal `PREV`; `PREV` is the last pixel processed, or
`PREV_INIT`; with `CH = 3` every alpha of the context is 255 but in slots still initial. -/
structure EncHistory (e : Encoder) : Prop where
  run : e.ctx.run.toNat ≤ 61
  runLe : e.ctx.run.toNat ≤ e.pixpos
  pending : ∀ k, k < e.pixpos → e.pixpos ≤ k + e.ctx.run.toNat → e.pixelAt k = some e.ctx.prev
  first : e.pixpos = 0 → e.ctx.prev = Config.prevInit
  prev : ∀ k, e.pixpos = k + 1 → e.pixelAt k = some e.ctx.prev
  alpha : e.ch = .three → e.ctx.prev.a = 255 ∧
    ∀ i, e.ctx.lookup i = Config.slotInit ∨ (e.ctx.lookup i).a = 255

/-- R107 (a), R104, R106: the counters of `ENC` and what they say of the bytes emitted. -/
structure EncCounts (e : Encoder) : Prop where
  run : e.ctx.run.toNat ≤ 61
  pixpos : e.pixpos ≤ e.n
  atEnd : e.pixpos = e.n → e.ctx.run = 0
  most : e.outpos + (if e.ctx.run = 0 then 0 else 1) ≤ 5 * e.pixpos
  least : e.pixpos ≤ 62 * e.outpos + e.ctx.run.toNat

/-- R14, R133: `RUN` of `DEC` is 0..61 where it may be read (U3), one pixel is delivered a step, never more than `N`. -/
structure DecCounts (d : Decoder) : Prop where
  run : d.fault = none → d.ctx.run.toNat ≤ 61
  pixpos : d.pixpos ≤ d.n
  out : d.out.length = d.pixpos

/-- R110, R172, R179: `ENC` never faults; a fault of `DEC` is `TruncatedStream` at `BYTEPOS`, and while `DEC` is in the stream that
raised it (its source not yet replaced by a call of `decode`) no byte is or will be there. -/
structure FaultsInv (s : State) : Prop where
  enc : s.enc.fault = none
  kind : ∀ e, s.dec.fault = some e → e = .truncatedStream s.dec.bytepos
  missing : (s.dec.phase = .bare ∨ s.dec.phase = .pixels) → s.dec.fault ≠ none → s.dec.source.ended = true ∧
    s.dec.source.bytes.read (s.dec.base + s.dec.bytepos) = none

/-- Every byte `ENC` counts in `OUTPOS` stands in the sink of its stream (R42, R90). -/
def EmittedBytesStand (s : State) : Prop :=
  s.enc.inStream = true → ∀ k, k < s.enc.outpos → (s.enc.sink.bytes.read (s.enc.base + k)).isSome = true

/-! ### Runs over a list of events -/

/-- The machine run over a list of events from a state whose other events are put aside. -/
def runEvents (vs : List Event) (s : State) : Host.Outcome State Fault Refusal :=
  Sys2Proof.core.run vs.length { s with agenda := vs }

/-- The pixels of a source, delivered. -/
def deliverPixels (ps : List Pixel) : List Event := ps.map fun p => .host (.deliverPixel p)

/-- The bytes of a source, delivered, and its end. -/
def deliverBytes (bs : List Byte) : List Event :=
  (bs.map fun b => .host (.deliverByte b)) ++ [.host .endBytes]

/-- A bare `ENC` started on the pixels and given `k` turns (R91). -/
def encoderRun (channels : Byte) (ps : List Pixel) (k : Nat) : List Event :=
  .host (.startEnc ps.length channels) :: deliverPixels ps ++ List.replicate k .enc

/-- A bare `DEC` started on the bytes and given `k` turns (R121). -/
def decoderRun (channels : Byte) (n : Nat) (bs : List Byte) (k : Nat) : List Event :=
  .host (.startDec n channels) :: deliverBytes bs ++ List.replicate k .dec

/-- `encode` of R155: the header, one turn a pixel, the marker. -/
def encodeRun (h : Header) (ps : List Pixel) : List Event :=
  .host (.encodeFile h) :: deliverPixels ps ++ List.replicate (ps.length + 2) .enc

/-- `decode` of R156: the magic, the other fields, one turn a pixel, the marker. -/
def decodeRun (n : Nat) (bs : List Byte) : List Event :=
  .host .decodeFile :: deliverBytes bs ++ List.replicate (n + 3) .dec

/-- The bytes in a sink in offset order. -/
def ByteSink.contents (k : ByteSink) : List Byte := k.bytes.map Prod.snd

/-- The step starts a stream of `DEC` (R190, R191): the host's start or reset is the oldest event, or the decode side's turn has come
and `decode` has the header's fields to read, behind which it starts the stream (R156). -/
def StartsDec (s t : State) : Prop :=
  (∃ n c vs, s.agenda = .host (.startDec n c) :: vs) ∨ (∃ vs, s.agenda = .host .resetDec :: vs) ∨
    (s.dec.phase = .fields ∧ t.dec.phase = .pixels ∧ ∃ vs, DecTurn s vs)

/-- The step starts a stream of `ENC` (R190, R191), `encode` having the header to write (R155). -/
def StartsEnc (s t : State) : Prop :=
  (∃ n c vs, s.agenda = .host (.startEnc n c) :: vs) ∨ (∃ vs, s.agenda = .host .resetEnc :: vs) ∨
    (s.enc.phase = .header ∧ t.enc.phase = .pixels ∧ (s.agenda = [] ∨ ∃ vs, s.agenda = .enc :: vs))

/-- The actions that give the decode side a new byte source (R191, R156). -/
def restartsDec : Event → Bool
  | .host (.startDec _ _) => true
  | .host .resetDec => true
  | .host .decodeFile => true
  | _ => false

/-- The actions that give the encode side a new sink. -/
def restartsEnc : Event → Bool
  | .host (.startEnc _ _) => true
  | .host .resetEnc => true
  | .host (.encodeFile _) => true
  | _ => false

end Sys2Proof.Machine
end

