-- ==== Sys2Proof/Certificates/Slice0/Obligations.lean ====
section
/-! DEFINITION. The statements for the provers. Each cites the rule of spec/ it formalises; a statement whose title or docstring
names a log entry rests on a choice of the model. -/

open Sys2Proof Sys2Proof.Machine

/-! ### Encoding (spec/30_encoding.md) -/

/-- Sections 1 to 3: every well-formed operation is read back from its bytes, whatever follows. -/
def Obligations.DecodeOfEncode : Prop :=
  ∀ (i : Instr) (rest : List Byte), i.wf = true → decode (encode i ++ rest) = .ok (i, rest)

/-- Sections 2 to 4: whatever the parser reads is well formed, and its encoding is the bytes read; no bit is dropped. -/
def Obligations.EncodeOfDecode : Prop :=
  ∀ (bs : List Byte) (i : Instr) (rest : List Byte), decode bs = .ok (i, rest) →
    i.wf = true ∧ encode i ++ rest = bs

/-- Section 3, R58 (which the spec derives from R57): the complete map of the 256 tag values. -/
def Obligations.TagByteMap : Prop :=
  ∀ (t x y z w : Byte) (rest : List Byte), ∃ i,
    decode (t :: x :: y :: z :: w :: rest) = .ok (i, (x :: y :: z :: w :: rest).drop (i.length - 1)) ∧
    (t.toNat ≤ 0x3F → i = .index (Fin.ofNat 64 t.toNat) ∧ i.length = 1) ∧
    (0x40 ≤ t.toNat ∧ t.toNat ≤ 0x7F → (∃ dr dg db, i = .diff dr dg db) ∧ i.length = 1) ∧
    (0x80 ≤ t.toNat ∧ t.toNat ≤ 0xBF → (∃ dg drg dbg, i = .luma dg drg dbg) ∧ i.length = 2) ∧
    (0xC0 ≤ t.toNat ∧ t.toNat ≤ 0xFD → i = .run (t.toNat - 0xBF) ∧ i.length = 1) ∧
    (t.toNat = 0xFE → i = .rgb x y z ∧ i.length = 4) ∧
    (t.toNat = 0xFF → i = .rgba x y z w ∧ i.length = 5)

/-- R57: the dispatch, the two exact values before the 2-bit group. -/
def Obligations.DispatchOrder : Prop :=
  ∀ (t : Byte) (operands rest : List Byte) (i : Instr), decode (t :: operands) = .ok (i, rest) →
    (if t = 0xFE then ∃ r g b, i = .rgb r g b
     else if t = 0xFF then ∃ r g b a, i = .rgba r g b a
     else if t &&& 0xC0 = 0xC0 then ∃ n, i = .run n
     else if t &&& 0xC0 = 0x80 then ∃ dg drg dbg, i = .luma dg drg dbg
     else if t &&& 0xC0 = 0x40 then ∃ dr dg db, i = .diff dr dg db
     else t &&& 0xC0 = 0x00 ∧ ∃ slot, i = .index slot)

/-- R123 and section 4: the parser fails exactly when an operand byte, or the tag, is missing. -/
def Obligations.ParserFailsOnlyShort : Prop :=
  ∀ (bs : List Byte) (k : Nat), decode bs = .error (.truncated k) ↔
    k = bs.length ∧ (bs = [] ∨ ∃ t tl, bs = t :: tl ∧ tl.length < operandBytes t)

/-- A few words written out from the layouts of R51 to R55 and the examples of spec/95_test_vectors.md, and the end marker read
as operations (R61). -/
def Obligations.HandAssembledWords : Prop :=
  decode [0b00000100] = .ok (.index 4, []) ∧
  decode [0b01011100] = .ok (.diff (-1) 1 (-2), []) ∧
  decode [0b10111111, 0b11110000] = .ok (.luma 31 7 (-8), []) ∧
  decode [0b11111101] = .ok (.run 62, []) ∧
  decode [0b11000000] = .ok (.run 1, []) ∧
  decode [0b11111110, 10, 20, 30] = .ok (.rgb 10 20 30, []) ∧
  decode [0b11111111, 10, 20, 30, 128] = .ok (.rgba 10 20 30 128, []) ∧
  assemble (List.replicate 7 (.op (.index 0)) ++ [.op (.index 1)]) = endMarker ∧
  decode [0, 1] = .ok (.index 0, [1]) ∧ decode [1] = .ok (.index 1, [])

/-! ### The cache and the pixel word (spec/20_memory.md, spec/10_state.md) -/

/-- R30: the slot of a pixel, and the worked values. -/
def Obligations.HashIsTheWeightedSum : Prop :=
  (∀ p : Pixel, (slotHash p).val = (3 * p.r.toNat + 5 * p.g.toNat + 7 * p.b.toNat + 11 * p.a.toNat) % 64) ∧
  slotHash ⟨0, 0, 0, 0⟩ = 0 ∧ slotHash ⟨0, 0, 0, 255⟩ = 53 ∧ slotHash ⟨255, 255, 255, 255⟩ = 38

/-- R31 (which the spec derives from R30): only the low six bits of each channel count, so pixels that agree in them collide. -/
def Obligations.HashUsesLowSixBits : Prop :=
  (∀ p : Pixel, (slotHash p).val =
    (3 * bits p.r 5 0 + 5 * bits p.g 5 0 + 7 * bits p.b 5 0 + 11 * bits p.a 5 0) % 64) ∧
  ∀ p q : Pixel, bits p.r 5 0 = bits q.r 5 0 → bits p.g 5 0 = bits q.g 5 0 → bits p.b 5 0 = bits q.b 5 0 →
    bits p.a 5 0 = bits q.a 5 0 → slotHash p = slotHash q

/-- R25 (decision D14) and R48: the pixel word holds each channel in its byte, and the pixel buffer of `CH` channels holds
pixel `k` at bytes `k*CH` and gives the source pixels back. -/
def Obligations.PixelLayouts : Prop :=
  (∀ p : Pixel, (pixelWord p).extractLsb 31 24 = p.r ∧ (pixelWord p).extractLsb 23 16 = p.g ∧
    (pixelWord p).extractLsb 15 8 = p.b ∧ (pixelWord p).extractLsb 7 0 = p.a ∧ wordPixel (pixelWord p) = p) ∧
  (∀ w : BitVec 32, pixelWord (wordPixel w) = w) ∧
  ∀ (ps : List Pixel), (bufferBytes (ps.map (outPixel .three))).length = 3 * ps.length ∧
    (bufferBytes (ps.map (outPixel .four))).length = 4 * ps.length ∧
    (∀ k p, ps[k]? = some p →
      ((bufferBytes (ps.map (outPixel .three))).drop (3 * k)).take 3 = [p.r, p.g, p.b] ∧
      ((bufferBytes (ps.map (outPixel .four))).drop (4 * k)).take 4 = [p.r, p.g, p.b, p.a]) ∧
    ∀ ch, bufferPixels ch (bufferBytes (ps.map (outPixel ch))) = ps.map (sourcePixel ch)

/-! ### The delta unit (spec/40_delta.md) -/

/-- R71 (decision D3): the differences are 8-bit signed numbers that carry the previous channel to the current one modulo 256. -/
def Obligations.WrappedDifference : Prop :=
  ∀ cur prev : Pixel,
    (∀ v ∈ [(delta cur prev).1, (delta cur prev).2.1, (delta cur prev).2.2], -128 ≤ v ∧ v ≤ 127) ∧
    (cur.r.toNat : Int) = (prev.r.toNat + (delta cur prev).1) % 256 ∧
    (cur.g.toNat : Int) = (prev.g.toNat + (delta cur prev).2.1) % 256 ∧
    (cur.b.toNat : Int) = (prev.b.toNat + (delta cur prev).2.2) % 256

/-- R80 (which the spec derives): the decoder side undoes the encoder side, for both readings of the difference. -/
def Obligations.DeltaInverse : Prop :=
  ∀ (wrap : Bool) (cur prev : Pixel), cur.a = prev.a →
    let v := deltaWith wrap cur prev
    (diffFits v = true →
      let d := diffUnpack (diffPack v.1 v.2.1 v.2.2)
      diffApply prev d.1 d.2.1 d.2.2 = cur) ∧
    (lumaFits v = true →
      let b := lumaPack v.1 v.2.1 v.2.2
      let d := lumaUnpack b.1 b.2
      lumaApply prev d.1 d.2.1 d.2.2 = cur)

/-- R81 (which the spec derives): whatever fits DIFF fits LUMA. -/
def Obligations.DiffFitsLuma : Prop := ∀ v : Int × Int × Int, diffFits v = true → lumaFits v = true

/-- R82 (which the spec derives): the DIFF byte is a bijection from the fitting triples onto `0x40..0x7F`, the LUMA pair one
onto `{0x80..0xBF} x {0x00..0xFF}`. -/
def Obligations.DeltaBytesAreBijections : Prop :=
  (∀ v : Int × Int × Int, diffFits v = true →
    0x40 ≤ (diffPack v.1 v.2.1 v.2.2).toNat ∧ (diffPack v.1 v.2.1 v.2.2).toNat ≤ 0x7F ∧
    diffUnpack (diffPack v.1 v.2.1 v.2.2) = v) ∧
  (∀ t : Byte, 0x40 ≤ t.toNat → t.toNat ≤ 0x7F →
    diffFits (diffUnpack t) = true ∧ diffPack (diffUnpack t).1 (diffUnpack t).2.1 (diffUnpack t).2.2 = t) ∧
  (∀ v : Int × Int × Int, lumaFits v = true →
    let b := lumaPack v.1 v.2.1 v.2.2
    0x80 ≤ b.1.toNat ∧ b.1.toNat ≤ 0xBF ∧ lumaUnpack b.1 b.2 = (v.2.1, v.1 - v.2.1, v.2.2 - v.2.1)) ∧
  (∀ t b2 : Byte, 0x80 ≤ t.toNat → t.toNat ≤ 0xBF →
    let u := lumaUnpack t b2
    lumaFits (u.2.1 + u.1, u.1, u.2.2 + u.1) = true ∧ lumaPack (u.2.1 + u.1) u.1 (u.2.2 + u.1) = (t, b2))

/-- R79: every reconstruction is modulo 256, whatever the deltas; alpha is unchanged. -/
def Obligations.ReconstructionIsModulo256 : Prop :=
  ∀ (prev : Pixel) (x y z : Int),
    ((diffApply prev x y z).r.toNat : Int) = (prev.r.toNat + x) % 256 ∧
    ((diffApply prev x y z).g.toNat : Int) = (prev.g.toNat + y) % 256 ∧
    ((diffApply prev x y z).b.toNat : Int) = (prev.b.toNat + z) % 256 ∧
    (diffApply prev x y z).a = prev.a ∧
    ((lumaApply prev x y z).r.toNat : Int) = (prev.r.toNat + y + x) % 256 ∧
    ((lumaApply prev x y z).g.toNat : Int) = (prev.g.toNat + x) % 256 ∧
    ((lumaApply prev x y z).b.toNat : Int) = (prev.b.toNat + z + x) % 256 ∧
    (lumaApply prev x y z).a = prev.a

/-! ### The six operations (spec/42_decoder.md): layout, effect, frame, too few bytes -/

/-- R124: RGB, and `TruncatedStream` when fewer than three bytes follow the tag. What that error leaves is the spec's decision D10;
the turn taken with no event left is log entry 3. -/
def Obligations.RgbRuns : Prop :=
  (∀ (r g b : Byte) (rest : List Byte), decode (0xFE :: r :: g :: b :: rest) = .ok (.rgb r g b, rest)) ∧
  (∀ (r g b : Byte) (s : State), ∃ t, exec (.rgb r g b) s = .next t ∧ NonRunOp s t 4 ⟨r, g, b, s.dec.ctx.prev.a⟩) ∧
  ∀ (s : State) (vs : List Event) (bs : List Byte), DecFetches s → DecTurn s vs → s.dec.source.ended = true →
    s.dec.source.bytes.window (s.dec.base + s.dec.bytepos) 5 = 0xFE :: bs → bs.length < 3 →
    ∃ t, step s = .next t ∧ TruncatedAt s t (1 + bs.length)

/-- R125: RGBA, and `TruncatedStream` when fewer than four bytes follow the tag. What that error leaves is the spec's decision D10;
the turn taken with no event left is log entry 3. With `CH = 3` the alpha is kept in `PREV` and `CACHE` and dropped only at the output. -/
def Obligations.RgbaRuns : Prop :=
  (∀ (r g b a : Byte) (rest : List Byte), decode (0xFF :: r :: g :: b :: a :: rest) = .ok (.rgba r g b a, rest)) ∧
  (∀ (r g b a : Byte) (s : State), ∃ t, exec (.rgba r g b a) s = .next t ∧ NonRunOp s t 5 ⟨r, g, b, a⟩ ∧
    (s.dec.ch = .three → t.dec.out = s.dec.out ++ [.rgb r g b])) ∧
  ∀ (s : State) (vs : List Event) (bs : List Byte), DecFetches s → DecTurn s vs → s.dec.source.ended = true →
    s.dec.source.bytes.window (s.dec.base + s.dec.bytepos) 5 = 0xFF :: bs → bs.length < 4 →
    ∃ t, step s = .next t ∧ TruncatedAt s t (1 + bs.length)

/-- R126: RUN, and the pixels it produces with the run expander after it: `len_m1 + 1` in all, or as many as are left of `N`: once
`PIXPOS = N` a turn of a bare `DEC` changes nothing, whatever `RUN` holds. That the rest of a run is dropped is the spec's decision D7;
that a turn without a step changes nothing is log entry 3. -/
def Obligations.RunRuns : Prop :=
  (∀ (t : Byte) (rest : List Byte), 0xC0 ≤ t.toNat → t.toNat ≤ 0xFD →
    decode (t :: rest) = .ok (.run (bits t 5 0 + 1), rest)) ∧
  ∀ (length : Nat) (s : State), 1 ≤ length → length ≤ 62 →
    ∃ t, exec (.run length) s = .next t ∧ RepeatOp s t 1 (length - 1) ∧
      ((s.dec.phase = .bare ∨ s.dec.phase = .pixels) → s.dec.fault = none →
        ∀ k, k ≤ length - 1 → t.dec.pixpos + k ≤ t.dec.n →
          ∃ u, runEvents (List.replicate k .dec) t = .next u ∧
            u.dec.out = s.dec.out ++ List.replicate (k + 1) (outPixel s.dec.ch s.dec.ctx.prev) ∧
            u.dec.pixpos = s.dec.pixpos + k + 1 ∧ u.dec.ctx.run.toNat = length - 1 - k ∧
            u.dec.ctx.prev = s.dec.ctx.prev ∧ (∀ i, u.dec.ctx.lookup i = s.dec.ctx.lookup i) ∧
            u.dec.bytepos = s.dec.bytepos + 1 ∧
            (s.dec.phase = .bare → u.dec.pixpos = u.dec.n →
              step { u with agenda := [.dec] } = .next { u with agenda := [] }))

/-- R127: LUMA, and `TruncatedStream` when no byte follows the tag. What that error leaves is the spec's decision D10; the turn
taken with no event left is log entry 3. -/
def Obligations.LumaRuns : Prop :=
  (∀ (t b2 : Byte) (rest : List Byte), 0x80 ≤ t.toNat → t.toNat ≤ 0xBF →
    decode (t :: b2 :: rest) =
      .ok (.luma ((bits t 5 0 : Int) - 32) ((bits b2 7 4 : Int) - 8) ((bits b2 3 0 : Int) - 8), rest)) ∧
  (∀ (dg drg dbg : Int) (s : State), ∃ t p, exec (.luma dg drg dbg) s = .next t ∧ NonRunOp s t 2 p ∧
    (p.r.toNat : Int) = (s.dec.ctx.prev.r.toNat + drg + dg) % 256 ∧
    (p.g.toNat : Int) = (s.dec.ctx.prev.g.toNat + dg) % 256 ∧
    (p.b.toNat : Int) = (s.dec.ctx.prev.b.toNat + dbg + dg) % 256 ∧
    p.a = s.dec.ctx.prev.a) ∧
  ∀ (s : State) (vs : List Event) (t : Byte), DecFetches s → DecTurn s vs → s.dec.source.ended = true →
    s.dec.source.bytes.window (s.dec.base + s.dec.bytepos) 5 = [t] → 0x80 ≤ t.toNat → t.toNat ≤ 0xBF →
    ∃ u, step s = .next u ∧ TruncatedAt s u 1

/-- R128: DIFF. -/
def Obligations.DiffRuns : Prop :=
  (∀ (t : Byte) (rest : List Byte), 0x40 ≤ t.toNat → t.toNat ≤ 0x7F →
    decode (t :: rest) =
      .ok (.diff ((bits t 5 4 : Int) - 2) ((bits t 3 2 : Int) - 2) ((bits t 1 0 : Int) - 2), rest)) ∧
  ∀ (dr dg db : Int) (s : State), ∃ t p, exec (.diff dr dg db) s = .next t ∧ NonRunOp s t 1 p ∧
    (p.r.toNat : Int) = (s.dec.ctx.prev.r.toNat + dr) % 256 ∧
    (p.g.toNat : Int) = (s.dec.ctx.prev.g.toNat + dg) % 256 ∧
    (p.b.toNat : Int) = (s.dec.ctx.prev.b.toNat + db) % 256 ∧
    p.a = s.dec.ctx.prev.a

/-- R129: INDEX, with its corner cases: (a) a slot never stored to yields `(0,0,0,0)`, whose cache write goes to slot 0;
(b) a slot that holds a pixel of its own hash is written with what it holds. -/
def Obligations.IndexRuns : Prop :=
  (∀ (t : Byte) (rest : List Byte), t.toNat ≤ 0x3F →
    decode (t :: rest) = .ok (.index (Fin.ofNat 64 (bits t 5 0)), rest)) ∧
  ∀ (slot : Slot) (s : State), ∃ t, exec (.index slot) s = .next t ∧ NonRunOp s t 1 (s.dec.ctx.lookup slot) ∧
    (s.dec.ctx.lookup slot = ⟨0, 0, 0, 0⟩ →
      t.dec.ctx.prev = ⟨0, 0, 0, 0⟩ ∧ t.dec.ctx.lookup 0 = ⟨0, 0, 0, 0⟩) ∧
    (slotHash (s.dec.ctx.lookup slot) = slot → ∀ i, t.dec.ctx.lookup i = s.dec.ctx.lookup i)

/-- R130, R132, over all operations and the run expander: every operation but RUN stores its pixel at its hash and nothing else; RUN
and the expander store nothing; `PREV` is the pixel produced; `BYTEPOS` moves by the length of the operation. -/
def Obligations.CommonTail : Prop :=
  (∀ (i : Instr) (s : State), ∃ t p, exec i s = .next t ∧ Produced s t p ∧ DecFrame s t ∧
    t.dec.bytepos = s.dec.bytepos + i.length ∧
    ((∃ n, i = .run n) → p = s.dec.ctx.prev ∧ ∀ j, t.dec.ctx.lookup j = s.dec.ctx.lookup j) ∧
    ((∀ n, i ≠ .run n) → Stored s t p ∧ t.dec.ctx.run = s.dec.ctx.run)) ∧
  ∀ (s : State), Produced s (s.withDec s.dec.expandRun) s.dec.ctx.prev ∧
    ∀ j, s.dec.expandRun.ctx.lookup j = s.dec.ctx.lookup j

/-! ### The decoder's step (spec/42_decoder.md R121, spec/60_exceptions.md) -/

/-- R121, R123: when the bytes at `BYTEPOS` decode to an operation, the step is the operation's meaning, on the state with the
turn taken from the events (log entry 3). The operation advances `BYTEPOS` itself. -/
def Obligations.StepRunsTheDecodedOperation : Prop :=
  ∀ (s : State) (vs : List Event) (i : Instr) (rest : List Byte), DecFetches s → DecTurn s vs →
    decode (s.dec.source.bytes.window (s.dec.base + s.dec.bytepos) 5) = .ok (i, rest) →
    step s = exec i { s with agenda := vs }

/-- R122: the run expander. The turn taken with no event left is log entry 3. -/
def Obligations.RunExpanderStep : Prop :=
  ∀ (s : State) (vs : List Event), (s.dec.phase = .bare ∨ s.dec.phase = .pixels) → s.dec.fault = none →
    s.dec.pixpos ≠ s.dec.n → s.dec.ctx.run ≠ 0 → DecTurn s vs →
    ∃ t, step s = .next t ∧ RepeatOp { s with agenda := vs } t 0 (s.dec.ctx.run.toNat - 1)

/-- R134, R179 (decision D10): `TruncatedStream`. `BYTEPOS` is left at the missing byte and `FAULT` records it; no pixel leaves.
The statement reads nothing of the context after the fault (U3: "no claim may read it"). The turn taken with no event left is
log entry 3. -/
def Obligations.TruncatedStep : Prop :=
  ∀ (s : State) (vs : List Event) (k : Nat), DecFetches s → DecTurn s vs → s.dec.source.ended = true →
    decode (s.dec.source.bytes.window (s.dec.base + s.dec.bytepos) 5) = .error (.truncated k) →
    ∃ t, step s = .next t ∧ t.dec.fault = some (.truncatedStream (s.dec.bytepos + k)) ∧
      faultCode t.dec.fault = 2 ∧ t.dec.bytepos = s.dec.bytepos + k ∧
      t.dec.source.bytes.read (t.dec.base + t.dec.bytepos) = none ∧
      t.dec.pixpos = s.dec.pixpos ∧ t.dec.out = s.dec.out ∧ t.dec.n = s.dec.n ∧ t.dec.ch = s.dec.ch ∧
      t.dec.source = s.dec.source ∧ t.dec.base = s.dec.base ∧ t.dec.phase = s.dec.phase ∧
      t.dec.header = s.dec.header ∧ t.enc = s.enc ∧ t.agenda = vs

/-- R187, R110 (decision D16), R203, R18: an agent that waits, has finished or is faulted has no step, and neither has a side whose
`decode` or `encode` has returned (R155, R156); that its turn then changes nothing is log entry 3. For `DEC`: a byte is missing of a
source that has not ended; on a bare core `PIXPOS = N`, whatever `RUN` holds (R133, D7), or `FAULT` is set. For `ENC`: the next pixel is
missing, inside `encode` too; on a bare core `PIXPOS = N`, or `FAULT` is set, or the sink has refused a byte (log entry 6). The wait for
a header and for the marker stand in `DecodeReadsHeader` and `EndMarkerVerdict`. -/
def Obligations.TurnWithoutAStep : Prop :=
  (∀ (s : State) (vs : List Event) (k : Nat), DecFetches s → s.agenda = .dec :: vs → s.dec.source.ended = false →
    decode (s.dec.source.bytes.window (s.dec.base + s.dec.bytepos) 5) = .error (.truncated k) →
    step s = .next { s with agenda := vs }) ∧
  (∀ (s : State) (vs : List Event), s.dec.phase = .bare → s.agenda = .dec :: vs →
    s.dec.pixpos = s.dec.n ∨ s.dec.fault ≠ none → step s = .next { s with agenda := vs }) ∧
  (∀ (s : State) (vs : List Event) (r : DecodeResult), s.dec.phase = .done r → s.agenda = .dec :: vs →
    step s = .next { s with agenda := vs }) ∧
  (∀ (s : State) (vs : List Event), s.enc.phase = .bare → s.agenda = .enc :: vs →
    s.enc.pixpos = s.enc.n ∨ s.enc.nextPixel = none ∨ s.enc.fault ≠ none ∨ s.enc.sink.failed = true →
    step s = .next { s with agenda := vs }) ∧
  (∀ (s : State) (vs : List Event), s.enc.phase = .pixels → s.agenda = .enc :: vs → s.enc.pixpos ≠ s.enc.n →
    s.enc.sink.failed = false → s.enc.nextPixel = none → step s = .next { s with agenda := vs }) ∧
  (∀ (s : State) (vs : List Event) (r : EncodeResult), s.enc.phase = .done r → s.agenda = .enc :: vs →
    step s = .next { s with agenda := vs })

/-- R180: the only way out of `FAULT != none` is a new stream start, which re-initialises the whole context: a step either leaves the
fault and the agent's counters and output as they are, or is a start of the agent (`StartsDec`, `StartsEnc`). -/
def Obligations.OnlyStreamStartClearsFault : Prop :=
  (∀ (s t : State) (e : ErrorKind), s.dec.fault = some e → step s = .next t →
    (t.dec.fault = some e ∧ t.dec.pixpos = s.dec.pixpos ∧ t.dec.bytepos = s.dec.bytepos ∧ t.dec.out = s.dec.out) ∨
    (StartsDec s t ∧ t.dec.fault = none ∧ t.dec.ctx = Context.init ∧ t.dec.pixpos = 0 ∧ t.dec.bytepos = 0 ∧
      t.dec.out = [])) ∧
  (∀ (s t : State) (e : ErrorKind), s.enc.fault = some e → step s = .next t →
    (t.enc.fault = some e ∧ t.enc.pixpos = s.enc.pixpos ∧ t.enc.outpos = s.enc.outpos) ∨
    (StartsEnc s t ∧ t.enc.fault = none ∧ t.enc.ctx = Context.init ∧ t.enc.pixpos = 0 ∧ t.enc.outpos = 0))

/-- R19: `N` and `CH` are sampled at stream start and constant until the next: a step that starts no stream of an agent leaves both of
that agent as they are. -/
def Obligations.StepKeepsConfiguration : Prop :=
  ∀ s t : State, step s = .next t →
    (¬ StartsDec s t → t.dec.n = s.dec.n ∧ t.dec.ch = s.dec.ch) ∧
    (¬ StartsEnc s t → t.enc.n = s.enc.n ∧ t.enc.ch = s.enc.ch)

/-- R155, R156, R18, R34: a call of `encode` or `decode` opens new streams and changes nothing of the core, whose context, counters,
`FAULT`, `N` and `CH` stay until the stream start behind the header (of a context that may be read, U3, R176). That the new streams hold nothing yet is log entry 4. -/
def Obligations.FileCallsLeaveTheCore : Prop :=
  (∀ (s : State) (vs : List Event), s.agenda = .host .decodeFile :: vs →
    ∃ t, step s = .next t ∧ (s.dec.fault = none → t.dec.ctx = s.dec.ctx) ∧ t.dec.pixpos = s.dec.pixpos ∧
      t.dec.bytepos = s.dec.bytepos ∧ t.dec.fault = s.dec.fault ∧ t.dec.n = s.dec.n ∧ t.dec.ch = s.dec.ch ∧ t.dec.phase = .magic ∧
      t.dec.source = ⟨[], false⟩ ∧ t.dec.returned = none ∧ t.enc = s.enc ∧ t.agenda = vs) ∧
  (∀ (s : State) (h : Header) (vs : List Event), s.agenda = .host (.encodeFile h) :: vs →
    ∃ t, step s = .next t ∧ (s.enc.Readable → t.enc.ctx = s.enc.ctx) ∧ t.enc.pixpos = s.enc.pixpos ∧ t.enc.outpos = s.enc.outpos ∧
      t.enc.fault = s.enc.fault ∧ t.enc.n = s.enc.n ∧ t.enc.ch = s.enc.ch ∧ t.enc.phase = .header ∧ t.enc.header = h ∧
      t.enc.pixels = [] ∧ t.enc.sink = ⟨[], none, false⟩ ∧ t.dec = s.dec ∧ t.agenda = vs)

/-- The machine stops only when no event is left and neither side has a step (log entry 3), and refuses only what the host asks
against R7, R159 (D8) and R204 (log entries 9, 10). -/
def Obligations.StopsOnlyWithoutAStep : Prop :=
  ∀ s : State,
    (∀ f, step s = .fault f → s.agenda = [] ∧ ∃ d e, decMove s = .error d ∧ s.enc.move = .error e ∧ f = .noStep d e) ∧
    (∀ r, step s = .refused r → ∃ vs,
      (∃ n c, (s.agenda = .host (.startEnc n c) :: vs ∨ s.agenda = .host (.startDec n c) :: vs) ∧ c ≠ 3 ∧ c ≠ 4 ∧
        r = .unsupportedChannelCount c) ∨
      (∃ b, s.agenda = .host (.deliverByte b) :: vs ∧ s.dec.source.ended = true ∧ r = .byteAfterEnd))

/-! ### Stream start and reset (spec/70_reset_and_hazards.md) -/

/-- R191 and R23 (decisions D4, D5, D10), R190 (log entry 5): a stream start and a hardware reset of `DEC` give the values of R23 and
touch nothing of `ENC`; the reset keeps `N` and `CH`. A stream start with another channel count is refused (D8, log entry 9). -/
def Obligations.DecoderStreamStart : Prop :=
  (∀ (s : State) (n : Nat) (c : Byte) (vs : List Event), s.agenda = .host (.startDec n c) :: vs → c = 3 ∨ c = 4 →
    ∃ t, step s = .next t ∧ (∀ i, t.dec.ctx.lookup i = ⟨0, 0, 0, 0⟩) ∧ t.dec.ctx.prev = ⟨0, 0, 0, 255⟩ ∧
      t.dec.ctx.run = 0 ∧ t.dec.pixpos = 0 ∧ t.dec.bytepos = 0 ∧ t.dec.fault = none ∧ t.dec.n = n ∧
      t.dec.ch = (if c = 3 then .three else .four) ∧ t.dec.out = [] ∧ t.enc = s.enc ∧ t.agenda = vs) ∧
  (∀ (s : State) (n : Nat) (c : Byte) (vs : List Event), s.agenda = .host (.startDec n c) :: vs → c ≠ 3 → c ≠ 4 →
    step s = .refused (.unsupportedChannelCount c)) ∧
  (∀ (s : State) (vs : List Event), s.agenda = .host .resetDec :: vs →
    ∃ t, step s = .next t ∧ (∀ i, t.dec.ctx.lookup i = ⟨0, 0, 0, 0⟩) ∧ t.dec.ctx.prev = ⟨0, 0, 0, 255⟩ ∧
      t.dec.ctx.run = 0 ∧ t.dec.pixpos = 0 ∧ t.dec.bytepos = 0 ∧ t.dec.fault = none ∧ t.dec.n = s.dec.n ∧
      t.dec.ch = s.dec.ch ∧ t.enc = s.enc ∧ t.agenda = vs)

/-- The same for `ENC`. -/
def Obligations.EncoderStreamStart : Prop :=
  (∀ (s : State) (n : Nat) (c : Byte) (vs : List Event), s.agenda = .host (.startEnc n c) :: vs → c = 3 ∨ c = 4 →
    ∃ t, step s = .next t ∧ (∀ i, t.enc.ctx.lookup i = ⟨0, 0, 0, 0⟩) ∧ t.enc.ctx.prev = ⟨0, 0, 0, 255⟩ ∧
      t.enc.ctx.run = 0 ∧ t.enc.pixpos = 0 ∧ t.enc.outpos = 0 ∧ t.enc.fault = none ∧ t.enc.n = n ∧
      t.enc.ch = (if c = 3 then .three else .four) ∧ t.dec = s.dec ∧ t.agenda = vs) ∧
  (∀ (s : State) (n : Nat) (c : Byte) (vs : List Event), s.agenda = .host (.startEnc n c) :: vs → c ≠ 3 → c ≠ 4 →
    step s = .refused (.unsupportedChannelCount c)) ∧
  (∀ (s : State) (vs : List Event), s.agenda = .host .resetEnc :: vs →
    ∃ t, step s = .next t ∧ (∀ i, t.enc.ctx.lookup i = ⟨0, 0, 0, 0⟩) ∧ t.enc.ctx.prev = ⟨0, 0, 0, 255⟩ ∧
      t.enc.ctx.run = 0 ∧ t.enc.pixpos = 0 ∧ t.enc.outpos = 0 ∧ t.enc.fault = none ∧ t.enc.n = s.enc.n ∧
      t.enc.ch = s.enc.ch ∧ t.dec = s.dec ∧ t.agenda = vs)

/-! ### The encoder's step (spec/41_encoder.md) -/

/-- R92, R93: the run-state FSM on a pixel that equals `PREV`: no byte while the run grows, `0xFD` at the 62nd, the run's byte at the
last pixel. The cache is not touched, `PREV` keeps its value. -/
def Obligations.RunExtension : Prop :=
  ∀ (e : Encoder) (p : Pixel), EncReady e p → p = e.ctx.prev →
    ∃ e' bs, e.move = .ok e' ∧ EncEmits e e' bs ∧ (∀ i, e'.ctx.lookup i = e.ctx.lookup i) ∧ e'.ctx.prev = e.ctx.prev ∧
      (e.ctx.run.toNat ≤ 60 → e.pixpos + 1 ≠ e.n → bs = [] ∧ e'.ctx.run.toNat = e.ctx.run.toNat + 1) ∧
      (e.ctx.run.toNat = 61 → bs = [0xFD] ∧ e'.ctx.run = 0) ∧
      (e.ctx.run.toNat ≤ 60 → e.pixpos + 1 = e.n →
        bs = [0xC0 ||| BitVec.ofNat 8 e.ctx.run.toNat] ∧ e'.ctx.run = 0)

/-- R94, R101, R102 and the rows `P != PREV` of R92: the pending run's byte comes first, then the selected operation's bytes; the cache is written once, for `P`;
`RUN` is 0 and `PREV` is `P` afterwards. -/
def Obligations.NonRunEmission : Prop :=
  ∀ (e : Encoder) (p : Pixel), EncReady e p → p ≠ e.ctx.prev →
    ∃ e', e.move = .ok e' ∧
      EncEmits e e' ((if e.ctx.run = 0 then [] else [0xC0 ||| BitVec.ofNat 8 (e.ctx.run.toNat - 1)]) ++
        encode (selectOp e.ctx p)) ∧
      e'.ctx.run = 0 ∧ e'.ctx.prev = p ∧ e'.ctx.lookup (slotHash p) = p ∧
      ∀ i, i ≠ slotHash p → e'.ctx.lookup i = e.ctx.lookup i

/-- R95 to R100: the operation selected, by its bytes, in priority order. -/
def Obligations.SelectorPriority : Prop :=
  ∀ (c : Context) (p : Pixel),
    let v := delta p c.prev
    encode (selectOp c p) =
      if c.lookup (slotHash p) = p then [BitVec.ofNat 8 (slotHash p).val]
      else if p.a = c.prev.a ∧ (-2 ≤ v.1 ∧ v.1 ≤ 1) ∧ (-2 ≤ v.2.1 ∧ v.2.1 ≤ 1) ∧ (-2 ≤ v.2.2 ∧ v.2.2 ≤ 1) then
        [diffPack v.1 v.2.1 v.2.2]
      else if p.a = c.prev.a ∧ (-32 ≤ v.2.1 ∧ v.2.1 ≤ 31) ∧ (-8 ≤ v.1 - v.2.1 ∧ v.1 - v.2.1 ≤ 7) ∧
          (-8 ≤ v.2.2 - v.2.1 ∧ v.2.2 - v.2.1 ≤ 7) then
        [(lumaPack v.1 v.2.1 v.2.2).1, (lumaPack v.1 v.2.1 v.2.2).2]
      else if p.a = c.prev.a then [0xFE, p.r, p.g, p.b]
      else [0xFF, p.r, p.g, p.b, p.a]

/-- R109 (which the spec derives): what a pixel that differs from `PREV` is never emitted as; and every operation selected is well
formed. -/
def Obligations.NeverEmitted : Prop :=
  ∀ (c : Context) (p : Pixel), (selectOp c p).wf = true ∧
    (p ≠ c.prev →
      selectOp c p ≠ .diff 0 0 0 ∧ (∀ n, selectOp c p ≠ .run n) ∧
      (∀ dg drg dbg, selectOp c p = .luma dg drg dbg → diffFits (delta p c.prev) = false) ∧
      (∀ r g b, selectOp c p = .rgb r g b → lumaFits (delta p c.prev) = false) ∧
      (∀ r g b a, selectOp c p = .rgba r g b a → a ≠ c.prev.a) ∧
      (∀ s, selectOp c p = .index s → s = slotHash (c.lookup s)) ∧
      (c.lookup (slotHash p) = p → selectOp c p = .index (slotHash p)))

/-- R106 (which the spec derives): the bytes one step can emit. -/
def Obligations.BytesPerStep : Prop :=
  ∀ (last : Bool) (c : Context) (p : Pixel),
    let k := (encodeAll (encodePixel last c p).2).length
    (p = c.prev → k ∈ [0, 1]) ∧ (p ≠ c.prev → c.run = 0 → k ∈ [1, 2, 4, 5]) ∧
    (p ≠ c.prev → c.run ≠ 0 → k ∈ [2, 3, 5, 6])

/-- R103: with `CH = 3` the alpha is 255 and what the alpha lanes carry is ignored: two sources with the same colours drive the
encode side alike. -/
def Obligations.AlphaLanesIgnored : Prop :=
  (∀ (e : Encoder) (p : Pixel), e.ch = .three → e.nextPixel = some p → p.a = 255) ∧
  ∀ (e : Encoder) (ps qs : List Pixel), e.ch = .three → sameColours ps qs →
    ({ e with pixels := ps }.move).map (fun x : Encoder => { x with pixels := [] }) =
      ({ e with pixels := qs }.move).map (fun x : Encoder => { x with pixels := [] })

/-- R155, R176 (decision D17, log entry 6): a byte the sink refuses fails `encode`: the bytes before it have left, no later one does, and
`encode` returns `SinkFailure`. Of a pixel's step, of the header (in whose move the stream is then not started), of the end marker. The
grain of the moves is log entry 14, the magic's bytes log entry 13. -/
def Obligations.SinkFailureEndsEncode : Prop :=
  (∀ (e : Encoder) (p : Pixel) (j : Nat), e.phase = .pixels → e.fault = none → e.pixpos ≠ e.n → e.sink.failed = false →
    e.nextPixel = some p → j < (encodeAll (encodePixel e.last e.ctx p).2).length →
    (∀ k, k < j → e.sink.refuses (e.base + e.outpos + k) = false) → e.sink.refuses (e.base + e.outpos + j) = true →
    ∃ e1 e2, e.move = .ok e1 ∧ e1.move = .ok e2 ∧ e2.phase = .done (.failed .sinkFailure) ∧
      (∀ k, k < j → e2.sink.bytes.read (e.base + e.outpos + k) = (encodeAll (encodePixel e.last e.ctx p).2)[k]?) ∧
      (∀ a, e.base + e.outpos + j ≤ a → e2.sink.bytes.read a = e.sink.bytes.read a)) ∧
  (∀ (e : Encoder) (j : Nat), e.phase = .header → e.header.channels = 3 ∨ e.header.channels = 4 → e.sink.failed = false →
    j < 14 → (∀ k, k < j → e.sink.refuses k = false) → e.sink.refuses j = true →
    ∃ e1, e.move = .ok e1 ∧ e1.phase = .done (.failed .sinkFailure) ∧
      (∀ k, k < j → e1.sink.bytes.read k = (headerBytes e.header)[k]?) ∧
      (∀ a, j ≤ a → e1.sink.bytes.read a = e.sink.bytes.read a) ∧
      e1.pixpos = e.pixpos ∧ e1.outpos = e.outpos ∧ e1.fault = e.fault ∧ e1.n = e.n ∧ e1.ch = e.ch) ∧
  (∀ (e : Encoder) (j : Nat), e.phase = .pixels → e.pixpos = e.n → e.sink.failed = false →
    j < 8 → (∀ k, k < j → e.sink.refuses (e.base + e.outpos + k) = false) →
    e.sink.refuses (e.base + e.outpos + j) = true →
    ∃ e1, e.move = .ok e1 ∧ e1.phase = .done (.failed .sinkFailure) ∧
      (∀ k, k < j → e1.sink.bytes.read (e.base + e.outpos + k) = ([0, 0, 0, 0, 0, 0, 0, 1] : List Byte)[k]?) ∧
      (∀ a, e.base + e.outpos + j ≤ a → e1.sink.bytes.read a = e.sink.bytes.read a))

/-! ### Invariants every step keeps -/

/-- The byte memories keep their canonical form (the model's own representation, log entry 2). -/
def Obligations.StepKeepsMemoriesCanonical : Prop :=
  ∀ s t : State, MemoriesCanonical s → step s = .next t → MemoriesCanonical t

/-- R35 (b) (which the spec derives), for both agents. -/
def Obligations.StepKeepsCacheInvariant : Prop :=
  ∀ s t : State, CachesInv s → step s = .next t → CachesInv t

/-- R107 (a), (b), (d), (e) (which the spec derives), where the context may be read: in a stream whose sink has refused
nothing (R176). -/
def Obligations.StepKeepsEncoderHistory : Prop :=
  ∀ s t : State, (s.enc.Readable → EncHistory s.enc) → step s = .next t → (t.enc.Readable → EncHistory t.enc)

/-- R104, R106, R107 (a) (which the spec derives): `RUN = 0` at the end, at most `5*N` and at least `N/62` bytes,
in a stream whose sink has refused nothing (R176). -/
def Obligations.StepKeepsEncoderCounts : Prop :=
  ∀ s t : State, (s.enc.Readable → EncCounts s.enc) → step s = .next t → (t.enc.Readable → EncCounts t.enc)

/-- R14, R133: `RUN` of `DEC` is 0..61 for every byte stream; one pixel is delivered a step and never more than `N`. -/
def Obligations.StepKeepsDecoderCounts : Prop :=
  ∀ s t : State, DecCounts s.dec → step s = .next t → DecCounts t.dec

/-- R110, R170, R179: the one error of the core is `TruncatedStream` of `DEC`, recorded at the missing byte (the spec's decision D10).
That `FAULT` of `ENC` stays `none` also when `encode` fails is the model's choice, log entry 19. -/
def Obligations.StepKeepsFaultRecord : Prop :=
  ∀ s t : State, FaultsInv s → step s = .next t → FaultsInv t

/-- R42, R90: every byte emitted stands in the sink, and no step that does not give the encode side a new sink changes it. -/
def Obligations.StepKeepsEmittedBytes : Prop :=
  ∀ s t : State, EmittedBytesStand s → step s = .next t → EmittedBytesStand t ∧
    ((∀ v vs, s.agenda = v :: vs → restartsEnc v = false) → s.enc.phase ≠ .header →
      s.enc.outpos ≤ t.enc.outpos ∧
      ∀ k, k < s.enc.outpos → t.enc.sink.bytes.read (t.enc.base + k) = s.enc.sink.bytes.read (s.enc.base + k))

/-- R46, R131: a step that starts no new decoder stream and gives the decode side no new source takes back no delivered pixel and alters no delivered byte. -/
def Obligations.StepKeepsDeliveredPixels : Prop :=
  ∀ s t : State, s.dec.source.bytes.wf → step s = .next t → (∀ v vs, s.agenda = v :: vs → restartsDec v = false) →
    s.dec.phase ≠ .fields →
    (∃ ps, t.dec.out = s.dec.out ++ ps ∧ ps.length ≤ 1) ∧
    ∀ a b, s.dec.source.bytes.read a = some b → t.dec.source.bytes.read a = some b

/-- Every invariant holds at reset, which is the state of R23 and R190. -/
def Obligations.ResetMeetsInvariants : Prop :=
  MemoriesCanonical State.reset ∧ CachesInv State.reset ∧ EncHistory State.reset.enc ∧ EncCounts State.reset.enc ∧
  DecCounts State.reset.dec ∧ FaultsInv State.reset ∧ EmittedBytesStand State.reset ∧
  State.reset.dec.ctx = State.reset.enc.ctx ∧ State.reset.dec.ctx.prev = ⟨0, 0, 0, 255⟩ ∧
  State.reset.dec.ctx.run = 0 ∧ (∀ i, State.reset.dec.ctx.lookup i = ⟨0, 0, 0, 0⟩) ∧
  State.reset.dec.bytepos = 0 ∧ State.reset.dec.pixpos = 0 ∧ State.reset.enc.outpos = 0 ∧ State.reset.enc.pixpos = 0 ∧
  State.reset.dec.fault = none ∧ State.reset.enc.fault = none

/-! ### Independence and delay -/

/-- R8, R10, R185: the two agents share nothing: a turn of one leaves the other side as it is and does not depend on it. -/
def Obligations.AgentsShareNothing : Prop :=
  (∀ s t : State, ∀ e : Encoder, step { s with agenda := [.dec] } = .next t →
    t.enc = s.enc ∧ step { s with enc := e, agenda := [.dec] } = .next { t with enc := e }) ∧
  (∀ s t : State, ∀ d : Decoder, step { s with agenda := [.enc] } = .next t →
    t.dec = s.dec ∧ step { s with dec := d, agenda := [.enc] } = .next { t with dec := d })

/-- R8: turns of the two agents commute, so how they interleave (log entry 3) is not observable. -/
def Obligations.TurnsCommute : Prop :=
  ∀ s : State, ∃ t, runEvents [.dec, .enc] s = .next t ∧ runEvents [.enc, .dec] s = .next t

/-- R204 (which the spec derives): a delay of the host changes no value an agent computes: a move that an agent has already is the
same move when the next byte or pixel arrives before it. -/
def Obligations.DelayChangesNothing : Prop :=
  (∀ (s : State) (b : Byte) (o : Host.Outcome State Fault Refusal), s.dec.source.bytes.wf → s.dec.source.ended = false →
    decMove s = .ok o →
    runEvents [.dec, .host (.deliverByte b)] s = runEvents [.host (.deliverByte b), .dec] s) ∧
  (∀ (s : State) (p : Pixel) (e : Encoder), s.enc.move = .ok e →
    runEvents [.enc, .host (.deliverPixel p)] s = runEvents [.host (.deliverPixel p), .enc] s)

/-! ### The wrapper (spec/43_container.md) -/

/-- R151: the header's layout, and reading it back. -/
def Obligations.HeaderLayout : Prop :=
  ∀ h : Header,
    headerBytes h =
      [0x71, 0x6F, 0x69, 0x66,
       h.width.extractLsb 31 24, h.width.extractLsb 23 16, h.width.extractLsb 15 8, h.width.extractLsb 7 0,
       h.height.extractLsb 31 24, h.height.extractLsb 23 16, h.height.extractLsb 15 8, h.height.extractLsb 7 0,
       h.channels, h.colorspace] ∧
    headerFields ((headerBytes h).drop 4) = some h

/-- R156, R171, R178 (decision D23), R175 (D8), R153, R172: the header of `decode`. A wrong magic ends it with `InvalidMagic`; after the
magic, the ten bytes of a header with 3 or 4 channels start `DEC` on `N = width * height` at the byte behind the header; another channel
count ends it; a header cut short by the end of its source ends it with `TruncatedStream` (what that records is log entry 11 and is not
stated), and is waited for before (decision D16; that the turn then changes nothing is log entry 3, and so is the turn taken with no
event left). A failure has no pixels. The magic's bytes are log entry 13 (G1); that the magic is read in one step
and the other fields with the stream start in another is log entry 14. -/
def Obligations.DecodeReadsHeader : Prop :=
  (∀ (s : State) (vs : List Event) (got : List Byte), s.dec.phase = .magic → DecTurn s vs →
    s.dec.source.bytes.window 0 4 = got → got.length = 4 →
    ∃ t, step s = .next t ∧ t.enc = s.enc ∧ t.dec.source = s.dec.source ∧
      (got = [0x71, 0x6F, 0x69, 0x66] → t.dec.phase = .fields) ∧
      (got ≠ [0x71, 0x6F, 0x69, 0x66] → t.dec.returned = some (none, some .invalidMagic) ∧ t.dec.fault = s.dec.fault)) ∧
  (∀ (s : State) (vs : List Event) (h : Header), s.dec.phase = .fields → DecTurn s vs →
    s.dec.source.bytes.window 4 10 = (headerBytes h).drop 4 →
    ∃ t, step s = .next t ∧ t.enc = s.enc ∧ t.dec.source = s.dec.source ∧ t.dec.header = h ∧
      (h.channels = 3 ∨ h.channels = 4 →
        t.dec.phase = .pixels ∧ t.dec.base = 14 ∧ t.dec.bytepos = 0 ∧ t.dec.pixpos = 0 ∧ t.dec.fault = none ∧
        t.dec.ctx = Context.init ∧ t.dec.out = [] ∧ t.dec.n = h.width.toNat * h.height.toNat ∧
        t.dec.ch = (if h.channels = 3 then .three else .four)) ∧
      (h.channels ≠ 3 → h.channels ≠ 4 →
        t.dec.returned = some (none, some (.unsupportedChannelCount h.channels)) ∧ t.dec.fault = s.dec.fault)) ∧
  (∀ (s : State) (vs : List Event), DecTurn s vs → s.dec.source.ended = true →
    (s.dec.phase = .magic ∧ (s.dec.source.bytes.window 0 4).length < 4) ∨
      (s.dec.phase = .fields ∧ (s.dec.source.bytes.window 4 10).length < 10) →
    ∃ t k, step s = .next t ∧ t.dec.returned = some (none, some (.truncatedStream k)) ∧ t.enc = s.enc ∧
      t.dec.source = s.dec.source ∧ t.dec.fault = s.dec.fault) ∧
  (∀ (s : State) (vs : List Event), s.agenda = .dec :: vs → s.dec.source.ended = false →
    (s.dec.phase = .magic ∧ (s.dec.source.bytes.window 0 4).length < 4) ∨
      (s.dec.phase = .fields ∧ (s.dec.source.bytes.window 4 10).length < 10) →
    step s = .next { s with agenda := vs })

/-- R173, R156, R157 (decisions D15, D20): the end marker, behind the `N`-th pixel. Eight bytes that are the marker: success. A byte
that differs, however few are there: `InvalidEndMarker` at once ("stop reading"). Too few, all agreeing: `InvalidEndMarker` when the
source has ended, else a wait. The decoded pixels are returned with either verdict, which one move gives (log entry 14). That
the turn of the wait (decision D16) changes nothing, and the turn taken with no event left, are log entry 3. -/
def Obligations.EndMarkerVerdict : Prop :=
  ∀ (s : State) (vs : List Event) (got : List Byte), s.dec.phase = .pixels → s.dec.fault = none → s.dec.pixpos = s.dec.n →
    s.dec.source.bytes.window (s.dec.base + s.dec.bytepos) 8 = got →
    (DecTurn s vs → got = [0, 0, 0, 0, 0, 0, 0, 1] →
      ∃ t, step s = .next t ∧ t.dec.returned = some (some (s.dec.header, s.dec.out), none) ∧ t.dec.ctx = s.dec.ctx) ∧
    (DecTurn s vs →
      (∃ k, k < got.length ∧ got[k]? ≠ ([0, 0, 0, 0, 0, 0, 0, 1] : List Byte)[k]?) ∨
        (got.length < 8 ∧ s.dec.source.ended = true) →
      ∃ t, step s = .next t ∧ t.dec.returned = some (some (s.dec.header, s.dec.out), some .invalidEndMarker) ∧
        t.dec.ctx = s.dec.ctx) ∧
    (s.agenda = .dec :: vs → got.length < 8 → (∀ k, k < got.length → got[k]? = ([0, 0, 0, 0, 0, 0, 0, 1] : List Byte)[k]?) →
      s.dec.source.ended = false → step s = .next { s with agenda := vs })

/-- R156 "on TruncatedStream: fail TruncatedStream", R158 (decisions D10, D20): after a fault of the core the next turn ends `decode` with
that error and no pixels (the grain of the moves is log entry 14, the turn taken with no event left log entry 3). -/
def Obligations.FaultFailsDecode : Prop :=
  ∀ (s : State) (vs : List Event) (e : ErrorKind), s.dec.phase = .pixels → s.dec.fault = some e → DecTurn s vs →
    ∃ t, step s = .next t ∧ t.dec.returned = some (none, some e) ∧ t.dec.fault = some e ∧ t.enc = s.enc ∧ t.agenda = vs

/-- R155: `encode` refuses another channel count before anything is written (D8); otherwise the header's bytes are written first and
`ENC` starts on `N = width * height`; after the last pixel the marker follows the last operation byte and `encode` succeeds. The
magic's bytes are log entry 13 (G1), the grain of the moves is log entry 14. -/
def Obligations.EncodeWritesHeaderAndMarker : Prop :=
  (∀ e : Encoder, e.phase = .header → e.header.channels ≠ 3 → e.header.channels ≠ 4 →
    ∃ e', e.move = .ok e' ∧ e'.phase = .done (.failed (.unsupportedChannelCount e.header.channels)) ∧ e'.sink = e.sink) ∧
  (∀ e : Encoder, e.phase = .header → e.header.channels = 3 ∨ e.header.channels = 4 → e.sink.failed = false →
    (∀ k, k < 14 → e.sink.refuses k = false) →
    ∃ e', e.move = .ok e' ∧ e'.phase = .pixels ∧ e'.sink.failed = false ∧ e'.base = 14 ∧ e'.outpos = 0 ∧ e'.pixpos = 0 ∧
      e'.ctx = Context.init ∧ e'.fault = none ∧ e'.pixels = e.pixels ∧
      e'.n = e.header.width.toNat * e.header.height.toNat ∧ e'.ch = (if e.header.channels = 3 then .three else .four) ∧
      (∀ k, k < 14 → e'.sink.bytes.read k = (headerBytes e.header)[k]?) ∧
      (∀ a, 14 ≤ a → e'.sink.bytes.read a = e.sink.bytes.read a)) ∧
  (∀ e : Encoder, e.phase = .pixels → e.pixpos = e.n → e.sink.failed = false →
    (∀ k, k < 8 → e.sink.refuses (e.base + e.outpos + k) = false) →
    ∃ e', e.move = .ok e' ∧ e'.phase = .done .success ∧
      (∀ k, k < 8 → e'.sink.bytes.read (e.base + e.outpos + k) = ([0, 0, 0, 0, 0, 0, 0, 1] : List Byte)[k]?) ∧
      (∀ a, a < e.base + e.outpos → e'.sink.bytes.read a = e.sink.bytes.read a))

/-! ### Round trips -/

/-- R35 (d) and R136 for the core (which the spec derives): `DEC` fed the bytes `ENC` produced for a pixel sequence has, after `k`
pixels, produced the first `k` of them and holds the encoder's cache and `PREV` of that moment; at the end it has consumed
exactly those bytes, and both runs are over with `RUN = 0` and no fault. Runs are lists of events (log entry 3), and a start opens
empty streams (log entry 4). -/
def Obligations.CoreRoundTrip : Prop :=
  ∀ (s : State) (c : Byte) (ch : ChannelCount) (ps : List Pixel), channelCount c = some ch →
    ∃ e, runEvents (encoderRun c ps ps.length) s = .next e ∧
      e.enc.pixpos = ps.length ∧ e.enc.ctx.run = 0 ∧ e.enc.outpos = e.enc.sink.contents.length ∧
      ∀ k, k ≤ ps.length →
        ∃ ek dk, runEvents (encoderRun c ps k) s = .next ek ∧
          runEvents (decoderRun c ps.length e.enc.sink.contents k) s = .next dk ∧
          dk.dec.out = (ps.take k).map (fun p => outPixel ch (sourcePixel ch p)) ∧
          dk.dec.ctx.cache = ek.enc.ctx.cache ∧ dk.dec.ctx.prev = ek.enc.ctx.prev ∧
          dk.dec.pixpos = k ∧ dk.dec.fault = none ∧
          (k = ps.length → dk.dec.bytepos = e.enc.outpos ∧ dk.dec.ctx = e.enc.ctx)

/-- R136: "for any pixel buffer P with channels ∈ {3,4} and colorspace ∈ {0,1}, decode(encode(P)) == P exactly, including alpha
defaulted to 255 when channels=3": the file `encode` writes is decoded to its header and pixels, with success. The
numbers of turns given, two more than the pixels and three more, rest on the grain of the wrapper's moves (log entry 14); runs are
lists of events (log entry 3), and a call opens empty streams (log entry 4). -/
def Obligations.FileRoundTrip : Prop :=
  ∀ (s : State) (h : Header) (ch : ChannelCount) (ps : List Pixel), channelCount h.channels = some ch →
    ps.length = h.width.toNat * h.height.toNat →
    ∃ e, runEvents (encodeRun h ps) s = .next e ∧ e.enc.phase = .done .success ∧
      ∃ d, runEvents (decodeRun ps.length e.enc.sink.contents) s = .next d ∧
        d.dec.returned = some (some (h, ps.map fun p => outPixel ch (sourcePixel ch p)), none)
end

