-- ==== Sys2Proof/Laws/State.lean ====
section
/-! SUPPORT. One lemma per field per update of the state, true by unfolding: no later proof unfolds a record update. -/

namespace Sys2Proof.Machine

/-! ### The context -/

@[simp] theorem Context.store_prev (c : Context) (i : Slot) (p : Pixel) : (c.store i p).prev = c.prev := rfl
@[simp] theorem Context.store_run (c : Context) (i : Slot) (p : Pixel) : (c.store i p).run = c.run := rfl
@[simp] theorem Context.remember_prev (c : Context) (p : Pixel) : (c.remember p).prev = c.prev := rfl
@[simp] theorem Context.remember_run (c : Context) (p : Pixel) : (c.remember p).run = c.run := rfl
@[simp] theorem Context.init_prev : Context.init.prev = Config.prevInit := rfl
@[simp] theorem Context.init_run : Context.init.run = 0 := rfl

/-! ### The whole state -/

@[simp] theorem State.withDec_dec (s : State) (d : Decoder) : (s.withDec d).dec = d := rfl
@[simp] theorem State.withDec_enc (s : State) (d : Decoder) : (s.withDec d).enc = s.enc := rfl
@[simp] theorem State.withDec_agenda (s : State) (d : Decoder) : (s.withDec d).agenda = s.agenda := rfl

/-! ### `BYTEPOS` past an operation -/

@[simp] theorem Decoder.advance_ctx (d : Decoder) (k : Nat) : (d.advance k).ctx = d.ctx := rfl
@[simp] theorem Decoder.advance_pixpos (d : Decoder) (k : Nat) : (d.advance k).pixpos = d.pixpos := rfl
@[simp] theorem Decoder.advance_bytepos (d : Decoder) (k : Nat) : (d.advance k).bytepos = d.bytepos + k := rfl
@[simp] theorem Decoder.advance_fault (d : Decoder) (k : Nat) : (d.advance k).fault = d.fault := rfl
@[simp] theorem Decoder.advance_n (d : Decoder) (k : Nat) : (d.advance k).n = d.n := rfl
@[simp] theorem Decoder.advance_ch (d : Decoder) (k : Nat) : (d.advance k).ch = d.ch := rfl
@[simp] theorem Decoder.advance_out (d : Decoder) (k : Nat) : (d.advance k).out = d.out := rfl
@[simp] theorem Decoder.advance_source (d : Decoder) (k : Nat) : (d.advance k).source = d.source := rfl
@[simp] theorem Decoder.advance_base (d : Decoder) (k : Nat) : (d.advance k).base = d.base := rfl
@[simp] theorem Decoder.advance_phase (d : Decoder) (k : Nat) : (d.advance k).phase = d.phase := rfl
@[simp] theorem Decoder.advance_header (d : Decoder) (k : Nat) : (d.advance k).header = d.header := rfl

/-! ### The pixel produced -/

@[simp] theorem Decoder.produce_ctx (d : Decoder) (p : Pixel) : (d.produce p).ctx = { d.ctx with prev := p } := rfl
@[simp] theorem Decoder.produce_pixpos (d : Decoder) (p : Pixel) : (d.produce p).pixpos = d.pixpos + 1 := rfl
@[simp] theorem Decoder.produce_bytepos (d : Decoder) (p : Pixel) : (d.produce p).bytepos = d.bytepos := rfl
@[simp] theorem Decoder.produce_fault (d : Decoder) (p : Pixel) : (d.produce p).fault = d.fault := rfl
@[simp] theorem Decoder.produce_n (d : Decoder) (p : Pixel) : (d.produce p).n = d.n := rfl
@[simp] theorem Decoder.produce_ch (d : Decoder) (p : Pixel) : (d.produce p).ch = d.ch := rfl
@[simp] theorem Decoder.produce_out (d : Decoder) (p : Pixel) : (d.produce p).out = d.out ++ [outPixel d.ch p] := rfl
@[simp] theorem Decoder.produce_source (d : Decoder) (p : Pixel) : (d.produce p).source = d.source := rfl
@[simp] theorem Decoder.produce_base (d : Decoder) (p : Pixel) : (d.produce p).base = d.base := rfl
@[simp] theorem Decoder.produce_phase (d : Decoder) (p : Pixel) : (d.produce p).phase = d.phase := rfl
@[simp] theorem Decoder.produce_header (d : Decoder) (p : Pixel) : (d.produce p).header = d.header := rfl

/-! ### The tail of a non-run operation -/

@[simp] theorem Decoder.storeAndProduce_ctx (d : Decoder) (p : Pixel) : (d.storeAndProduce p).ctx = { d.ctx.remember p with prev := p } := rfl
@[simp] theorem Decoder.storeAndProduce_pixpos (d : Decoder) (p : Pixel) : (d.storeAndProduce p).pixpos = d.pixpos + 1 := rfl
@[simp] theorem Decoder.storeAndProduce_bytepos (d : Decoder) (p : Pixel) : (d.storeAndProduce p).bytepos = d.bytepos := rfl
@[simp] theorem Decoder.storeAndProduce_fault (d : Decoder) (p : Pixel) : (d.storeAndProduce p).fault = d.fault := rfl
@[simp] theorem Decoder.storeAndProduce_n (d : Decoder) (p : Pixel) : (d.storeAndProduce p).n = d.n := rfl
@[simp] theorem Decoder.storeAndProduce_ch (d : Decoder) (p : Pixel) : (d.storeAndProduce p).ch = d.ch := rfl
@[simp] theorem Decoder.storeAndProduce_out (d : Decoder) (p : Pixel) : (d.storeAndProduce p).out = d.out ++ [outPixel d.ch p] := rfl
@[simp] theorem Decoder.storeAndProduce_source (d : Decoder) (p : Pixel) : (d.storeAndProduce p).source = d.source := rfl
@[simp] theorem Decoder.storeAndProduce_base (d : Decoder) (p : Pixel) : (d.storeAndProduce p).base = d.base := rfl
@[simp] theorem Decoder.storeAndProduce_phase (d : Decoder) (p : Pixel) : (d.storeAndProduce p).phase = d.phase := rfl
@[simp] theorem Decoder.storeAndProduce_header (d : Decoder) (p : Pixel) : (d.storeAndProduce p).header = d.header := rfl

/-! ### The run expander -/

@[simp] theorem Decoder.expandRun_ctx (d : Decoder) : (d.expandRun).ctx = { d.ctx with run := d.ctx.run - 1 } := rfl
@[simp] theorem Decoder.expandRun_pixpos (d : Decoder) : (d.expandRun).pixpos = d.pixpos + 1 := rfl
@[simp] theorem Decoder.expandRun_bytepos (d : Decoder) : (d.expandRun).bytepos = d.bytepos := rfl
@[simp] theorem Decoder.expandRun_fault (d : Decoder) : (d.expandRun).fault = d.fault := rfl
@[simp] theorem Decoder.expandRun_n (d : Decoder) : (d.expandRun).n = d.n := rfl
@[simp] theorem Decoder.expandRun_ch (d : Decoder) : (d.expandRun).ch = d.ch := rfl
@[simp] theorem Decoder.expandRun_out (d : Decoder) : (d.expandRun).out = d.out ++ [outPixel d.ch d.ctx.prev] := rfl
@[simp] theorem Decoder.expandRun_source (d : Decoder) : (d.expandRun).source = d.source := rfl
@[simp] theorem Decoder.expandRun_base (d : Decoder) : (d.expandRun).base = d.base := rfl
@[simp] theorem Decoder.expandRun_phase (d : Decoder) : (d.expandRun).phase = d.phase := rfl
@[simp] theorem Decoder.expandRun_header (d : Decoder) : (d.expandRun).header = d.header := rfl

/-! ### The error of the core -/

@[simp] theorem Decoder.raiseTruncated_ctx (d : Decoder) (k : Nat) : (d.raiseTruncated k).ctx = d.ctx := rfl
@[simp] theorem Decoder.raiseTruncated_pixpos (d : Decoder) (k : Nat) : (d.raiseTruncated k).pixpos = d.pixpos := rfl
@[simp] theorem Decoder.raiseTruncated_bytepos (d : Decoder) (k : Nat) : (d.raiseTruncated k).bytepos = d.bytepos + k := rfl
@[simp] theorem Decoder.raiseTruncated_fault (d : Decoder) (k : Nat) : (d.raiseTruncated k).fault = some (.truncatedStream (d.bytepos + k)) := rfl
@[simp] theorem Decoder.raiseTruncated_n (d : Decoder) (k : Nat) : (d.raiseTruncated k).n = d.n := rfl
@[simp] theorem Decoder.raiseTruncated_ch (d : Decoder) (k : Nat) : (d.raiseTruncated k).ch = d.ch := rfl
@[simp] theorem Decoder.raiseTruncated_out (d : Decoder) (k : Nat) : (d.raiseTruncated k).out = d.out := rfl
@[simp] theorem Decoder.raiseTruncated_source (d : Decoder) (k : Nat) : (d.raiseTruncated k).source = d.source := rfl
@[simp] theorem Decoder.raiseTruncated_base (d : Decoder) (k : Nat) : (d.raiseTruncated k).base = d.base := rfl
@[simp] theorem Decoder.raiseTruncated_phase (d : Decoder) (k : Nat) : (d.raiseTruncated k).phase = d.phase := rfl
@[simp] theorem Decoder.raiseTruncated_header (d : Decoder) (k : Nat) : (d.raiseTruncated k).header = d.header := rfl

/-! ### Stream start of `DEC` -/

@[simp] theorem Decoder.streamStart_ctx (d : Decoder) (n : Nat) (ch : ChannelCount) : (d.streamStart n ch).ctx = Context.init := rfl
@[simp] theorem Decoder.streamStart_pixpos (d : Decoder) (n : Nat) (ch : ChannelCount) : (d.streamStart n ch).pixpos = 0 := rfl
@[simp] theorem Decoder.streamStart_bytepos (d : Decoder) (n : Nat) (ch : ChannelCount) : (d.streamStart n ch).bytepos = 0 := rfl
@[simp] theorem Decoder.streamStart_fault (d : Decoder) (n : Nat) (ch : ChannelCount) : (d.streamStart n ch).fault = none := rfl
@[simp] theorem Decoder.streamStart_n (d : Decoder) (n : Nat) (ch : ChannelCount) : (d.streamStart n ch).n = n := rfl
@[simp] theorem Decoder.streamStart_ch (d : Decoder) (n : Nat) (ch : ChannelCount) : (d.streamStart n ch).ch = ch := rfl
@[simp] theorem Decoder.streamStart_out (d : Decoder) (n : Nat) (ch : ChannelCount) : (d.streamStart n ch).out = [] := rfl
@[simp] theorem Decoder.streamStart_source (d : Decoder) (n : Nat) (ch : ChannelCount) : (d.streamStart n ch).source = d.source := rfl
@[simp] theorem Decoder.streamStart_base (d : Decoder) (n : Nat) (ch : ChannelCount) : (d.streamStart n ch).base = d.base := rfl
@[simp] theorem Decoder.streamStart_phase (d : Decoder) (n : Nat) (ch : ChannelCount) : (d.streamStart n ch).phase = d.phase := rfl
@[simp] theorem Decoder.streamStart_header (d : Decoder) (n : Nat) (ch : ChannelCount) : (d.streamStart n ch).header = d.header := rfl

/-! ### Placing an instruction -/

@[simp] theorem Decoder.place_ctx (d : Decoder) (bs : List Byte) : (d.place bs).ctx = { d.ctx with run := 0 } := rfl
@[simp] theorem Decoder.place_pixpos (d : Decoder) (bs : List Byte) : (d.place bs).pixpos = d.pixpos := rfl
@[simp] theorem Decoder.place_bytepos (d : Decoder) (bs : List Byte) : (d.place bs).bytepos = d.bytepos := rfl
@[simp] theorem Decoder.place_fault (d : Decoder) (bs : List Byte) : (d.place bs).fault = none := rfl
@[simp] theorem Decoder.place_n (d : Decoder) (bs : List Byte) : (d.place bs).n = if d.n = d.pixpos then d.pixpos + 1 else d.n := rfl
@[simp] theorem Decoder.place_ch (d : Decoder) (bs : List Byte) : (d.place bs).ch = d.ch := rfl
@[simp] theorem Decoder.place_out (d : Decoder) (bs : List Byte) : (d.place bs).out = d.out := rfl
@[simp] theorem Decoder.place_source (d : Decoder) (bs : List Byte) : (d.place bs).source = { d.source with bytes := d.source.bytes.writeAll (d.base + d.bytepos) bs } := rfl
@[simp] theorem Decoder.place_base (d : Decoder) (bs : List Byte) : (d.place bs).base = d.base := rfl
@[simp] theorem Decoder.place_phase (d : Decoder) (bs : List Byte) : (d.place bs).phase = if d.phase = .pixels then .pixels else .bare := rfl
@[simp] theorem Decoder.place_header (d : Decoder) (bs : List Byte) : (d.place bs).header = d.header := rfl

/-! ### Stream start of `ENC` -/

@[simp] theorem Encoder.streamStart_ctx (e : Encoder) (n : Nat) (ch : ChannelCount) : (e.streamStart n ch).ctx = Context.init := rfl
@[simp] theorem Encoder.streamStart_pixpos (e : Encoder) (n : Nat) (ch : ChannelCount) : (e.streamStart n ch).pixpos = 0 := rfl
@[simp] theorem Encoder.streamStart_outpos (e : Encoder) (n : Nat) (ch : ChannelCount) : (e.streamStart n ch).outpos = 0 := rfl
@[simp] theorem Encoder.streamStart_fault (e : Encoder) (n : Nat) (ch : ChannelCount) : (e.streamStart n ch).fault = none := rfl
@[simp] theorem Encoder.streamStart_n (e : Encoder) (n : Nat) (ch : ChannelCount) : (e.streamStart n ch).n = n := rfl
@[simp] theorem Encoder.streamStart_ch (e : Encoder) (n : Nat) (ch : ChannelCount) : (e.streamStart n ch).ch = ch := rfl
@[simp] theorem Encoder.streamStart_pixels (e : Encoder) (n : Nat) (ch : ChannelCount) : (e.streamStart n ch).pixels = e.pixels := rfl
@[simp] theorem Encoder.streamStart_sink (e : Encoder) (n : Nat) (ch : ChannelCount) : (e.streamStart n ch).sink = e.sink := rfl
@[simp] theorem Encoder.streamStart_base (e : Encoder) (n : Nat) (ch : ChannelCount) : (e.streamStart n ch).base = e.base := rfl
@[simp] theorem Encoder.streamStart_phase (e : Encoder) (n : Nat) (ch : ChannelCount) : (e.streamStart n ch).phase = e.phase := rfl
@[simp] theorem Encoder.streamStart_header (e : Encoder) (n : Nat) (ch : ChannelCount) : (e.streamStart n ch).header = e.header := rfl

/-! ### Fresh sides -/

@[simp] theorem Decoder.fresh_ctx (n : Nat) (ch : ChannelCount) : (Decoder.fresh n ch).ctx = Context.init := rfl
@[simp] theorem Decoder.fresh_pixpos (n : Nat) (ch : ChannelCount) : (Decoder.fresh n ch).pixpos = 0 := rfl
@[simp] theorem Decoder.fresh_bytepos (n : Nat) (ch : ChannelCount) : (Decoder.fresh n ch).bytepos = 0 := rfl
@[simp] theorem Decoder.fresh_fault (n : Nat) (ch : ChannelCount) : (Decoder.fresh n ch).fault = none := rfl
@[simp] theorem Decoder.fresh_n (n : Nat) (ch : ChannelCount) : (Decoder.fresh n ch).n = n := rfl
@[simp] theorem Decoder.fresh_ch (n : Nat) (ch : ChannelCount) : (Decoder.fresh n ch).ch = ch := rfl
@[simp] theorem Decoder.fresh_out (n : Nat) (ch : ChannelCount) : (Decoder.fresh n ch).out = [] := rfl
@[simp] theorem Decoder.fresh_source (n : Nat) (ch : ChannelCount) : (Decoder.fresh n ch).source = ⟨[], false⟩ := rfl
@[simp] theorem Decoder.fresh_base (n : Nat) (ch : ChannelCount) : (Decoder.fresh n ch).base = 0 := rfl
@[simp] theorem Decoder.fresh_phase (n : Nat) (ch : ChannelCount) : (Decoder.fresh n ch).phase = .bare := rfl
@[simp] theorem Decoder.fresh_header (n : Nat) (ch : ChannelCount) : (Decoder.fresh n ch).header = Header.zero := rfl
@[simp] theorem Encoder.fresh_ctx (n : Nat) (ch : ChannelCount) : (Encoder.fresh n ch).ctx = Context.init := rfl
@[simp] theorem Encoder.fresh_pixpos (n : Nat) (ch : ChannelCount) : (Encoder.fresh n ch).pixpos = 0 := rfl
@[simp] theorem Encoder.fresh_outpos (n : Nat) (ch : ChannelCount) : (Encoder.fresh n ch).outpos = 0 := rfl
@[simp] theorem Encoder.fresh_fault (n : Nat) (ch : ChannelCount) : (Encoder.fresh n ch).fault = none := rfl
@[simp] theorem Encoder.fresh_n (n : Nat) (ch : ChannelCount) : (Encoder.fresh n ch).n = n := rfl
@[simp] theorem Encoder.fresh_ch (n : Nat) (ch : ChannelCount) : (Encoder.fresh n ch).ch = ch := rfl
@[simp] theorem Encoder.fresh_pixels (n : Nat) (ch : ChannelCount) : (Encoder.fresh n ch).pixels = [] := rfl
@[simp] theorem Encoder.fresh_sink (n : Nat) (ch : ChannelCount) : (Encoder.fresh n ch).sink = ⟨[], none, false⟩ := rfl
@[simp] theorem Encoder.fresh_base (n : Nat) (ch : ChannelCount) : (Encoder.fresh n ch).base = 0 := rfl
@[simp] theorem Encoder.fresh_phase (n : Nat) (ch : ChannelCount) : (Encoder.fresh n ch).phase = .bare := rfl
@[simp] theorem Encoder.fresh_header (n : Nat) (ch : ChannelCount) : (Encoder.fresh n ch).header = Header.zero := rfl

/-! ### The calls of `decode` and `encode` -/

@[simp] theorem Decoder.openFile_ctx (d : Decoder) : d.openFile.ctx = d.ctx := rfl
@[simp] theorem Decoder.openFile_pixpos (d : Decoder) : d.openFile.pixpos = d.pixpos := rfl
@[simp] theorem Decoder.openFile_bytepos (d : Decoder) : d.openFile.bytepos = d.bytepos := rfl
@[simp] theorem Decoder.openFile_fault (d : Decoder) : d.openFile.fault = d.fault := rfl
@[simp] theorem Decoder.openFile_n (d : Decoder) : d.openFile.n = d.n := rfl
@[simp] theorem Decoder.openFile_ch (d : Decoder) : d.openFile.ch = d.ch := rfl
@[simp] theorem Decoder.openFile_out (d : Decoder) : d.openFile.out = d.out := rfl
@[simp] theorem Decoder.openFile_base (d : Decoder) : d.openFile.base = d.base := rfl
@[simp] theorem Decoder.openFile_header (d : Decoder) : d.openFile.header = d.header := rfl
@[simp] theorem Decoder.openFile_source (d : Decoder) : d.openFile.source = ⟨[], false⟩ := rfl
@[simp] theorem Decoder.openFile_phase (d : Decoder) : d.openFile.phase = .magic := rfl
@[simp] theorem Encoder.openFile_ctx (e : Encoder) (h : Header) : (e.openFile h).ctx = e.ctx := rfl
@[simp] theorem Encoder.openFile_pixpos (e : Encoder) (h : Header) : (e.openFile h).pixpos = e.pixpos := rfl
@[simp] theorem Encoder.openFile_outpos (e : Encoder) (h : Header) : (e.openFile h).outpos = e.outpos := rfl
@[simp] theorem Encoder.openFile_fault (e : Encoder) (h : Header) : (e.openFile h).fault = e.fault := rfl
@[simp] theorem Encoder.openFile_n (e : Encoder) (h : Header) : (e.openFile h).n = e.n := rfl
@[simp] theorem Encoder.openFile_ch (e : Encoder) (h : Header) : (e.openFile h).ch = e.ch := rfl
@[simp] theorem Encoder.openFile_base (e : Encoder) (h : Header) : (e.openFile h).base = e.base := rfl
@[simp] theorem Encoder.openFile_pixels (e : Encoder) (h : Header) : (e.openFile h).pixels = [] := rfl
@[simp] theorem Encoder.openFile_sink (e : Encoder) (h : Header) : (e.openFile h).sink = ⟨[], none, false⟩ := rfl
@[simp] theorem Encoder.openFile_phase (e : Encoder) (h : Header) : (e.openFile h).phase = .header := rfl
@[simp] theorem Encoder.openFile_header (e : Encoder) (h : Header) : (e.openFile h).header = h := rfl

end Sys2Proof.Machine
end

