-- ==== Sys2Proof/Laws/Cache.lean ====
section
/-! SUPPORT. The laws of the cache unit (spec/20_memory.md R32, R33) and of the pixel forms at the ports. -/

namespace Sys2Proof.Machine

@[simp] theorem Context.lookup_init (i : Slot) : Context.init.lookup i = Config.slotInit := by
  simp [Context.init, Context.lookup]

/-- A lookup after a store (R32, R33). -/
@[simp] theorem Context.lookup_store (c : Context) (i j : Slot) (p : Pixel) :
    (c.store i p).lookup j = if j = i then p else c.lookup j := by
  simp only [Context.store, Context.lookup, Fin.getElem_fin, Vector.getElem_set, Fin.ext_iff, eq_comm]

@[simp] theorem Context.lookup_remember (c : Context) (p : Pixel) (j : Slot) :
    (c.remember p).lookup j = if j = slotHash p then p else c.lookup j := by
  simp [Context.remember]

/-- A lookup does not see `PREV` and `RUN`. -/
@[simp] theorem Context.lookup_with (c : Context) (p : Pixel) (r : BitVec 6) (j : Slot) :
    Context.lookup { cache := c.cache, prev := p, run := r } j = c.lookup j := rfl

/-- Two contexts with the same lookups have the same cache. -/
theorem Context.cache_ext {c d : Context} (h : ∀ i, c.lookup i = d.lookup i) : c.cache = d.cache := by
  ext i hi : 1
  exact h ⟨i, hi⟩

theorem slotHash_val (p : Pixel) :
    (slotHash p).val = (p.r.toNat * 3 + p.g.toNat * 5 + p.b.toNat * 7 + p.a.toNat * 11) % 64 := rfl

@[simp] theorem slotHash_slotInit : slotHash Config.slotInit = 0 := by decide

@[simp] theorem sourcePixel_four (p : Pixel) : sourcePixel .four p = p := rfl

@[simp] theorem sourcePixel_three_a (p : Pixel) : (sourcePixel .three p).a = Config.alphaDefault := rfl

@[simp] theorem channelCount_three : channelCount 3 = some .three := by decide

@[simp] theorem channelCount_four : channelCount 4 = some .four := by decide

/-- Every other channels value is refused (R7, R159). -/
theorem channelCount_eq_none {v : Byte} (h3 : v ≠ 3) (h4 : v ≠ 4) : channelCount v = none := by
  unfold channelCount
  rw [if_neg h3, if_neg h4]

/-- A channels value has a meaning exactly when it is 3 or 4 (R159). -/
theorem channelCount_eq_some {v : Byte} {ch : ChannelCount} (h : channelCount v = some ch) :
    (v = 3 ∧ ch = .three) ∨ (v = 4 ∧ ch = .four) := by
  unfold channelCount at h
  split at h
  · exact .inl ⟨‹_›, by simpa using h.symm⟩
  · split at h
    · exact .inr ⟨‹_›, by simpa using h.symm⟩
    · simp at h

end Sys2Proof.Machine
end

