-- ==== Sys2Proof/Laws/Decode.lean ====
section
/-! SUPPORT. What the operation parser can do, said once (spec/30_encoding.md R57, R59, R60). -/

namespace Sys2Proof

/-- The parser's answers by tag (R57). -/
theorem decode_rgb (r g b : Byte) (rest : List Byte) :
    decode (0xFE :: r :: g :: b :: rest) = .ok (.rgb r g b, rest) := rfl

theorem decode_rgba (r g b a : Byte) (rest : List Byte) :
    decode (0xFF :: r :: g :: b :: a :: rest) = .ok (.rgba r g b a, rest) := rfl

theorem decode_run {t : Byte} (h1 : t ≠ 0xFE) (h2 : t ≠ 0xFF) (h : t &&& 0xC0 = 0xC0) (rest : List Byte) :
    decode (t :: rest) = .ok (.run (bits t 5 0 + 1), rest) := by
  simp only [decode, if_neg h1, if_neg h2, if_pos h]

theorem decode_luma {t : Byte} (h : t &&& 0xC0 = 0x80) (b2 : Byte) (rest : List Byte) :
    decode (t :: b2 :: rest) =
      .ok (.luma (lumaUnpack t b2).1 (lumaUnpack t b2).2.1 (lumaUnpack t b2).2.2, rest) := by
  have h1 : t ≠ 0xFE := by rintro rfl; revert h; decide
  have h2 : t ≠ 0xFF := by rintro rfl; revert h; decide
  simp only [decode, if_neg h1, if_neg h2, h, if_true]
  rfl

theorem decode_diff {t : Byte} (h : t &&& 0xC0 = 0x40) (rest : List Byte) :
    decode (t :: rest) = .ok (.diff (diffUnpack t).1 (diffUnpack t).2.1 (diffUnpack t).2.2, rest) := by
  have h1 : t ≠ 0xFE := by rintro rfl; revert h; decide
  have h2 : t ≠ 0xFF := by rintro rfl; revert h; decide
  simp only [decode, if_neg h1, if_neg h2, h, if_true]
  rfl

theorem decode_index {t : Byte} (h : t &&& 0xC0 = 0x00) (rest : List Byte) :
    decode (t :: rest) = .ok (.index (Fin.ofNat 64 (bits t 5 0)), rest) := by
  have h1 : t ≠ 0xFE := by rintro rfl; revert h; decide
  have h2 : t ≠ 0xFF := by rintro rfl; revert h; decide
  simp only [decode, if_neg h1, if_neg h2, h]
  rfl

/-- What the parser can answer when it succeeds: the bytes were a tag and its operands. -/
theorem decode_ok {bs : List Byte} {i : Instr} {rest : List Byte} (h : decode bs = .ok (i, rest)) :
    (∃ r g b, bs = 0xFE :: r :: g :: b :: rest ∧ i = .rgb r g b) ∨
    (∃ r g b a, bs = 0xFF :: r :: g :: b :: a :: rest ∧ i = .rgba r g b a) ∨
    (∃ t, bs = t :: rest ∧ t ≠ 0xFE ∧ t ≠ 0xFF ∧ t &&& 0xC0 = 0xC0 ∧ i = .run (bits t 5 0 + 1)) ∨
    (∃ t b2, bs = t :: b2 :: rest ∧ t &&& 0xC0 = 0x80 ∧
      i = .luma (lumaUnpack t b2).1 (lumaUnpack t b2).2.1 (lumaUnpack t b2).2.2) ∨
    (∃ t, bs = t :: rest ∧ t &&& 0xC0 = 0x40 ∧
      i = .diff (diffUnpack t).1 (diffUnpack t).2.1 (diffUnpack t).2.2) ∨
    (∃ t, bs = t :: rest ∧ t &&& 0xC0 ≠ 0xC0 ∧ t &&& 0xC0 ≠ 0x80 ∧ t &&& 0xC0 ≠ 0x40 ∧
      i = .index (Fin.ofNat 64 (bits t 5 0))) := by
  cases bs with
  | nil => simp [decode] at h
  | cons t tl =>
    simp only [decode] at h
    split at h
    · next ht =>
      subst ht
      split at h
      · simp only [Except.ok.injEq, Prod.mk.injEq] at h
        obtain ⟨rfl, rfl⟩ := h
        exact .inl ⟨_, _, _, rfl, rfl⟩
      · simp at h
    · next h1 =>
      split at h
      · next ht =>
        subst ht
        split at h
        · simp only [Except.ok.injEq, Prod.mk.injEq] at h
          obtain ⟨rfl, rfl⟩ := h
          exact .inr (.inl ⟨_, _, _, _, rfl, rfl⟩)
        · simp at h
      · next h2 =>
        split at h
        · next h3 =>
          simp only [Except.ok.injEq, Prod.mk.injEq] at h
          obtain ⟨rfl, rfl⟩ := h
          exact .inr (.inr (.inl ⟨t, rfl, h1, h2, h3, rfl⟩))
        · next h3 =>
          split at h
          · next h4 =>
            split at h
            · simp only [Except.ok.injEq, Prod.mk.injEq] at h
              obtain ⟨rfl, rfl⟩ := h
              exact .inr (.inr (.inr (.inl ⟨t, _, rfl, h4, rfl⟩)))
            · simp at h
          · next h4 =>
            split at h
            · next h5 =>
              simp only [Except.ok.injEq, Prod.mk.injEq] at h
              obtain ⟨rfl, rfl⟩ := h
              exact .inr (.inr (.inr (.inr (.inl ⟨t, rfl, h5, rfl⟩))))
            · next h5 =>
              simp only [Except.ok.injEq, Prod.mk.injEq] at h
              obtain ⟨rfl, rfl⟩ := h
              exact .inr (.inr (.inr (.inr (.inr ⟨t, rfl, h3, h4, h5, rfl⟩))))

/-- What the parser can answer when it fails: every byte was there to be read and the next is missing; at most four were. -/
theorem decode_error {bs : List Byte} {k : Nat} (h : decode bs = .error (.truncated k)) :
    k = bs.length ∧ k < maxLength := by
  cases bs with
  | nil => simp only [decode, Except.error.injEq, DecodeError.truncated.injEq] at h; subst h; decide
  | cons t tl =>
    simp only [decode] at h
    split at h
    · split at h
      · simp at h
      · next hs =>
        simp only [Except.error.injEq, DecodeError.truncated.injEq] at h
        rcases tl with _ | ⟨a, _ | ⟨b, _ | ⟨c, tl⟩⟩⟩
        · subst h; simp [maxLength]
        · subst h; simp [maxLength]
        · subst h; simp [maxLength]
        · exact absurd rfl (hs a b c tl)
    · split at h
      · split at h
        · simp at h
        · next hs =>
          simp only [Except.error.injEq, DecodeError.truncated.injEq] at h
          rcases tl with _ | ⟨a, _ | ⟨b, _ | ⟨c, _ | ⟨d, tl⟩⟩⟩⟩
          · subst h; simp [maxLength]
          · subst h; simp [maxLength]
          · subst h; simp [maxLength]
          · subst h; simp [maxLength]
          · exact absurd rfl (hs a b c d tl)
      · split at h
        · simp at h
        · split at h
          · split at h
            · simp at h
            · simp only [Except.error.injEq, DecodeError.truncated.injEq] at h; subst h; simp [maxLength]
          · split at h <;> simp at h

/-- More bytes behind an operation do not change it (R59). -/
theorem decode_append {bs : List Byte} {i : Instr} {rest : List Byte} (h : decode bs = .ok (i, rest)) (more : List Byte) :
    decode (bs ++ more) = .ok (i, rest ++ more) := by
  rcases decode_ok h with ⟨r, g, b, rfl, rfl⟩ | ⟨r, g, b, a, rfl, rfl⟩ | ⟨t, rfl, h1, h2, h3, rfl⟩ |
    ⟨t, b2, rfl, h3, rfl⟩ | ⟨t, rfl, h3, rfl⟩ | ⟨t, rfl, h3, h4, h5, rfl⟩
  · rfl
  · rfl
  · simp only [List.cons_append]; exact decode_run h1 h2 h3 _
  · simp only [List.cons_append]; exact decode_luma h3 b2 _
  · simp only [List.cons_append]; exact decode_diff h3 _
  · have h1 : t ≠ 0xFE := by rintro rfl; exact h3 (by decide)
    have h2 : t ≠ 0xFF := by rintro rfl; exact h3 (by decide)
    simp only [List.cons_append, decode, if_neg h1, if_neg h2, if_neg h3, if_neg h4, if_neg h5]

/-- The bytes read are the operation's length. -/
theorem decode_length {bs : List Byte} {i : Instr} {rest : List Byte} (h : decode bs = .ok (i, rest)) :
    bs.length = i.length + rest.length := by
  rcases decode_ok h with ⟨r, g, b, rfl, rfl⟩ | ⟨r, g, b, a, rfl, rfl⟩ | ⟨t, rfl, h1, h2, h3, rfl⟩ |
    ⟨t, b2, rfl, h3, rfl⟩ | ⟨t, rfl, h3, rfl⟩ | ⟨t, rfl, h3, h4, h5, rfl⟩ <;>
  simp [Instr.length] <;> omega

@[simp] theorem encode_length (i : Instr) : (encode i).length = i.length := by cases i <;> rfl

end Sys2Proof
end

