-- ==== Sys2Proof/Laws/Delta.lean ====
section
/-! SUPPORT. The delta unit and the operand ranges as arithmetic (spec/40_delta.md, spec/30_encoding.md R56). -/

namespace Sys2Proof

@[simp] theorem inRange_iff (lo hi v : Int) : inRange lo hi v = true ↔ lo ≤ v ∧ v ≤ hi := by simp [inRange]

@[simp] theorem Instr.wf_run (n : Nat) : (Instr.run n).wf = true ↔ 1 ≤ n ∧ n ≤ 62 := by
  show (decide (1 ≤ n) && decide (n ≤ 62)) = true ↔ _
  simp

@[simp] theorem Instr.wf_luma (dg drg dbg : Int) : (Instr.luma dg drg dbg).wf = true ↔
    ((-32 ≤ dg ∧ dg ≤ 31) ∧ -8 ≤ drg ∧ drg ≤ 7) ∧ -8 ≤ dbg ∧ dbg ≤ 7 := by
  simp only [Instr.wf, Bool.and_eq_true, inRange_iff, Config.lumaGMin, Config.lumaGMax, Config.lumaRbMin, Config.lumaRbMax]

@[simp] theorem Instr.wf_diff (dr dg db : Int) : (Instr.diff dr dg db).wf = true ↔
    ((-2 ≤ dr ∧ dr ≤ 1) ∧ -2 ≤ dg ∧ dg ≤ 1) ∧ -2 ≤ db ∧ db ≤ 1 := by
  simp only [Instr.wf, Bool.and_eq_true, inRange_iff, Config.diffMin, Config.diffMax]

namespace Machine

/-- `diff_fits` as arithmetic (R73). -/
theorem diffFits_iff (v : Int × Int × Int) : diffFits v = true ↔
    ((-2 ≤ v.1 ∧ v.1 ≤ 1) ∧ -2 ≤ v.2.1 ∧ v.2.1 ≤ 1) ∧ -2 ≤ v.2.2 ∧ v.2.2 ≤ 1 := by
  simp only [diffFits, Bool.and_eq_true, inRange_iff, Config.diffMin, Config.diffMax]

/-- `luma_fits` as arithmetic (R76). -/
theorem lumaFits_iff (v : Int × Int × Int) : lumaFits v = true ↔
    ((-32 ≤ v.2.1 ∧ v.2.1 ≤ 31) ∧ -8 ≤ v.1 - v.2.1 ∧ v.1 - v.2.1 ≤ 7) ∧ -8 ≤ v.2.2 - v.2.1 ∧ v.2.2 - v.2.1 ≤ 7 := by
  simp only [lumaFits, Bool.and_eq_true, inRange_iff, Config.lumaGMin, Config.lumaGMax, Config.lumaRbMin, Config.lumaRbMax]

/-- A channel plus a signed delta, as a number (R79). -/
theorem addDelta_toNat (c : Byte) (d : Int) : ((addDelta c d).toNat : Int) = (c.toNat + d) % 256 := by
  simp [addDelta, BitVec.toNat_add, BitVec.toNat_ofInt]; omega

/-- Adding in two wrapped steps is adding the sum (R78). -/
theorem addDelta_add (c : Byte) (x y : Int) : addDelta (addDelta c x) y = addDelta c (x + y) := by
  have h : ((addDelta (addDelta c x) y).toNat : Int) = (addDelta c (x + y)).toNat := by
    rw [addDelta_toNat, addDelta_toNat, addDelta_toNat]; omega
  exact BitVec.eq_of_toNat_eq (by exact_mod_cast h)

/-- The previous channel plus the difference is the current channel, in either reading of D3. -/
theorem addDelta_channelDelta (wrap : Bool) (cur prev : Byte) : addDelta prev (channelDelta wrap cur prev) = cur := by
  have h : ((addDelta prev (channelDelta wrap cur prev)).toNat : Int) = cur.toNat := by
    rw [addDelta_toNat]
    have := cur.isLt
    have := prev.isLt
    unfold channelDelta
    split
    · rw [BitVec.toInt_eq_toNat_bmod, BitVec.toNat_sub, Int.bmod_def]; split <;> omega
    · omega
  exact BitVec.eq_of_toNat_eq (by exact_mod_cast h)

/-- The wrapped difference is an 8-bit signed number (R71). -/
theorem channelDelta_range (cur prev : Byte) : -128 ≤ channelDelta true cur prev ∧ channelDelta true cur prev ≤ 127 := by
  simp only [channelDelta, if_true, BitVec.toInt_eq_toNat_bmod, Int.bmod_def]
  split <;> omega

end Machine
end Sys2Proof
end

