-- ==== Sys2Proof/Laws/Memory.lean ====
section
/-! SUPPORT. The laws of byte memories, windows and the byte sink: read after write, the canonical form is kept, what a window
holds. -/

namespace Sys2Proof.Machine

/-- Read after write: the byte written at its offset, what was there at every other. -/
@[simp] theorem Memory.read_write (m : Memory) (a : Nat) (b : Byte) (x : Nat) :
    (m.write a b).read x = if x = a then some b else m.read x := by
  induction m with
  | nil => simp [Memory.write, Memory.read, eq_comm]
  | cons c m ih =>
    obtain ⟨a', b'⟩ := c
    simp only [Memory.write]
    split
    · simp only [Memory.read, eq_comm (a := a)]
    · split
      · next h => subst h; simp only [Memory.read, eq_comm (b := x)]; split <;> rfl
      · next h => simp only [Memory.read, ih]; split <;> split <;> simp_all

theorem Memory.read_write_same (m : Memory) (a : Nat) (b : Byte) : (m.write a b).read a = some b := by simp

theorem Memory.read_write_other (m : Memory) (a : Nat) (b : Byte) {x : Nat} (h : x ≠ a) :
    (m.write a b).read x = m.read x := by simp [h]

/-- The cells of a written memory: the new one or an old one. -/
theorem Memory.mem_write {m : Memory} {a : Nat} {b : Byte} {c : Host.Cell} (h : c ∈ m.write a b) :
    c = (a, b) ∨ c ∈ m := by
  induction m with
  | nil => simpa [Memory.write] using h
  | cons d m ih =>
    obtain ⟨a', b'⟩ := d
    simp only [Memory.write] at h
    split at h
    · simpa using h
    · split at h <;> simp only [List.mem_cons] at h ⊢
      · tauto
      · rcases h with h | h
        · exact .inr (.inl h)
        · exact (ih h).imp_right .inr

/-- A write keeps the canonical form. -/
theorem Memory.write_wf {m : Memory} (h : m.wf) (a : Nat) (b : Byte) : (m.write a b).wf := by
  induction m with
  | nil => simp [Memory.write, Memory.wf]
  | cons c m ih =>
    obtain ⟨a', b'⟩ := c
    simp only [Memory.wf, List.pairwise_cons] at h
    simp only [Memory.write]
    split
    · next hlt =>
      simp only [Memory.wf, List.pairwise_cons, List.mem_cons]
      refine ⟨?_, h.1, h.2⟩
      rintro d (rfl | hd)
      · exact hlt
      · exact Nat.lt_trans hlt (h.1 d hd)
    · split
      · next heq => subst heq; simpa [Memory.wf, List.pairwise_cons] using h
      · next hne =>
        simp only [Memory.wf, List.pairwise_cons]
        refine ⟨fun d hd => ?_, ih h.2⟩
        rcases Memory.mem_write hd with rfl | hd
        · show a' < a; omega
        · exact h.1 d hd

/-- Bytes laid out keep the canonical form. -/
theorem Memory.writeAll_wf {m : Memory} (h : m.wf) (a : Nat) (bs : List Byte) : (m.writeAll a bs).wf := by
  induction bs generalizing m a with
  | nil => exact h
  | cons b bs ih => exact ih (m.write_wf h a b) (a + 1)

/-- Read after bytes laid out. -/
theorem Memory.read_writeAll (m : Memory) (a : Nat) (bs : List Byte) (x : Nat) :
    (m.writeAll a bs).read x = if a ≤ x ∧ x < a + bs.length then bs[x - a]? else m.read x := by
  induction bs generalizing m a with
  | nil => simp [Memory.writeAll]
  | cons b bs ih =>
    rw [Memory.writeAll, ih]
    simp only [Memory.read_write, List.length_cons]
    by_cases h : x = a
    · subst h; rw [if_neg (by omega), if_pos rfl, if_pos (by omega)]; simp
    · rw [if_neg h]
      by_cases h2 : a + 1 ≤ x ∧ x < a + 1 + bs.length
      · rw [if_pos h2, if_pos (by omega)]
        obtain ⟨k, rfl⟩ : ∃ k, x = a + 1 + k := ⟨x - (a + 1), by omega⟩
        rw [show a + 1 + k - a = k + 1 by omega, show a + 1 + k - (a + 1) = k by omega]
        simp
      · rw [if_neg h2, if_neg (by omega)]

/-- Every listed offset is below `endOffset`. -/
theorem Memory.lt_endOffset {m : Memory} (h : m.wf) {c : Host.Cell} (hc : c ∈ m) : c.1 < m.endOffset := by
  induction m generalizing c with
  | nil => simp at hc
  | cons d m ih =>
    simp only [Memory.wf, List.pairwise_cons] at h
    cases m with
    | nil => simp at hc; subst hc; exact Nat.lt_succ_self _
    | cons d' m =>
      show c.1 < Memory.endOffset (d' :: m)
      rcases List.mem_cons.1 hc with rfl | hc
      · exact Nat.lt_trans (h.1 d' (by simp)) (ih h.2 (by simp))
      · exact ih h.2 hc

/-- A byte that is there stands in a cell. -/
theorem Memory.mem_of_read {m : Memory} {a : Nat} {b : Byte} (h : m.read a = some b) : (a, b) ∈ m := by
  induction m with
  | nil => simp [Memory.read] at h
  | cons c m ih =>
    obtain ⟨a', b'⟩ := c
    simp only [Memory.read] at h
    split at h
    · next e => simp_all
    · exact List.mem_cons_of_mem _ (ih h)

/-- In a canonical memory no byte stands at or above `endOffset`. -/
theorem Memory.read_endOffset {m : Memory} (h : m.wf) {a : Nat} (ha : m.endOffset ≤ a) : m.read a = none := by
  cases hr : m.read a with
  | none => rfl
  | some b => exact absurd (Memory.lt_endOffset h (Memory.mem_of_read hr)) (by simpa using ha)

/-- In a canonical memory a write at or above `endOffset` appends. -/
theorem Memory.write_append {m : Memory} (h : m.wf) {a : Nat} (ha : m.endOffset ≤ a) (b : Byte) :
    m.write a b = m ++ [(a, b)] := by
  induction m with
  | nil => rfl
  | cons c m ih =>
    have hc := Memory.lt_endOffset h (c := c) (by simp)
    obtain ⟨a', b'⟩ := c
    simp only [Memory.wf, List.pairwise_cons] at h
    have : a' < a := Nat.lt_of_lt_of_le hc ha
    simp only [Memory.write, if_neg (show ¬a < a' by omega), if_neg (show ¬a = a' by omega), List.cons_append]
    congr 1
    refine ih h.2 ?_
    cases m with
    | nil => simp [Memory.endOffset]
    | cons d m => simpa [Memory.endOffset] using ha

@[simp] theorem Memory.endOffset_append (m : Memory) (a : Nat) (b : Byte) :
    Memory.endOffset (m ++ [(a, b)]) = a + 1 := by
  induction m with
  | nil => rfl
  | cons c m ih =>
    cases m with
    | nil => rfl
    | cons d m => simpa [Memory.endOffset] using ih

/-! ### Windows -/

theorem Memory.window_length_le (m : Memory) (a k : Nat) : (m.window a k).length ≤ k := by
  induction k generalizing a with
  | zero => simp [Memory.window]
  | succ k ih =>
    simp only [Memory.window]
    split
    · simpa using ih (a + 1)
    · simp

/-- The bytes of a window are the bytes at its offsets. -/
theorem Memory.window_get (m : Memory) (a k i : Nat) (h : i < (m.window a k).length) :
    (m.window a k)[i]? = m.read (a + i) := by
  induction k generalizing a i with
  | zero => simp [Memory.window] at h
  | succ k ih =>
    simp only [Memory.window] at h ⊢
    split at h
    · next b hb =>
      cases i with
      | zero => simp [hb]
      | succ i =>
        simp only [List.length_cons, Nat.add_lt_add_iff_right] at h
        simpa [Nat.add_assoc, Nat.add_comm 1] using ih (a + 1) i h
    · simp at h

/-- A window shorter than asked ends at a missing byte. -/
theorem Memory.window_short (m : Memory) (a k : Nat) (h : (m.window a k).length < k) :
    m.read (a + (m.window a k).length) = none := by
  induction k generalizing a with
  | zero => omega
  | succ k ih =>
    simp only [Memory.window] at h ⊢
    split at h
    · next b hb =>
      simp only [List.length_cons, Nat.add_lt_add_iff_right] at h ⊢
      simpa [Nat.add_assoc, Nat.add_comm 1] using ih (a + 1) h
    · next hb => simpa using hb

/-- A window depends only on the bytes at its offsets. -/
theorem Memory.window_congr {m m' : Memory} {a k : Nat} (h : ∀ i, i < k → m'.read (a + i) = m.read (a + i)) :
    m'.window a k = m.window a k := by
  induction k generalizing a with
  | zero => rfl
  | succ k ih =>
    have h0 := h 0 (by omega)
    simp only [Nat.add_zero] at h0
    simp only [Memory.window, h0]
    split
    · rw [ih fun i hi => by simpa [Nat.add_assoc, Nat.add_comm 1] using h (i + 1) (by omega)]
    · rfl

/-- A window of bytes laid out at its offset. -/
theorem Memory.window_of_reads {m : Memory} {a : Nat} {bs : List Byte}
    (h : ∀ i, i < bs.length → m.read (a + i) = bs[i]?) : m.window a bs.length = bs := by
  induction bs generalizing a with
  | nil => rfl
  | cons b bs ih =>
    have h0 := h 0 (by simp)
    simp only [Nat.add_zero] at h0
    simp only [List.length_cons, Memory.window, h0, List.getElem?_cons_zero]
    rw [ih fun i hi => by simpa [Nat.add_assoc, Nat.add_comm 1] using h (i + 1) (by simpa using hi)]

/-- A window is the start of every longer window. -/
theorem Memory.window_prefix (m : Memory) (a : Nat) {j k : Nat} (h : j ≤ k) :
    m.window a j <+: m.window a k := by
  induction j generalizing a k with
  | zero => simp [Memory.window]
  | succ j ih =>
    obtain ⟨k, rfl⟩ : ∃ i, k = i + 1 := ⟨k - 1, by omega⟩
    simp only [Memory.window]
    split
    · simpa using ih (a + 1) (by omega)
    · simp

/-! ### The byte sink -/

/-- What bytes to the sink do when none is refused: they stand at their offsets, nothing else changes. -/
theorem ByteSink.putAll_open {k : ByteSink} {a : Nat} {bs : List Byte} (hf : k.failed = false)
    (hr : ∀ i, i < bs.length → k.refuses (a + i) = false) :
    k.putAll a bs = { k with bytes := k.bytes.writeAll a bs } := by
  induction bs generalizing k a with
  | nil => rfl
  | cons b bs ih =>
    have h0 : k.refuses a = false := by simpa using hr 0 (by simp)
    simp only [ByteSink.putAll, ByteSink.put, hf, h0, Bool.false_eq_true, if_false]
    rw [ih rfl fun i hi => by simpa [ByteSink.refuses, Nat.add_assoc, Nat.add_comm 1] using hr (i + 1) (by simpa using hi)]
    rfl

theorem ByteSink.putAll_of_failed {k : ByteSink} (hf : k.failed = true) (a : Nat) (bs : List Byte) :
    k.putAll a bs = k := by
  induction bs generalizing a with
  | nil => rfl
  | cons b bs ih => simpa [ByteSink.putAll, ByteSink.put, hf] using ih (a + 1)

/-- A sink that has not failed after bytes was open for every one of them. -/
theorem ByteSink.putAll_not_failed {k : ByteSink} {a : Nat} {bs : List Byte} (h : (k.putAll a bs).failed = false) :
    k.failed = false ∧ ∀ i, i < bs.length → k.refuses (a + i) = false := by
  induction bs generalizing k a with
  | nil => exact ⟨h, fun i hi => by simp at hi⟩
  | cons b bs ih =>
    rw [ByteSink.putAll] at h
    have hp := ih h
    cases hf : k.failed with
    | true => simp [ByteSink.put, hf] at hp
    | false =>
      cases hr : k.refuses a with
      | true => simp [ByteSink.put, hf, hr] at hp
      | false =>
        refine ⟨rfl, fun i hi => ?_⟩
        cases i with
        | zero => simpa using hr
        | succ i =>
          have h1 := hp.2 i (by simpa using hi)
          rw [ByteSink.put, if_neg (by simp [hf]), if_neg (by simp [hr])] at h1
          simpa [ByteSink.refuses, Nat.add_assoc, Nat.add_comm 1] using h1

/-- A sink that refuses byte `j` takes the bytes before it and has failed. -/
theorem ByteSink.putAll_refused {k : ByteSink} {a j : Nat} {bs : List Byte} (hf : k.failed = false) (hj : j < bs.length)
    (hr : ∀ i, i < j → k.refuses (a + i) = false) (h : k.refuses (a + j) = true) :
    k.putAll a bs = { k with bytes := k.bytes.writeAll a (bs.take j), failed := true } := by
  induction bs generalizing k a j with
  | nil => simp at hj
  | cons b bs ih =>
    cases j with
    | zero =>
      have hp : k.put a b = { k with failed := true } := by
        unfold ByteSink.put
        rw [if_neg (by simp [hf]), if_pos (by simpa using h)]
      unfold ByteSink.putAll
      rw [hp, ByteSink.putAll_of_failed rfl]
      rfl
    | succ j =>
      have hp : k.put a b = { k with bytes := k.bytes.write a b } := by
        unfold ByteSink.put
        rw [if_neg (by simp [hf]), if_neg (by simpa using hr 0 (by omega))]
      have hr' : ∀ i, i < j → ({ k with bytes := k.bytes.write a b } : ByteSink).refuses (a + 1 + i) = false := fun i hi => by
        have := hr (i + 1) (by omega)
        rwa [Nat.add_comm i, ← Nat.add_assoc] at this
      have h' : ({ k with bytes := k.bytes.write a b } : ByteSink).refuses (a + 1 + j) = true := by
        rwa [Nat.add_comm j, ← Nat.add_assoc] at h
      unfold ByteSink.putAll
      rw [hp, ih (k := { k with bytes := k.bytes.write a b }) hf (by simpa using hj) hr' h']
      rfl

/-- What bytes to the sink do when the sink has not failed after them. -/
theorem ByteSink.putAll_eq {k : ByteSink} {a : Nat} {bs : List Byte} (h : (k.putAll a bs).failed = false) :
    k.putAll a bs = { k with bytes := k.bytes.writeAll a bs } :=
  ByteSink.putAll_open (ByteSink.putAll_not_failed h).1 (ByteSink.putAll_not_failed h).2

theorem ByteSink.put_wf {k : ByteSink} (h : k.bytes.wf) (a : Nat) (b : Byte) : (k.put a b).bytes.wf := by
  unfold ByteSink.put
  split
  · exact h
  · split
    · exact h
    · exact Memory.write_wf h a b

/-- Bytes to the sink keep the canonical form of its memory. -/
theorem ByteSink.putAll_wf {k : ByteSink} (h : k.bytes.wf) (a : Nat) (bs : List Byte) :
    (k.putAll a bs).bytes.wf := by
  induction bs generalizing k a with
  | nil => exact h
  | cons b bs ih => exact ih (ByteSink.put_wf h a b) (a + 1)

@[simp] theorem ByteSink.put_limit (k : ByteSink) (a : Nat) (b : Byte) : (k.put a b).limit = k.limit := by
  unfold ByteSink.put; split <;> (try split) <;> rfl

@[simp] theorem ByteSink.putAll_limit (k : ByteSink) (a : Nat) (bs : List Byte) : (k.putAll a bs).limit = k.limit := by
  induction bs generalizing k a with
  | nil => rfl
  | cons b bs ih => simp [ByteSink.putAll, ih]

/-- Bytes to the sink leave every offset outside theirs as it was. -/
theorem ByteSink.putAll_read_other {k : ByteSink} {a : Nat} {bs : List Byte} {x : Nat}
    (h : x < a ∨ a + bs.length ≤ x) : (k.putAll a bs).bytes.read x = k.bytes.read x := by
  induction bs generalizing k a with
  | nil => rfl
  | cons b bs ih =>
    simp only [List.length_cons] at h
    rw [ByteSink.putAll, ih (by omega), ByteSink.put]
    split
    · rfl
    · split
      · rfl
      · rw [Memory.read_write, if_neg (by omega)]

/-- A byte that stands in the sink still stands there after more bytes. -/
theorem ByteSink.putAll_read_isSome {k : ByteSink} {a : Nat} {bs : List Byte} {x : Nat}
    (h : (k.bytes.read x).isSome = true) : ((k.putAll a bs).bytes.read x).isSome = true := by
  induction bs generalizing k a with
  | nil => exact h
  | cons b bs ih =>
    rw [ByteSink.putAll]
    refine ih ?_
    unfold ByteSink.put
    split
    · exact h
    · split
      · exact h
      · simp only [Memory.read_write]; split <;> simp [h]

end Sys2Proof.Machine
end

