-- ==== Sys2Proof/Laws/Exec.lean ====
section
/-! SUPPORT. What the operations and the shared operations under them can do, said once. -/

namespace Sys2Proof.Machine

/-- The decode side after an operation. -/
def opDec : Instr → Decoder → Decoder
  | .rgb r g b, d => (d.advance 4).storeAndProduce ⟨r, g, b, d.ctx.prev.a⟩
  | .rgba r g b a, d => (d.advance 5).storeAndProduce ⟨r, g, b, a⟩
  | .run length, d =>
    Decoder.produce { d.advance 1 with ctx := { d.ctx with run := BitVec.ofNat 6 (length - 1) } } d.ctx.prev
  | .luma dg drg dbg, d => (d.advance 2).storeAndProduce (lumaApply d.ctx.prev dg drg dbg)
  | .diff dr dg db, d => (d.advance 1).storeAndProduce (diffApply d.ctx.prev dr dg db)
  | .index slot, d => (d.advance 1).storeAndProduce (d.ctx.lookup slot)

/-- Every operation answers a next state, and touches the decode side alone. -/
theorem exec_eq (i : Instr) (s : State) : exec i s = .next (s.withDec (opDec i s.dec)) := by
  cases i <;> rfl

/-- An operation is a non-run operation of some pixel, or RUN. -/
theorem opDec_cases (i : Instr) (d : Decoder) :
    (∃ p, opDec i d = (d.advance i.length).storeAndProduce p) ∨
    (∃ length, i = .run length ∧ opDec i d =
      Decoder.produce { d.advance 1 with ctx := { d.ctx with run := BitVec.ofNat 6 (length - 1) } } d.ctx.prev) := by
  cases i with
  | run length => exact .inr ⟨length, rfl, rfl⟩
  | rgb r g b => exact .inl ⟨_, rfl⟩
  | rgba r g b a => exact .inl ⟨_, rfl⟩
  | luma dg drg dbg => exact .inl ⟨_, rfl⟩
  | diff dr dg db => exact .inl ⟨_, rfl⟩
  | index slot => exact .inl ⟨_, rfl⟩

/-- What no operation changes, for a state whose decode side alone is another with the same unchanging fields. -/
theorem DecFrame.of_withDec {s : State} {d : Decoder} (hf : d.fault = s.dec.fault) (hn : d.n = s.dec.n)
    (hc : d.ch = s.dec.ch) (hs : d.source = s.dec.source) (hb : d.base = s.dec.base) (hp : d.phase = s.dec.phase)
    (hh : d.header = s.dec.header) : DecFrame s (s.withDec d) :=
  ⟨hf, hn, hc, by simp [hs], hb, hp, hh, rfl, rfl, fun a => by simp [hs], fun _ => rfl⟩

/-- The shared tail of the non-run operations. -/
theorem storeOp_spec (k : Nat) (p : Pixel) (s : State) : ∃ t, storeOp k p s = .next t ∧ NonRunOp s t k p :=
  ⟨_, rfl,
    { produced := ⟨rfl, rfl, rfl⟩
      stored := ⟨by simp, fun i hi => by simp [hi]⟩
      run := rfl
      bytepos := rfl
      frame := DecFrame.of_withDec rfl rfl rfl rfl rfl rfl rfl }⟩

/-- The run expander. -/
theorem expandRun_spec (s : State) (h : s.dec.ctx.run ≠ 0) :
    RepeatOp s (s.withDec s.dec.expandRun) 0 (s.dec.ctx.run.toNat - 1) := by
  refine ⟨⟨rfl, rfl, rfl⟩, fun i => by simp, ?_, rfl, DecFrame.of_withDec rfl rfl rfl rfl rfl rfl rfl⟩
  have h0 : s.dec.ctx.run.toNat ≠ 0 := fun hz => h (BitVec.eq_of_toNat_eq (by simpa using hz))
  simp only [State.withDec_dec, Decoder.expandRun_ctx, BitVec.toNat_sub]
  have := s.dec.ctx.run.isLt
  simp; omega

/-! ### Emission -/

@[simp] theorem encodeAll_nil : encodeAll [] = [] := rfl

@[simp] theorem encodeAll_cons (i : Instr) (is : List Instr) : encodeAll (i :: is) = encode i ++ encodeAll is := rfl

@[simp] theorem encodeAll_append (is js : List Instr) : encodeAll (is ++ js) = encodeAll is ++ encodeAll js := by
  simp [encodeAll]

/-- `RUN + 1` does not wrap while a run accumulates (R13). -/
theorem run_succ {r : BitVec 6} (h : r.toNat ≤ 61) : (r + 1).toNat = r.toNat + 1 := by
  simp [BitVec.toNat_add]; omega

/-- What a pixel is selected as (R95). -/
theorem selectOp_cases (c : Context) (p : Pixel) :
    (c.lookup (slotHash p) = p ∧ selectOp c p = .index (slotHash p)) ∨
    (c.lookup (slotHash p) ≠ p ∧ p.a = c.prev.a ∧ diffFits (delta p c.prev) = true ∧
      selectOp c p = .diff (delta p c.prev).1 (delta p c.prev).2.1 (delta p c.prev).2.2) ∨
    (c.lookup (slotHash p) ≠ p ∧ p.a = c.prev.a ∧ diffFits (delta p c.prev) = false ∧ lumaFits (delta p c.prev) = true ∧
      selectOp c p = .luma (delta p c.prev).2.1 ((delta p c.prev).1 - (delta p c.prev).2.1)
        ((delta p c.prev).2.2 - (delta p c.prev).2.1)) ∨
    (c.lookup (slotHash p) ≠ p ∧ p.a = c.prev.a ∧ diffFits (delta p c.prev) = false ∧ lumaFits (delta p c.prev) = false ∧
      selectOp c p = .rgb p.r p.g p.b) ∨
    (c.lookup (slotHash p) ≠ p ∧ p.a ≠ c.prev.a ∧ selectOp c p = .rgba p.r p.g p.b p.a) := by
  unfold selectOp
  simp only [cacheHit, alphaSame, beq_iff_eq]
  split
  · next h => exact .inl ⟨h, rfl⟩
  · next h =>
    split
    · next ha =>
      split
      · next hd => exact .inr (.inl ⟨h, ha, hd, rfl⟩)
      · next hd =>
        split
        · next hl => exact .inr (.inr (.inl ⟨h, ha, by simpa using hd, hl, rfl⟩))
        · next hl => exact .inr (.inr (.inr (.inl ⟨h, ha, by simpa using hd, by simpa using hl, rfl⟩)))
    · next ha => exact .inr (.inr (.inr (.inr ⟨h, ha, rfl⟩)))

end Sys2Proof.Machine
end

