-- ==== Sys2Proof/Laws/PerInstr.lean ====
section
/-! SUPPORT. Statements about every operation as syntax, one lemma per constructor. -/

namespace Sys2Proof.Laws.EncodedLength

/-- An operation's encoding has the operation's length, 1, 2, 4 or 5 bytes (spec/30_encoding.md R50, R59). -/
def Statement (i : Instr) : Prop := (encode i).length = i.length ∧ i.length ≤ maxLength ∧ 1 ≤ i.length

theorem rgb (r g b : Byte) : Statement (.rgb r g b) := by simp [Statement, encode, Instr.length, maxLength]
theorem rgba (r g b a : Byte) : Statement (.rgba r g b a) := by simp [Statement, encode, Instr.length, maxLength]
theorem run (length : Nat) : Statement (.run length) := by simp [Statement, encode, Instr.length, maxLength]
theorem luma (dg drg dbg : Int) : Statement (.luma dg drg dbg) := by simp [Statement, encode, Instr.length, maxLength]
theorem diff (dr dg db : Int) : Statement (.diff dr dg db) := by simp [Statement, encode, Instr.length, maxLength]
theorem index (slot : Slot) : Statement (.index slot) := by simp [Statement, encode, Instr.length, maxLength]

end Sys2Proof.Laws.EncodedLength
end

