-- ==== Sys2Proof/Laws/Step.lean ====
section
/-! SUPPORT. What a move of either side, an action of the host and a step of the machine can do, said once. -/

namespace Sys2Proof.Machine

/-- What a move of the bare `DEC` can be. -/
inductive CoreDecCase (d : Decoder) : Decoder → Prop
  | expand (hf : d.fault = none) (hm : d.pixpos ≠ d.n) (hr : d.ctx.run ≠ 0) :
    CoreDecCase d d.expandRun
  | op (hf : d.fault = none) (hm : d.pixpos ≠ d.n) (hr : d.ctx.run = 0) (i : Instr) (rest : List Byte)
    (hd : decode (d.fetch maxLength) = .ok (i, rest)) : CoreDecCase d (opDec i d)
  | truncated (hf : d.fault = none) (hm : d.pixpos ≠ d.n) (hr : d.ctx.run = 0)
    (he : d.source.ended = true) (k : Nat) (hd : decode (d.fetch maxLength) = .error (.truncated k)) :
    CoreDecCase d (d.raiseTruncated k)

theorem decCoreMove_cases {s : State} {o : Host.Outcome State Fault Refusal} (h : decCoreMove s = .ok o) :
    ∃ d, o = .next (s.withDec d) ∧ CoreDecCase s.dec d := by
  unfold decCoreMove at h
  split at h
  · simp at h
  · next hf =>
    have hf : s.dec.fault = none := by simpa using hf
    split at h
    · simp at h
    · next hm =>
      have hm : s.dec.pixpos ≠ s.dec.n := by simpa [Decoder.over] using hm
      split at h
      · next hr =>
        obtain rfl := Except.ok.inj h
        exact ⟨_, rfl, .expand hf hm hr⟩
      · next hr =>
        have hr : s.dec.ctx.run = 0 := by simpa using hr
        split at h
        · next i rest hd =>
          obtain rfl := Except.ok.inj h
          exact ⟨_, exec_eq i s, .op hf hm hr i rest hd⟩
        · next k hd =>
          split at h
          · next he =>
            obtain rfl := Except.ok.inj h
            exact ⟨_, rfl, .truncated hf hm hr he k hd⟩
          · simp at h

/-- What a move of the decode side can be: `DEC`'s own, or a part of `decode`. -/
inductive DecCase (d : Decoder) : Decoder → Prop
  | core {d' : Decoder} (hp : d.phase = .bare ∨ d.phase = .pixels) (h : CoreDecCase d d') : DecCase d d'
  | magic {d' : Decoder} (hp : d.phase = .magic) (h : d.readMagic = .ok d') : DecCase d d'
  | fields {d' : Decoder} (hp : d.phase = .fields) (h : d.readFields = .ok d') : DecCase d d'
  | finish {d' : Decoder} (hp : d.phase = .pixels) (h : d.finish = .ok d') : DecCase d d'

theorem wrapperMove_ok {s : State} {r : Except DecStop Decoder} {o : Host.Outcome State Fault Refusal}
    (h : wrapperMove s r = .ok o) : ∃ d, r = .ok d ∧ o = .next (s.withDec d) := by
  unfold wrapperMove at h
  split at h
  · exact ⟨_, rfl, (Except.ok.inj h).symm⟩
  · simp at h

/-- A move of the decode side answers a next state that differs in the decode side alone. -/
theorem decMove_cases {s : State} {o : Host.Outcome State Fault Refusal} (h : decMove s = .ok o) :
    ∃ d, o = .next (s.withDec d) ∧ DecCase s.dec d := by
  unfold decMove at h
  split at h
  · next hp =>
    obtain ⟨d, rfl, hc⟩ := decCoreMove_cases h
    exact ⟨d, rfl, .core (.inl hp) hc⟩
  · next hp =>
    obtain ⟨d, hr, rfl⟩ := wrapperMove_ok h
    exact ⟨d, rfl, .magic hp hr⟩
  · next hp =>
    obtain ⟨d, hr, rfl⟩ := wrapperMove_ok h
    exact ⟨d, rfl, .fields hp hr⟩
  · next hp =>
    split at h
    · obtain ⟨d, hr, rfl⟩ := wrapperMove_ok h
      exact ⟨d, rfl, .finish hp hr⟩
    · obtain ⟨d, rfl, hc⟩ := decCoreMove_cases h
      exact ⟨d, rfl, .core (.inr hp) hc⟩
  · simp at h

/-- Reading the magic changes the phase alone: on to the other fields, or `decode` is done. -/
theorem readMagic_ok {d d' : Decoder} (h : d.readMagic = .ok d') :
    ∃ p, (p = .fields ∨ ∃ r, p = .done r) ∧ d' = { d with phase := p } := by
  unfold Decoder.readMagic at h
  dsimp only at h
  split at h
  · split at h
    · exact ⟨_, .inr ⟨_, rfl⟩, (Except.ok.inj h).symm⟩
    · simp at h
  · split at h
    · exact ⟨_, .inl rfl, (Except.ok.inj h).symm⟩
    · exact ⟨_, .inr ⟨_, rfl⟩, (Except.ok.inj h).symm⟩

/-- Reading the other fields starts the stream, or `decode` is done and only the header has changed. -/
theorem readFields_ok {d d' : Decoder} (h : d.readFields = .ok d') :
    (∃ hd n ch, d' = Decoder.streamStart { d with header := hd, base := headerLength, phase := .pixels } n ch) ∨
    (∃ hd r, d' = { d with header := hd, phase := .done r }) := by
  unfold Decoder.readFields at h
  dsimp only at h
  split at h
  · split at h
    · exact .inl ⟨_, _, _, (Except.ok.inj h).symm⟩
    · exact .inr ⟨_, _, (Except.ok.inj h).symm⟩
  · split at h
    · exact .inr ⟨d.header, _, (Except.ok.inj h).symm⟩
    · simp at h

/-- Finishing `decode` changes the phase alone, to its result. -/
theorem finish_ok {d d' : Decoder} (h : d.finish = .ok d') : ∃ r, d' = { d with phase := .done r } := by
  unfold Decoder.finish at h
  split at h
  · exact ⟨_, (Except.ok.inj h).symm⟩
  · unfold Decoder.checkMarker at h
    dsimp only at h
    split at h
    · exact ⟨_, (Except.ok.inj h).symm⟩
    · split at h
      · simp at h
      · exact ⟨_, (Except.ok.inj h).symm⟩

/-- What a step of `ENC` does on a pixel: the bytes of `encodePixel`'s operations leave, or the sink refuses one. -/
theorem Encoder.step_cases (e : Encoder) (p : Pixel) :
    ((e.sink.putAll (e.base + e.outpos) (encodeAll (encodePixel e.last e.ctx p).2)).failed = false ∧
      e.step p =
        { e with
          ctx := (encodePixel e.last e.ctx p).1
          sink := e.sink.putAll (e.base + e.outpos) (encodeAll (encodePixel e.last e.ctx p).2)
          outpos := e.outpos + (encodeAll (encodePixel e.last e.ctx p).2).length
          pixpos := e.pixpos + 1 }) ∨
    ((e.sink.putAll (e.base + e.outpos) (encodeAll (encodePixel e.last e.ctx p).2)).failed = true ∧
      e.step p =
        { e with sink := e.sink.putAll (e.base + e.outpos) (encodeAll (encodePixel e.last e.ctx p).2) }) := by
  unfold Encoder.step
  dsimp only
  split
  · next h => exact .inr ⟨h, rfl⟩
  · next h => exact .inl ⟨by simpa using h, rfl⟩

/-- What a move of the bare `ENC` can be. -/
theorem Encoder.coreMove_ok {e e' : Encoder} (h : e.coreMove = .ok e') :
    ∃ p, e.fault = none ∧ e.pixpos ≠ e.n ∧ e.sink.failed = false ∧ e.nextPixel = some p ∧ e' = e.step p := by
  unfold Encoder.coreMove at h
  split at h
  · simp at h
  · next hf =>
    split at h
    · simp at h
    · next hm =>
      split at h
      · simp at h
      · next hk =>
        split at h
        · next p hp =>
          exact ⟨p, by simpa using hf, by simpa [Encoder.over] using hm, by simpa using hk, hp, (Except.ok.inj h).symm⟩
        · simp at h

/-- What the sink's answer makes of the encode side. -/
theorem Encoder.afterPut_cases (e : Encoder) (k : ByteSink) (next : Encoder → Encoder) :
    (k.failed = true ∧ e.afterPut k next = { e with sink := k, phase := .done (.failed .sinkFailure) }) ∨
    (k.failed = false ∧ e.afterPut k next = next { e with sink := k }) := by
  unfold Encoder.afterPut
  split
  · next h => exact .inl ⟨h, rfl⟩
  · next h => exact .inr ⟨by simpa using h, rfl⟩

/-- What a move of the encode side can be. -/
inductive EncCase (e : Encoder) : Encoder → Prop
  | core (p : Pixel) (hp : e.phase = .bare ∨ e.phase = .pixels) (hf : e.fault = none) (hm : e.pixpos ≠ e.n)
    (hk : e.sink.failed = false) (hx : e.nextPixel = some p) : EncCase e (e.step p)
  | header (hp : e.phase = .header) (ch : ChannelCount) (hc : channelCount e.header.channels = some ch)
    (hk : (e.sink.putAll 0 (headerBytes e.header)).failed = false) :
    EncCase e (Encoder.streamStart
      { e with sink := e.sink.putAll 0 (headerBytes e.header), base := headerLength, phase := .pixels }
      e.header.pixelCount ch)
  | marker (hp : e.phase = .pixels) (hm : e.pixpos = e.n)
    (hk : (e.sink.putAll (e.base + e.outpos) endMarker).failed = false) :
    EncCase e { e with sink := e.sink.putAll (e.base + e.outpos) endMarker, phase := .done .success }
  | failed (a : Nat) (bs : List Byte) (r : EncodeResult) (hr : r ≠ .success)
    (ha : bs = [] ∨ e.phase = .header ∨ a = e.base + e.outpos) :
    EncCase e { e with sink := e.sink.putAll a bs, phase := .done r }

theorem Encoder.move_cases {e e' : Encoder} (h : e.move = .ok e') : EncCase e e' := by
  unfold Encoder.move at h
  split at h
  · next hp =>
    obtain ⟨p, hf, hm, hk, hx, rfl⟩ := Encoder.coreMove_ok h
    exact .core p (.inl hp) hf hm hk hx
  · next hp =>
    obtain rfl := Except.ok.inj h
    unfold Encoder.writeHeader
    split
    · next ch hc =>
      rcases e.afterPut_cases (e.sink.putAll 0 (headerBytes e.header)) (fun e' =>
        Encoder.streamStart { e' with base := headerLength, phase := .pixels } e.header.pixelCount ch) with
        ⟨_, h2⟩ | ⟨h1, h2⟩
      · rw [h2]; exact .failed 0 _ _ (by simp) (.inr (.inl hp))
      · rw [h2]; exact .header hp ch hc h1
    · exact .failed 0 [] _ (by simp) (.inl rfl)
  · next hp =>
    split at h
    · obtain rfl := Except.ok.inj h
      exact .failed 0 [] _ (by simp) (.inl rfl)
    · split at h
      · next hm =>
        obtain rfl := Except.ok.inj h
        unfold Encoder.writeMarker
        rcases e.afterPut_cases (e.sink.putAll (e.base + e.outpos) endMarker)
          (fun e' => { e' with phase := .done .success }) with ⟨_, h2⟩ | ⟨h1, h2⟩
        · rw [h2]; exact .failed _ _ _ (by simp) (.inr (.inr rfl))
        · rw [h2]; exact .marker hp (by simpa [Encoder.over] using hm) h1
      · obtain ⟨p, hf, hm, hk, hx, rfl⟩ := Encoder.coreMove_ok h
        exact .core p (.inr hp) hf hm hk hx
  · simp at h

/-- Every next state an action of the host can give. -/
theorem hostAct_cases {a : HostAction} {s t : State} (h : hostAct a s = .next t) :
    (∃ n ch, t = { s with enc := Encoder.fresh n ch }) ∨ (∃ n ch, t = { s with dec := Decoder.fresh n ch }) ∨
    (∃ p, t = { s with enc := { s.enc with pixels := s.enc.pixels ++ [p] } }) ∨
    (∃ b, s.dec.source.ended = false ∧ t = { s with dec := { s.dec with source := { s.dec.source with bytes := s.dec.source.bytes.write s.dec.source.bytes.endOffset b } } }) ∨
    (t = { s with dec := { s.dec with source := { s.dec.source with ended := true } } }) ∨
    (∃ limit, t = { s with enc := { s.enc with sink := { s.enc.sink with limit := limit } } }) ∨
    (∃ h, t = { s with enc := s.enc.openFile h }) ∨
    (t = { s with dec := s.dec.openFile }) := by
  cases a with
  | startEnc n c =>
    simp only [hostAct] at h
    split at h
    · exact .inl ⟨_, _, (Host.Outcome.next.inj h).symm⟩
    · simp at h
  | startDec n c =>
    simp only [hostAct] at h
    split at h
    · exact .inr (.inl ⟨_, _, (Host.Outcome.next.inj h).symm⟩)
    · simp at h
  | resetEnc => exact .inl ⟨_, _, (Host.Outcome.next.inj h).symm⟩
  | resetDec => exact .inr (.inl ⟨_, _, (Host.Outcome.next.inj h).symm⟩)
  | deliverPixel p => exact .inr (.inr (.inl ⟨_, (Host.Outcome.next.inj h).symm⟩))
  | deliverByte b =>
    simp only [hostAct] at h
    split at h
    · simp at h
    · next he => exact .inr (.inr (.inr (.inl ⟨b, by simpa using he, (Host.Outcome.next.inj h).symm⟩)))
  | endBytes => exact .inr (.inr (.inr (.inr (.inl (Host.Outcome.next.inj h).symm))))
  | limitSink l => exact .inr (.inr (.inr (.inr (.inr (.inl ⟨_, (Host.Outcome.next.inj h).symm⟩)))))
  | encodeFile l => exact .inr (.inr (.inr (.inr (.inr (.inr (.inl ⟨_, (Host.Outcome.next.inj h).symm⟩))))))
  | decodeFile => exact .inr (.inr (.inr (.inr (.inr (.inr (.inr (Host.Outcome.next.inj h).symm))))))

/-- What the context becomes in an encoder step, and the operations it emits (R91): the run grows, the run is flushed, or a
non-run operation is selected. -/
theorem encodePixel_cases (last : Bool) (c : Context) (p : Pixel) :
    (p = c.prev ∧ (c.run + 1).toNat ≠ 62 ∧ last = false ∧ encodePixel last c p = ({ c with run := c.run + 1, prev := p }, [])) ∨
    (p = c.prev ∧ ((c.run + 1).toNat = 62 ∨ last = true) ∧
      encodePixel last c p = ({ c with run := 0, prev := p }, [.run (c.run + 1).toNat])) ∨
    (p ≠ c.prev ∧ encodePixel last c p = ({ c.remember p with run := 0, prev := p }, pendingRun c ++ [selectOp c p])) := by
  unfold encodePixel
  split
  · next hp =>
    dsimp only
    split
    · next h => exact .inr (.inl ⟨hp, by simpa [Config.runMax] using h, rfl⟩)
    · next h =>
      simp only [Config.runMax, not_or] at h
      exact .inl ⟨hp, h.1, by simpa using h.2, rfl⟩
  · next hp => exact .inr (.inr ⟨hp, rfl⟩)

/-- What a step of the machine can be, with the events left behind it. -/
inductive StepCase (s : State) : State → Prop
  | dec (d : Decoder) (vs : List Event) (hv : DecTurn s vs) (h : DecCase s.dec d) :
    StepCase s { s with dec := d, agenda := vs }
  | enc (e : Encoder) (vs : List Event) (hv : s.agenda = .enc :: vs ∨ (s.agenda = [] ∧ vs = [])) (h : EncCase s.enc e) :
    StepCase s { s with enc := e, agenda := vs }
  | skip (v : Event) (vs : List Event) (hv : s.agenda = v :: vs) : StepCase s { s with agenda := vs }
  | host (a : HostAction) (vs : List Event) (hv : s.agenda = .host a :: vs) (t : State)
    (h : hostAct a { s with agenda := vs } = .next t) : StepCase s t

/-- Everything a step that answers a next state can have done. -/
theorem step_cases {s t : State} (h : step s = .next t) : StepCase s t := by
  unfold step at h
  split at h
  · next v vs hv =>
    cases v with
    | host a => exact .host a vs hv t h
    | dec =>
      simp only [takeEvent, decTurn] at h
      split at h
      · next o ho =>
        obtain ⟨d, rfl, hc⟩ := decMove_cases ho
        obtain rfl := Host.Outcome.next.inj h
        exact .dec d vs (.inl hv) hc
      · obtain rfl := Host.Outcome.next.inj h
        exact .skip _ vs hv
    | enc =>
      simp only [takeEvent, encTurn] at h
      split at h
      · next e he =>
        obtain rfl := Host.Outcome.next.inj h
        exact .enc e vs (.inl hv) (Encoder.move_cases he)
      · obtain rfl := Host.Outcome.next.inj h
        exact .skip _ vs hv
  · next hv =>
    unfold freeMove at h
    split at h
    · next o ho =>
      obtain ⟨d, rfl, hc⟩ := decMove_cases ho
      obtain rfl := Host.Outcome.next.inj h
      have hs : s.withDec d = { s with dec := d, agenda := [] } := by simp only [State.withDec, hv]
      rw [hs]
      exact .dec d [] (.inr ⟨hv, rfl⟩) hc
    · split at h
      · next e he =>
        obtain rfl := Host.Outcome.next.inj h
        have hs : { s with enc := e } = { s with enc := e, agenda := [] } := by simp only [hv]
        rw [hs]
        exact .enc e [] (.inr ⟨hv, rfl⟩) (Encoder.move_cases he)
      · simp at h

end Sys2Proof.Machine
end

