-- ==== Sys2Proof/Laws/Turns.lean ====
section
/-! SUPPORT. Turns in the forward direction: when a side has a move and what the step then is, and runs over a list of events.
These are the facts a completion proof starts from. -/

namespace Sys2Proof.Machine

/-! ### The decode side's move depends on the decode side alone -/

/-- A decode move on one state is the same move on any state with the same decode side. -/
theorem decMove_congr (s : State) (e : Encoder) (vs : List Event) :
    decMove { s with enc := e, agenda := vs } =
      match decMove s with
      | .ok (.next t) => .ok (.next { t with enc := e, agenda := vs })
      | r => r := by
  cases hr : decMove s with
  | ok o =>
    obtain ⟨d, rfl, -⟩ := decMove_cases hr
    revert hr
    simp only [decMove, decCoreMove, wrapperMove, State.withDec, exec_eq]
    split <;> intro hr <;> (repeat' split at hr) <;> simp_all
  | error x =>
    revert hr
    simp only [decMove, decCoreMove, wrapperMove, State.withDec, exec_eq]
    split <;> intro hr <;> (repeat' split at hr) <;> simp_all

/-- A decode move leaves the encode side and the events alone. -/
theorem decMove_frame {s t : State} (h : decMove s = .ok (.next t)) : t.enc = s.enc ∧ t.agenda = s.agenda := by
  obtain ⟨d, hd, -⟩ := decMove_cases h
  cases hd
  exact ⟨rfl, rfl⟩

/-! ### A turn is a step -/

/-- With the decode side's turn, the step is the decode move. -/
theorem step_decTurn {s : State} {vs : List Event} (h : DecTurn s vs) {o : Host.Outcome State Fault Refusal}
    (ho : decMove { s with agenda := vs } = .ok o) : step s = o := by
  unfold step
  obtain h | ⟨h, rfl⟩ := h
  · rw [h]
    simp [takeEvent, decTurn, ho]
  · have hs : { s with agenda := [] } = s := by cases s; cases h; rfl
    rw [hs] at ho
    rw [h]
    simp [freeMove, ho]

/-- With the encode side's turn, the step is the encode move, or nothing. -/
theorem step_encTurn (s : State) (vs : List Event) :
    step { s with agenda := .enc :: vs } =
      match s.enc.move with
      | .ok e => .next { s with enc := e, agenda := vs }
      | .error _ => .next { s with agenda := vs } := by
  cases h : s.enc.move <;> simp [step, takeEvent, encTurn, h]

/-! ### When `ENC` has a step -/

/-- A ready encode side takes its step. -/
theorem Encoder.move_of_ready {e : Encoder} {p : Pixel} (h : EncReady e p) :
    e.move = .ok
      { e with
        ctx := (encodePixel e.last e.ctx p).1
        sink := { e.sink with bytes := e.sink.bytes.writeAll (e.base + e.outpos) (encodeAll (encodePixel e.last e.ctx p).2) }
        outpos := e.outpos + (encodeAll (encodePixel e.last e.ctx p).2).length
        pixpos := e.pixpos + 1 } := by
  have hlen : (encodeAll (encodePixel e.last e.ctx p).2).length ≤ 6 := by
    have h5 : (selectOp e.ctx p).length ≤ 5 := by cases selectOp e.ctx p <;> simp [Instr.length]
    unfold encodePixel pendingRun
    dsimp only
    split
    · split <;> simp [show ∀ n, (Instr.run n).length = 1 from fun _ => rfl]
    · split <;> simp [show ∀ n, (Instr.run n).length = 1 from fun _ => rfl] <;> omega
  have hopen := ByteSink.putAll_open (a := e.base + e.outpos) (bs := encodeAll (encodePixel e.last e.ctx p).2) h.open_
    (fun k hk => h.room k (by omega))
  have hcore : e.coreMove = .ok (e.step p) := by
    unfold Encoder.coreMove Encoder.over
    simp [h.fault, h.open_, h.more, h.pixel]
  have hmove : e.move = .ok (e.step p) := by
    unfold Encoder.move
    obtain hp | hp := h.phase
    · rw [hp]
      exact hcore
    · rw [hp]
      simp [h.open_, Encoder.over, h.more, hcore]
  rw [hmove]
  unfold Encoder.step
  simp [hopen, h.open_]

/-! ### Runs over a list of events -/

/-- No events: nothing happens but that the other events are put aside. -/
@[simp] theorem runEvents_nil (s : State) : runEvents [] s = .next { s with agenda := [] } := rfl

/-- One event, then the rest on the state it leaves. -/
theorem runEvents_cons {v : Event} {vs : List Event} {s t : State}
    (h : takeEvent v { s with agenda := vs } = .next t) (ha : t.agenda = vs) :
    runEvents (v :: vs) s = runEvents vs t := by
  subst ha
  have hs : Sys2Proof.core.step { s with agenda := v :: t.agenda } = .next t := h
  have hk : ∀ k, Sys2Proof.core.run (k + 1) { s with agenda := v :: t.agenda } = Sys2Proof.core.run k t := by
    intro k
    simp only [Host.Core.run]
    rw [hs]
  exact hk t.agenda.length

end Sys2Proof.Machine
end

