-- ==== Sys2Proof/Tests/Slice0.lean ====
section
/-! SUPPORT. Tests of the model. Expected results come from spec/95_test_vectors.md (named S, V-D, V-E, V-X, P, W as there) or are
worked out by hand from the layouts of spec/30_encoding.md. The last section shows, for each statement with hypotheses, that
something meets them. -/

namespace Sys2Proof.Tests

open Sys2Proof Sys2Proof.Machine

/-- What is seen of an outcome that is a next state. -/
def seen {α : Type} (o : Host.Outcome State Fault Refusal) (f : State → α) : Option α :=
  match o with
  | .next s => some (f s)
  | .fault _ => none
  | .refused _ => none

/-- A fresh context with another `PREV` and some slots filled. -/
def contextOf (prev : Pixel) (cells : List (Slot × Pixel)) : Context :=
  cells.foldl (fun c x => c.store x.1 x.2) { Context.init with prev := prev }

/-- A decode side on the given bytes, whose source has ended, with `N = n`. -/
def decoderOn (n : Nat) (ch : ChannelCount) (c : Context) (bs : List Byte) : State :=
  { State.reset with dec :=
    { Decoder.fresh n ch with ctx := c, source := ⟨Memory.writeAll [] 0 bs, true⟩ } }

/-- An encode side on the given pixels, about to process the first of them as pixel `at_` of `n`. -/
def encoderOn (n at_ : Nat) (ch : ChannelCount) (c : Context) (ps : List Pixel) : Encoder :=
  { Encoder.fresh n ch with ctx := c, pixpos := at_, pixels := List.replicate at_ c.prev ++ ps }

/-- The context, and the bytes in the sink, after one move of an encode side. -/
def encoderSeen (e : Encoder) : Option (Context × List Byte) :=
  match e.move with
  | .ok e' => some (e'.ctx, e'.sink.contents)
  | .error _ => none

/-- The operations' bytes `ENC` selects for `cur` behind `prev` without a hit. -/
def selected (prev cur : Pixel) : List Byte := encode (selectOp (contextOf prev []) cur)

/-! ### Well-formedness (R56): each check refuses an ill-formed term -/

theorem test_wf_run_length_at_least_one : (Instr.run 0).wf = false := by decide
theorem test_wf_run_length_at_most_62 : (Instr.run 63).wf = false := by decide
theorem test_wf_run_bounds : (Instr.run 1).wf = true ∧ (Instr.run 62).wf = true := by decide
theorem test_wf_luma_dg : (Instr.luma (-33) 0 0).wf = false ∧ (Instr.luma 32 0 0).wf = false := by decide
theorem test_wf_luma_drg : (Instr.luma 0 (-9) 0).wf = false ∧ (Instr.luma 0 8 0).wf = false := by decide
theorem test_wf_luma_dbg : (Instr.luma 0 0 (-9)).wf = false ∧ (Instr.luma 0 0 8).wf = false := by decide
theorem test_wf_luma_bounds : (Instr.luma (-32) (-8) (-8)).wf = true ∧ (Instr.luma 31 7 7).wf = true := by decide
theorem test_wf_diff_dr : (Instr.diff (-3) 0 0).wf = false ∧ (Instr.diff 2 0 0).wf = false := by decide
theorem test_wf_diff_dg : (Instr.diff 0 (-3) 0).wf = false ∧ (Instr.diff 0 2 0).wf = false := by decide
theorem test_wf_diff_db : (Instr.diff 0 0 (-3)).wf = false ∧ (Instr.diff 0 0 2).wf = false := by decide
theorem test_wf_diff_bounds : (Instr.diff (-2) (-2) (-2)).wf = true ∧ (Instr.diff 1 1 1).wf = true := by decide

/-! ### Decoding: words written out from R51 to R55 -/

/-- R51: `00 slot`, slot 4 (P1), slot 9 (V-E5), slot 63. -/
theorem test_decode_index :
    decode [0b00000100] = .ok (.index 4, []) ∧ decode [0b00001001] = .ok (.index 9, []) ∧
      decode [0b00111111] = .ok (.index 63, []) := by decide

/-- R52: `01 dr+2 dg+2 db+2`. V-D20, V-D21, V-D22 and one word with three different fields. -/
theorem test_decode_diff :
    decode [0b01111111] = .ok (.diff 1 1 1, []) ∧ decode [0b01010101] = .ok (.diff (-1) (-1) (-1), []) ∧
      decode [0b01000000] = .ok (.diff (-2) (-2) (-2), []) ∧ decode [0b01011100] = .ok (.diff (-1) 1 (-2), []) := by
  decide

/-- R53: `10 dg+32`, then `drg+8 dbg+8`. V-D25, V-D26, V-D27 and one word with three different fields. -/
theorem test_decode_luma :
    decode [0b10101011, 0b01111001] = .ok (.luma 11 (-1) 1, []) ∧
      decode [0b10000000, 0b00000000] = .ok (.luma (-32) (-8) (-8), []) ∧
      decode [0b10111111, 0b11111111] = .ok (.luma 31 7 7, []) ∧
      decode [0b10111111, 0b11110000] = .ok (.luma 31 7 (-8), []) := by decide

/-- R54: `11 length-1`. -/
theorem test_decode_run :
    decode [0b11000000] = .ok (.run 1, []) ∧ decode [0b11001001] = .ok (.run 10, []) ∧
      decode [0b11111101] = .ok (.run 62, []) := by decide

/-- R55, V-X15: `FE` is RGB and `FF` is RGBA, not runs of 63 and 64. -/
theorem test_decode_rgb_rgba :
    decode [0b11111110, 0x0A, 0x14, 0x1E, 7] = .ok (.rgb 10 20 30, [7]) ∧
      decode [0b11111111, 0x0A, 0x14, 0x1E, 0x80, 7] = .ok (.rgba 10 20 30 128, [7]) := by decide

/-- R60: the one rejection, by name. -/
theorem test_decode_short :
    decode [] = .error (.truncated 0) ∧ decode [0xFE, 1, 2] = .error (.truncated 3) ∧
      decode [0xFF, 1, 2, 3] = .error (.truncated 4) ∧ decode [0x80] = .error (.truncated 1) := by decide

/-- The encoder on the operations of P1 and P2, against their streams. -/
theorem test_encode_p1 :
    assemble [.op (.run 2), .op (.diff 1 1 1), .op (.rgb 10 20 30), .op (.rgba 10 20 30 128), .op (.index 4),
        .op (.rgb 200 100 50), .op (.run 1)] =
      [0xC1, 0x7F, 0xFE, 0x0A, 0x14, 0x1E, 0xFF, 0x0A, 0x14, 0x1E, 0x80, 0x04, 0xFE, 0xC8, 0x64, 0x32, 0xC0] := by
  decide
theorem test_encode_luma :
    encode (.luma 5 0 0) = [0xA5, 0x88] ∧ encode (.luma (-12) 0 0) = [0x94, 0x88] ∧
      encode (.luma 1 1 (-2)) = [0xA1, 0x96] := by decide

/-- The table's words: `C0` as RUN 1, `FE` with its three operand bytes zero, and RGBA from its low byte alone. -/
theorem test_table_words :
    decodeTableWord 8 0xC0 = some (.run 1) ∧ decodeTableWord 32 0x1E140AFE = some (.rgb 10 20 30) ∧
      decodeTableWord 8 0xFF = some (.rgba 0 0 0 0) ∧ decodeTableWord 16 0x88A5 = some (.luma 5 0 0) := by decide

/-! ### The cache and the delta unit -/

/-- Section 2.1: hashes. -/
theorem test_hash :
    slotHash ⟨1, 0, 0, 0⟩ = 3 ∧ slotHash ⟨0, 1, 0, 0⟩ = 5 ∧ slotHash ⟨0, 0, 1, 0⟩ = 7 ∧ slotHash ⟨0, 0, 0, 1⟩ = 11 ∧
      slotHash ⟨12, 34, 56, 78⟩ = 48 ∧ slotHash ⟨255, 255, 255, 255⟩ = 38 := by decide

/-- V-D1 to V-D12: what is emitted for a difference without a hit. -/
theorem test_selected :
    selected ⟨1, 1, 1, 255⟩ ⟨2, 2, 2, 255⟩ = [0x7F] ∧ selected ⟨1, 1, 1, 255⟩ ⟨255, 255, 255, 255⟩ = [0x40] ∧
    selected ⟨255, 0, 255, 255⟩ ⟨0, 255, 0, 255⟩ = [0x77] ∧ selected ⟨1, 1, 1, 255⟩ ⟨3, 2, 2, 255⟩ = [0xA1, 0x98] ∧
    selected ⟨1, 1, 1, 255⟩ ⟨254, 255, 255, 255⟩ = [0x9E, 0x78] ∧
    selected ⟨100, 100, 100, 255⟩ ⟨138, 131, 123, 255⟩ = [0xBF, 0xF0] ∧
    selected ⟨100, 100, 100, 255⟩ ⟨60, 68, 60, 255⟩ = [0x80, 0x00] ∧
    selected ⟨100, 100, 100, 255⟩ ⟨139, 132, 124, 255⟩ = [0xFE, 0x8B, 0x84, 0x7C] ∧
    selected ⟨100, 100, 100, 255⟩ ⟨139, 131, 123, 255⟩ = [0xFE, 0x8B, 0x83, 0x7B] ∧
    selected ⟨100, 100, 100, 255⟩ ⟨59, 67, 59, 255⟩ = [0xFE, 0x3B, 0x43, 0x3B] ∧
    selected ⟨100, 100, 100, 255⟩ ⟨60, 68, 59, 255⟩ = [0xFE, 0x3C, 0x44, 0x3B] ∧
    selected ⟨250, 250, 250, 255⟩ ⟨4, 5, 6, 255⟩ = [0xAB, 0x79] := by decide

/-- V-D12 in the other reading of D3: the difference is not wrapped and does not fit. -/
theorem test_plain_difference :
    deltaWith false ⟨4, 5, 6, 255⟩ ⟨250, 250, 250, 255⟩ = (-246, -245, -244) ∧
      delta ⟨4, 5, 6, 255⟩ ⟨250, 250, 250, 255⟩ = (10, 11, 12) := by decide

/-- The pixel word (R25) and a 3-channel buffer (R48). -/
theorem test_pixel_layouts :
    pixelWord ⟨0x12, 0x34, 0x56, 0x78⟩ = 0x12345678 ∧
      bufferPixels .three [1, 2, 3, 4, 5, 6] = [⟨1, 2, 3, 255⟩, ⟨4, 5, 6, 255⟩] := by decide

/-! ### Decoder steps -/

/-- V-X1: the alpha is `PREV`'s, slot 35 is written, `BYTEPOS = 4`. -/
theorem test_step_rgb :
    seen (step (decoderOn 1 .four (contextOf ⟨1, 1, 1, 77⟩ []) [0xFE, 10, 20, 30]))
      (fun s => (s.dec.ctx.prev, s.dec.ctx.lookup 35, s.dec.bytepos, s.dec.out)) =
      some (⟨10, 20, 30, 77⟩, ⟨10, 20, 30, 77⟩, 4, [.rgba 10 20 30 77]) := by decide

/-- V-X2 and the first step of V-X14: with `CH = 3` the alpha stays inside. -/
theorem test_step_rgba :
    seen (step (decoderOn 1 .four (contextOf ⟨1, 1, 1, 77⟩ []) [0xFF, 10, 20, 30, 128]))
      (fun s => (s.dec.ctx.lookup 20, s.dec.bytepos, s.dec.out)) =
      some (⟨10, 20, 30, 128⟩, 5, [.rgba 10 20 30 128]) ∧
    seen (step (decoderOn 2 .three Context.init [0xFF, 1, 2, 3, 4]))
      (fun s => (s.dec.ctx.prev, s.dec.ctx.lookup 14, s.dec.out)) =
      some (⟨1, 2, 3, 4⟩, ⟨1, 2, 3, 4⟩, [.rgb 1 2 3]) := by decide

/-- V-X4: a RUN of 62 leaves `RUN = 61` and stores nothing. -/
theorem test_step_run :
    seen (step (decoderOn 99 .four Context.init [0xFD]))
      (fun s => (s.dec.ctx.run, decide (s.dec.ctx.cache = Context.init.cache), s.dec.bytepos, s.dec.out)) =
      some (61, true, 1, [OutPixel.rgba 0 0 0 255]) := by decide

/-- R122: the run expander reads no byte. -/
theorem test_step_expand :
    seen (step (decoderOn 9 .four { contextOf ⟨5, 6, 7, 8⟩ [] with run := 2 } []))
      (fun s => (s.dec.ctx.run, s.dec.pixpos, s.dec.bytepos, s.dec.out, s.dec.fault)) =
      some (1, 1, 0, [.rgba 5 6 7 8], none) := by decide

/-- V-D25 (wraps) and V-D27 (alpha kept). -/
theorem test_step_luma :
    seen (step (decoderOn 1 .four (contextOf ⟨250, 250, 250, 255⟩ []) [0xAB, 0x79]))
      (fun s => (s.dec.ctx.prev, s.dec.ctx.lookup 4, s.dec.bytepos)) = some (⟨4, 5, 6, 255⟩, ⟨4, 5, 6, 255⟩, 2) ∧
    seen (step (decoderOn 1 .four (contextOf ⟨250, 250, 250, 9⟩ []) [0xBF, 0xFF])) (fun s => s.dec.ctx.prev) =
      some ⟨32, 25, 32, 9⟩ := by decide

/-- S6 (wraps) and V-X7 (a zero DIFF stores). -/
theorem test_step_diff :
    seen (step (decoderOn 1 .four Context.init [0x55])) (fun s => s.dec.out) = some [.rgba 255 255 255 255] ∧
    seen (step (decoderOn 1 .four Context.init [0x6A])) (fun s => (s.dec.ctx.lookup 53, s.dec.bytepos)) =
      some (⟨0, 0, 0, 255⟩, 1) := by decide

/-- V-X10: INDEX of a slot never stored to overwrites slot 0. -/
theorem test_step_index :
    seen (step (decoderOn 1 .four (contextOf ⟨0, 0, 0, 255⟩ [(0, ⟨64, 0, 0, 0⟩)]) [0x05]))
      (fun s => (s.dec.ctx.prev, s.dec.ctx.lookup 0, s.dec.ctx.lookup 5)) =
      some (⟨0, 0, 0, 0⟩, ⟨0, 0, 0, 0⟩, ⟨0, 0, 0, 0⟩) ∧
    seen (step (decoderOn 1 .four (contextOf ⟨10, 20, 30, 128⟩ [(4, ⟨1, 1, 1, 255⟩)]) [0x04]))
      (fun s => s.dec.out) = some [.rgba 1 1 1 255] := by decide

/-- V-X12, its second step: `BYTEPOS` is left at the missing byte; V-X13, its third. -/
theorem test_step_truncated :
    seen (step (decoderOn 2 .four Context.init [0xFE, 1, 2]))
      (fun s => (s.dec.fault, s.dec.bytepos, s.dec.pixpos, s.dec.out)) =
      some (some (.truncatedStream 3), 3, 0, []) ∧
    seen (step (decoderOn 2 .four Context.init [])) (fun s => (s.dec.fault, s.dec.bytepos)) =
      some (some (.truncatedStream 0), 0) := by decide

/-- Each row of the table, placed in the reset state, is the very next instruction run. -/
theorem test_withFetchWord :
    seen (step (State.reset.withFetchWord 32 0x1E140AFE)) (fun s => s.dec.out) = some [.rgba 10 20 30 255] ∧
    seen (step (State.reset.withFetchWord 40 0x801E140AFF)) (fun s => s.dec.out) = some [.rgba 10 20 30 128] ∧
    seen (step (State.reset.withFetchWord 8 0xC1)) (fun s => (s.dec.out, s.dec.ctx.run)) = some ([.rgba 0 0 0 255], 1) ∧
    seen (step (State.reset.withFetchWord 16 0x88A5)) (fun s => s.dec.out) = some [.rgba 5 5 5 255] ∧
    seen (step (State.reset.withFetchWord 8 0x7F)) (fun s => s.dec.out) = some [.rgba 1 1 1 255] ∧
    seen (step (State.reset.withFetchWord 8 0x05)) (fun s => s.dec.out) = some [.rgba 0 0 0 0] := by decide

/-! ### Encoder steps -/

/-- V-E2, third step: six bytes, the flush first; slot 54 is written. -/
theorem test_encode_flush :
    (encoderSeen (encoderOn 9 2 .four { Context.init with run := 2 } [⟨9, 8, 7, 6⟩])).map
      (fun x => (x.2, x.1.run, x.1.lookup 54)) =
      some ([0xC1, 0xFF, 9, 8, 7, 6], 0, ⟨9, 8, 7, 6⟩) := by decide

/-- V-E1 first step, V-E3 step 61, V-E4 last step. -/
theorem test_encode_run :
    (encoderSeen (encoderOn 3 0 .four Context.init [⟨0, 0, 0, 255⟩])).map (fun x => (x.2, x.1.run)) = some ([], 1) ∧
    (encoderSeen (encoderOn 63 61 .four { Context.init with run := 61 } [⟨0, 0, 0, 255⟩])).map
      (fun x => (x.2, x.1.run)) = some ([0xFD], 0) ∧
    (encoderSeen (encoderOn 61 60 .four { Context.init with run := 60 } [⟨0, 0, 0, 255⟩])).map
      (fun x => (x.2, x.1.run)) = some ([0xFC], 0) := by decide

/-- V-E14 (a hit), V-E6 third step (a collision, no hit), V-E7 (slot 0 is hit before anything was stored), V-E12 (alpha). -/
theorem test_encode_select :
    (encoderSeen (encoderOn 9 0 .four (contextOf ⟨10, 20, 30, 128⟩ [(4, ⟨1, 1, 1, 255⟩)]) [⟨1, 1, 1, 255⟩])).map
      Prod.snd = some [0x04] ∧
    (encoderSeen (encoderOn 9 0 .four (contextOf ⟨74, 20, 30, 255⟩ [(9, ⟨74, 20, 30, 255⟩)]) [⟨10, 20, 30, 255⟩])).map
      Prod.snd = some [0xFE, 0x0A, 0x14, 0x1E] ∧
    (encoderSeen (encoderOn 9 0 .four Context.init [⟨0, 0, 0, 0⟩])).map Prod.snd = some [0x00] ∧
    (encoderSeen (encoderOn 9 0 .four (contextOf ⟨10, 20, 30, 255⟩ []) [⟨10, 20, 30, 254⟩])).map Prod.snd =
      some [0xFF, 0x0A, 0x14, 0x1E, 0xFE] := by decide

/-- V-E13, first step: with `CH = 3` the alpha lane is ignored, with `CH = 4` it is not. -/
theorem test_encode_alpha_lane :
    (encoderSeen (encoderOn 3 0 .three Context.init [⟨1, 1, 1, 7⟩])).map Prod.snd = some [0x7F] ∧
    (encoderSeen (encoderOn 3 0 .four Context.init [⟨1, 1, 1, 7⟩])).map Prod.snd = some [0xFF, 1, 1, 1, 7] := by decide

/-- Where the machine stands after steps from the reset state with the given events. -/
def runFrom (vs : List Event) : State :=
  match runEvents vs State.reset with
  | .next s => s
  | _ => State.reset

/-- Both sides at work: `DEC` and `ENC` have each produced a pixel, and each has another to do. -/
def working : State :=
  runFrom [.host (.startDec 2 4), .host (.deliverByte 0x7F), .host (.deliverByte 0xC0), .host (.startEnc 2 4),
    .host (.deliverPixel ⟨1, 1, 1, 255⟩), .host (.deliverPixel ⟨1, 1, 1, 255⟩), .dec, .enc]

/-! ### The wrapper -/

/-- W1's header, and W4's width 300. -/
theorem test_header :
    headerBytes ⟨2, 2, 4, 0⟩ = [0x71, 0x6F, 0x69, 0x66, 0, 0, 0, 2, 0, 0, 0, 2, 4, 0] ∧
      u32be 300 = [0, 0, 1, 0x2C] := by decide

/-- A decode side of the wrapper in a phase, on an ended source. -/
def decodeIn (phase : DecodePhase) (bs : List Byte) : State :=
  { State.reset with dec := { Decoder.fresh 0 .four with phase := phase, source := ⟨Memory.writeAll [] 0 bs, true⟩ } }

/-- What `decode` has returned, without the header. -/
def returnedOf (s : State) : Option (Option (List OutPixel) × Option ErrorKind) :=
  s.dec.returned.map fun x => (x.1.map Prod.snd, x.2)

/-- W5: "qoig"; W6: channels 5. -/
theorem test_decode_header_errors :
    seen (step (decodeIn .magic [0x71, 0x6F, 0x69, 0x67])) returnedOf = some (some (none, some .invalidMagic)) ∧
    seen (step (decodeIn .fields [0x71, 0x6F, 0x69, 0x66, 0, 0, 0, 1, 0, 0, 0, 1, 5, 0])) returnedOf =
      some (some (none, some (.unsupportedChannelCount 5))) := by decide

/-- W6: a marker of seven bytes; W7: a wrong last byte. -/
theorem test_decode_marker_errors :
    seen (step (decodeIn .pixels [0, 0, 0, 0, 0, 0, 0])) returnedOf = some (some (some [], some .invalidEndMarker)) ∧
    seen (step (decodeIn .pixels [0, 0, 0, 0, 0, 0, 0, 0])) returnedOf =
      some (some (some [], some .invalidEndMarker)) := by decide

/-- R156, R172: a header cut short by the end of its source. -/
theorem test_decode_short_header :
    seen (step (decodeIn .magic [0x71, 0x6F])) returnedOf = some (some (none, some (.truncatedStream 2))) := by decide

/-- R156, "stop reading": the first byte of the marker that differs decides, of a source that has not ended. -/
theorem test_decode_marker_stops :
    seen (step { State.reset with dec := { (decodeIn .pixels []).dec with source := ⟨[(0, 0), (1, 9)], false⟩ } }) returnedOf =
      some (some (some [], some .invalidEndMarker)) := by decide

/-- `decode` in its pixels, after a fault of the core. -/
def faultedDecode : State :=
  { State.reset with dec := { (decodeIn .pixels []).dec with fault := some (.truncatedStream 0) } }

/-- R156, R158: a fault of the core fails `decode`, without pixels. -/
theorem test_decode_fault :
    seen (step faultedDecode) returnedOf =
      some (some (none, some (.truncatedStream 0))) := by decide

/-- R18, R156: a call of `decode` leaves `FAULT`, and so does a wrong magic; R155, R18 in the same way for `PIXPOS` of `ENC`. -/
theorem test_file_calls :
    seen (step { State.reset with dec := State.reset.dec.raiseTruncated 0, agenda := [.host .decodeFile] })
      (fun s => (s.dec.fault, s.dec.phase)) = some (some (.truncatedStream 0), .magic) ∧
    seen (step { State.reset with
        dec := { (decodeIn .magic [0x71, 0x6F, 0x69, 0x67]).dec with fault := some (.truncatedStream 0) } })
      (fun s => s.dec.fault) = some (some (.truncatedStream 0)) ∧
    seen (step { working with agenda := [.host (.encodeFile ⟨1, 1, 4, 0⟩)] }) (fun s => (s.enc.pixpos, s.enc.sink.contents)) =
      some (1, []) := by decide

/-! ### The textual notation (R62, R63) -/

theorem test_text_read :
    readLine "LUMA -12, 0,+7".toList = some (.op (.luma (-12) 0 7)) ∧
      readLine "RGB 0x0A, 20,30".toList = some (.op (.rgb 10 20 30)) ∧
      readLine "INDEX 4".toList = some (.op (.index 4)) ∧ readLine "END".toList = some .endDirective ∧
      readLine "RUN 63".toList = none := by decide +kernel

theorem test_text_write :
    instrText (.luma (-12) 0 7) = "LUMA -12, 0, 7" ∧ instrText (.run 62) = "RUN 62" := by decide +kernel

/-! ### Every statement with hypotheses has something that meets them -/

theorem test_meets_DecodeOfEncode : (Instr.luma 31 7 (-8)).wf = true ∧ (Instr.run 62).wf = true := by decide
theorem test_meets_EncodeOfDecode : decode [0xBF, 0xF0, 9] = .ok (.luma 31 7 (-8), [9]) := by decide

/-- One tag at each end of each clause; no tag is under two clauses. -/
theorem test_meets_TagByteMap :
    (0x3F : Byte).toNat ≤ 0x3F ∧ 0x40 ≤ (0x40 : Byte).toNat ∧ (0x7F : Byte).toNat ≤ 0x7F ∧ 0x80 ≤ (0x80 : Byte).toNat ∧
      (0xBF : Byte).toNat ≤ 0xBF ∧ 0xC0 ≤ (0xC0 : Byte).toNat ∧ (0xFD : Byte).toNat ≤ 0xFD ∧ (0xFE : Byte).toNat = 0xFE ∧
      (0xFF : Byte).toNat = 0xFF ∧
      decode [0x3F] = .ok (.index 63, []) ∧ decode [0x40] = .ok (.diff (-2) (-2) (-2), []) ∧
      decode [0xBF, 0] = .ok (.luma 31 (-8) (-8), []) ∧ decode [0xFD] = .ok (.run 62, []) := by decide

/-- One tag for each arm. -/
theorem test_meets_DispatchOrder :
    decode [0xFE, 1, 2, 3] = .ok (.rgb 1 2 3, []) ∧ decode [0xFF, 1, 2, 3, 4] = .ok (.rgba 1 2 3 4, []) ∧
      decode [0xFD] = .ok (.run 62, []) ∧ decode [0x80, 0x88] = .ok (.luma (-32) 0 0, []) ∧
      decode [0x6A] = .ok (.diff 0 0 0, []) ∧ decode [0x00] = .ok (.index 0, []) := by decide

theorem test_meets_HashUsesLowSixBits :
    (⟨10, 20, 30, 255⟩ : Pixel) ≠ ⟨74, 20, 30, 255⟩ ∧ bits 10 5 0 = bits 74 5 0 := by decide
theorem test_meets_PixelLayouts :
    ([⟨1, 2, 3, 4⟩, ⟨5, 6, 7, 8⟩] : List Pixel)[1]? = some ⟨5, 6, 7, 8⟩ := by decide

/-- Both readings of the difference, a pixel that fits DIFF and one that fits LUMA only. -/
theorem test_meets_DeltaInverse :
    diffFits (deltaWith true ⟨0, 255, 0, 9⟩ ⟨255, 0, 255, 9⟩) = true ∧
      diffFits (deltaWith false ⟨2, 2, 2, 9⟩ ⟨1, 1, 1, 9⟩) = true ∧
      lumaFits (deltaWith true ⟨4, 5, 6, 9⟩ ⟨250, 250, 250, 9⟩) = true ∧
      lumaFits (deltaWith false ⟨138, 131, 123, 9⟩ ⟨100, 100, 100, 9⟩) = true := by decide
theorem test_meets_DiffFitsLuma : diffFits (-2, 1, -2) = true ∧ diffFits (1, -2, 1) = true := by decide
theorem test_meets_DeltaBytesAreBijections :
    diffFits (-2, -2, -2) = true ∧ diffFits (1, 1, 1) = true ∧ 0x40 ≤ (0x40 : Byte).toNat ∧ (0x7F : Byte).toNat ≤ 0x7F ∧
      lumaFits (38, 31, 23) = true ∧ lumaFits (-40, -32, -40) = true ∧ 0x80 ≤ (0x80 : Byte).toNat ∧
      (0xBF : Byte).toNat ≤ 0xBF := by decide

/-- A decode side that fetches the given bytes, whose source has ended, with no event left. -/
theorem fetches (bs : List Byte) :
    DecFetches (decoderOn 1 .four Context.init bs) ∧ DecTurn (decoderOn 1 .four Context.init bs) [] ∧
      (decoderOn 1 .four Context.init bs).dec.source.ended = true :=
  ⟨⟨.inl rfl, rfl, by show (0 : Nat) ≠ 1; decide, rfl⟩, .inr ⟨rfl, rfl⟩, rfl⟩

/-- RGB with no and with two of its three operand bytes. -/
theorem test_meets_RgbRuns :
    (decoderOn 1 .four Context.init [0xFE]).dec.source.bytes.window 0 5 = [0xFE] ∧ ([] : List Byte).length < 3 ∧
      (decoderOn 1 .four Context.init [0xFE, 1, 2]).dec.source.bytes.window 0 5 = [0xFE, 1, 2] ∧
      ([1, 2] : List Byte).length < 3 := by decide

/-- RGBA with no and with three of its four operand bytes; `CH = 3`. -/
theorem test_meets_RgbaRuns :
    (decoderOn 1 .four Context.init [0xFF]).dec.source.bytes.window 0 5 = [0xFF] ∧ ([] : List Byte).length < 4 ∧
      (decoderOn 1 .four Context.init [0xFF, 1, 2, 3]).dec.source.bytes.window 0 5 = [0xFF, 1, 2, 3] ∧
      ([1, 2, 3] : List Byte).length < 4 ∧ (decoderOn 2 .three Context.init []).dec.ch = .three := by decide

/-- Runs of 1 and of 62, the second of exactly the pixels left and followed to its end. -/
theorem test_meets_RunRuns :
    0xC0 ≤ (0xC0 : Byte).toNat ∧ (0xFD : Byte).toNat ≤ 0xFD ∧ 1 ≤ 62 ∧
      (decoderOn 62 .four Context.init []).dec.phase = .bare ∧ (decoderOn 62 .four Context.init []).dec.fault = none ∧
      seen (exec (.run 62) (decoderOn 62 .four Context.init [])) (fun t => decide (t.dec.pixpos + 61 ≤ t.dec.n)) =
        some true := by decide
/-- The tags at both ends, and a LUMA without its operand byte. -/
theorem test_meets_LumaRuns :
    0x80 ≤ (0x80 : Byte).toNat ∧ (0xBF : Byte).toNat ≤ 0xBF ∧
      (decoderOn 1 .four Context.init [0xBF]).dec.source.bytes.window 0 5 = [0xBF] := by decide
/-- A RUN, and an operation that is none. -/
theorem test_meets_CommonTail : (∃ n, Instr.run 3 = .run n) ∧ ∀ n, Instr.index 3 ≠ .run n :=
  ⟨⟨3, rfl⟩, fun _ h => Instr.noConfusion h⟩
theorem test_meets_DiffRuns : 0x40 ≤ (0x40 : Byte).toNat ∧ (0x7F : Byte).toNat ≤ 0x7F := by decide

/-- A slot never stored to, and one that holds a pixel of its own hash. -/
theorem test_meets_IndexRuns :
    (0x3F : Byte).toNat ≤ 0x3F ∧ Context.init.lookup 63 = ⟨0, 0, 0, 0⟩ ∧
      slotHash ((contextOf ⟨0, 0, 0, 255⟩ [(4, ⟨1, 1, 1, 255⟩)]).lookup 4) = 4 := by decide

/-- The same decode side with the events named: it fetches, and its turn is the oldest event or no event is left. -/
theorem test_meets_StepRunsTheDecodedOperation :
    DecFetches (decoderOn 1 .four Context.init [0xA5, 0x88]) ∧ DecTurn (decoderOn 1 .four Context.init [0xA5, 0x88]) [] ∧
      DecTurn { decoderOn 1 .four Context.init [0xA5, 0x88] with agenda := [.dec, .enc] } [.enc] ∧
      decode ((decoderOn 1 .four Context.init [0xA5, 0x88]).dec.source.bytes.window 0 5) = .ok (.luma 5 0 0, []) :=
  ⟨⟨.inl rfl, rfl, by decide, rfl⟩, .inr ⟨rfl, rfl⟩, .inl rfl, by decide⟩

theorem test_meets_RunExpanderStep :
    (decoderOn 9 .four { Context.init with run := 61 } []).dec.phase = .bare ∧
      (decoderOn 9 .four { Context.init with run := 61 } []).dec.pixpos ≠ 9 ∧
      (decoderOn 9 .four { Context.init with run := 61 } []).dec.ctx.run ≠ 0 ∧
      DecTurn (decoderOn 9 .four { Context.init with run := 61 } []) [] :=
  ⟨rfl, by decide, by decide, .inr ⟨rfl, rfl⟩⟩

theorem test_meets_TruncatedStep :
    DecFetches (decoderOn 1 .four Context.init [0xFE, 1, 2]) ∧ DecTurn (decoderOn 1 .four Context.init [0xFE, 1, 2]) [] ∧
      (decoderOn 1 .four Context.init [0xFE, 1, 2]).dec.source.ended = true ∧
      decode ((decoderOn 1 .four Context.init [0xFE, 1, 2]).dec.source.bytes.window 0 5) = .error (.truncated 3) :=
  ⟨⟨.inl rfl, rfl, by decide, rfl⟩, .inr ⟨rfl, rfl⟩, rfl, by decide⟩

/-- `DEC` waiting for its first byte, after a bare stream start. -/
def waitingDecoder : State := { State.reset with dec := Decoder.fresh 1 .four, agenda := [.dec] }

/-- V-E2's third step inside `encode`, on a sink that refuses from an offset on. -/
def refusing (limit : Nat) : Encoder :=
  { encoderOn 9 2 .four { Context.init with run := 2 } [⟨9, 8, 7, 6⟩] with
    phase := .pixels, sink := ⟨[], some limit, false⟩ }

/-- A turn of `DEC`: waiting for its first byte, over at reset (`N = 0`), faulted, and `decode` returned. -/
theorem test_meets_TurnWithoutAStep :
    (DecFetches waitingDecoder ∧ waitingDecoder.dec.source.ended = false ∧
      decode (waitingDecoder.dec.source.bytes.window 0 5) = .error (.truncated 0)) ∧
    (State.reset.dec.phase = .bare ∧ State.reset.dec.pixpos = State.reset.dec.n) ∧
    ((State.reset.dec.raiseTruncated 0).phase = .bare ∧ (State.reset.dec.raiseTruncated 0).fault ≠ none) ∧
    (decodeIn (.done .success) []).dec.phase = .done .success :=
  ⟨⟨⟨.inl rfl, rfl, by decide, rfl⟩, rfl, by decide⟩, by decide, by decide, rfl⟩

/-- A turn of `ENC`: over at reset, waiting on a bare core and inside `encode`, faulted, its sink failed, and `encode` returned. -/
theorem test_meets_TurnWithoutAStep_enc :
    (State.reset.enc.phase = .bare ∧ State.reset.enc.pixpos = State.reset.enc.n) ∧
    ((Encoder.fresh 1 .four).phase = .bare ∧ (Encoder.fresh 1 .four).nextPixel = none) ∧
    ({ Encoder.fresh 1 .four with phase := .pixels : Encoder }.nextPixel = none ∧
      { Encoder.fresh 1 .four with phase := .pixels : Encoder }.pixpos ≠ 1 ∧
      { Encoder.fresh 1 .four with phase := .pixels : Encoder }.sink.failed = false) ∧
    { Encoder.fresh 1 .four with fault := some .sinkFailure : Encoder }.fault ≠ none ∧
    ((refusing 0).sink.put 0 1).failed = true ∧
    { Encoder.fresh 1 .four with phase := .done .success : Encoder }.phase = .done .success := by decide

/-- A faulted decode side with the given events. -/
def faulted (vs : List Event) : State := { State.reset with dec := State.reset.dec.raiseTruncated 0, agenda := vs }

/-- A faulted `DEC` is given a turn, and is started again. -/
theorem test_meets_OnlyStreamStartClearsFault :
    (faulted [.dec]).dec.fault = some (.truncatedStream 0) ∧
      seen (step (faulted [.dec])) (fun t => t.dec.fault) = some (some (.truncatedStream 0)) ∧
      seen (step (faulted [.host (.startDec 1 4)])) (fun t => t.dec.fault) = some none ∧
      seen (step { State.reset with enc := { State.reset.enc with fault := some .sinkFailure }, agenda := [.enc] })
        (fun t => t.enc.fault) = some (some .sinkFailure) := by decide

/-- `decode` called on a faulted agent: the stream start behind the header clears the fault. -/
theorem test_meets_OnlyStreamStartClearsFault_fields :
    StartsDec (faulted [.host (.startDec 1 4)]) (faulted []) ∧
    seen (step { State.reset with
        dec := { State.reset.dec with
          fault := some (.truncatedStream 0), phase := .fields,
          source := ⟨Memory.writeAll [] 0 (headerBytes ⟨1, 1, 4, 0⟩), false⟩ } })
      (fun t => (t.dec.phase, t.dec.fault)) = some (.pixels, none) := ⟨.inl ⟨1, 4, [], rfl⟩, by decide⟩

/-- A step of both agents at work that starts no stream of either. -/
theorem test_meets_StepKeepsConfiguration :
    (∃ t, step working = .next t ∧ ¬ StartsDec working t ∧ ¬ StartsEnc working t) ∧ working.dec.n = 2 := by
  have ha : working.agenda = [] := by decide
  have hd : working.dec.phase = .bare := by decide
  have he : working.enc.phase = .bare := by decide
  refine ⟨⟨_, rfl, ?_, ?_⟩, by decide⟩
  · simp [StartsDec, ha, hd]
  · simp [StartsEnc, ha, he]

theorem test_meets_FileCallsLeaveTheCore :
    (∃ t, step { faulted [] with agenda := [.host .decodeFile] } = .next t) ∧
      ∃ t, step { State.reset with agenda := [.host (.encodeFile ⟨1, 1, 4, 0⟩)] } = .next t := ⟨⟨_, rfl⟩, _, rfl⟩

theorem test_meets_StopsOnlyWithoutAStep :
    (∃ f, step State.reset = .fault f) ∧
      (∃ r, step { State.reset with agenda := [.host (.startEnc 1 5)] } = .refused r) ∧
      (∃ r, step { decoderOn 0 .four Context.init [] with agenda := [.host (.deliverByte 1)] } = .refused r) :=
  ⟨⟨_, rfl⟩, ⟨_, rfl⟩, ⟨_, rfl⟩⟩

theorem test_meets_DecoderStreamStart :
    (∃ t, step { faulted [] with agenda := [.host (.startDec 7 3)] } = .next t ∧ t.dec.n = 7) ∧
      step { faulted [] with agenda := [.host (.startDec 7 5)] } = .refused (.unsupportedChannelCount 5) ∧
      ∃ t, step { faulted [] with agenda := [.host .resetDec] } = .next t ∧ t.dec.fault = none :=
  ⟨⟨_, rfl, rfl⟩, rfl, ⟨_, rfl, rfl⟩⟩

theorem test_meets_EncoderStreamStart :
    (∃ t, step { State.reset with agenda := [.host (.startEnc 7 4)] } = .next t ∧ t.enc.n = 7) ∧
      step { State.reset with agenda := [.host (.startEnc 7 2)] } = .refused (.unsupportedChannelCount 2) ∧
      ∃ t, step { State.reset with agenda := [.host .resetEnc] } = .next t ∧ t.enc.pixels = [] :=
  ⟨⟨_, rfl, rfl⟩, rfl, ⟨_, rfl, rfl⟩⟩

/-- A pixel equal to `PREV`: not last behind runs of 0 and 60, behind a run of 61, last behind a run of 60. -/
theorem test_meets_RunExtension :
    EncReady (encoderOn 9 0 .four Context.init [⟨0, 0, 0, 255⟩]) ⟨0, 0, 0, 255⟩ ∧
      EncReady (encoderOn 99 60 .four { Context.init with run := 60 } [⟨0, 0, 0, 255⟩]) ⟨0, 0, 0, 255⟩ ∧
      EncReady (encoderOn 63 61 .four { Context.init with run := 61 } [⟨0, 0, 0, 255⟩]) ⟨0, 0, 0, 255⟩ ∧
      EncReady (encoderOn 61 60 .four { Context.init with run := 60 } [⟨0, 0, 0, 255⟩]) ⟨0, 0, 0, 255⟩ :=
  ⟨⟨.inl rfl, rfl, by decide, rfl, by decide, by decide⟩, ⟨.inl rfl, rfl, by decide, rfl, by decide, by decide⟩,
    ⟨.inl rfl, rfl, by decide, rfl, by decide, by decide⟩, ⟨.inl rfl, rfl, by decide, rfl, by decide, by decide⟩⟩

/-- V-E2, third step. -/
theorem test_meets_NonRunEmission :
    EncReady (encoderOn 9 2 .four { Context.init with run := 2 } [⟨9, 8, 7, 6⟩]) ⟨9, 8, 7, 6⟩ ∧
      (⟨9, 8, 7, 6⟩ : Pixel) ≠ (encoderOn 9 2 .four { Context.init with run := 2 } [⟨9, 8, 7, 6⟩]).ctx.prev :=
  ⟨⟨.inl rfl, rfl, by decide, rfl, by decide, by decide⟩, by decide⟩

/-- Each of the five operations is selected for some pixel that differs from `PREV`. -/
theorem test_meets_NeverEmitted :
    selectOp (contextOf ⟨1, 1, 1, 255⟩ []) ⟨2, 2, 2, 255⟩ = .diff 1 1 1 ∧
      selectOp (contextOf ⟨1, 1, 1, 255⟩ []) ⟨3, 2, 2, 255⟩ = .luma 1 1 0 ∧
      selectOp (contextOf ⟨100, 100, 100, 255⟩ []) ⟨139, 131, 123, 255⟩ = .rgb 139 131 123 ∧
      selectOp (contextOf ⟨10, 20, 30, 255⟩ []) ⟨10, 20, 30, 254⟩ = .rgba 10 20 30 254 ∧
      selectOp Context.init ⟨0, 0, 0, 0⟩ = .index 0 := by decide

/-- R106's ranges at both ends: 0, 1; 1, 5; 2, 6. -/
theorem test_meets_BytesPerStep :
    (encodeAll (encodePixel false Context.init ⟨0, 0, 0, 255⟩).2).length = 0 ∧
      (encodeAll (encodePixel true Context.init ⟨0, 0, 0, 255⟩).2).length = 1 ∧
      (encodeAll (encodePixel false Context.init ⟨0, 0, 0, 0⟩).2).length = 1 ∧
      (encodeAll (encodePixel false Context.init ⟨9, 8, 7, 6⟩).2).length = 5 ∧
      (encodeAll (encodePixel false { Context.init with run := 2 } ⟨0, 0, 0, 0⟩).2).length = 2 ∧
      (encodeAll (encodePixel false { Context.init with run := 2 } ⟨9, 8, 7, 6⟩).2).length = 6 := by decide

theorem test_meets_AlphaLanesIgnored :
    (encoderOn 3 0 .three Context.init [⟨1, 1, 1, 7⟩]).ch = .three ∧
      (encoderOn 3 0 .three Context.init [⟨1, 1, 1, 7⟩]).nextPixel = some ⟨1, 1, 1, 255⟩ ∧
      sameColours [⟨1, 1, 1, 7⟩] [⟨1, 1, 1, 9⟩] := ⟨rfl, by decide, rfl⟩

/-- The first and the last of the step's six bytes refused. -/
theorem test_meets_SinkFailureEndsEncode :
    (refusing 0).nextPixel = some ⟨9, 8, 7, 6⟩ ∧
      (encodeAll (encodePixel (refusing 0).last (refusing 0).ctx ⟨9, 8, 7, 6⟩).2).length = 6 ∧
      (refusing 0).sink.refuses 0 = true ∧
      (∀ k, k < 5 → (refusing 5).sink.refuses (0 + 0 + k) = false) ∧ (refusing 5).sink.refuses 5 = true := by decide

/-- The first and the last byte of the header and of the marker refused. -/
theorem test_meets_SinkFailureEndsEncode_wrapper :
    ((Encoder.fresh 0 .four).openFile ⟨1, 1, 4, 0⟩).phase = .header ∧
      ((Encoder.fresh 0 .four).openFile ⟨1, 1, 4, 0⟩).header.channels = 4 ∧ (refusing 0).sink.refuses 0 = true ∧
      (∀ k, k < 13 → (refusing 13).sink.refuses k = false) ∧ (refusing 13).sink.refuses 13 = true ∧
      (∀ k, k < 7 → (refusing 7).sink.refuses (0 + 0 + k) = false) ∧ (refusing 7).sink.refuses (0 + 0 + 7) = true ∧
      (Encoder.fresh 0 .four).pixpos = (Encoder.fresh 0 .four).n := by decide

theorem test_working :
    working.dec.out = [.rgba 1 1 1 255] ∧ working.enc.outpos = 1 ∧ working.enc.sink.contents = [0x7F] ∧
      seen (step working) (fun t => t.dec.pixpos) = some 2 ∧
      seen (step { working with agenda := [.enc] }) (fun t => t.enc.sink.contents) = some [0x7F, 0xC0] := by decide

theorem test_meets_StepKeepsMemoriesCanonical :
    MemoriesCanonical working ∧ ∃ t, step working = .next t := ⟨⟨by decide, by decide⟩, _, rfl⟩

theorem test_meets_StepKeepsCacheInvariant : CachesInv working ∧ working.enc.Readable ∧ ∃ t, step working = .next t := by
  refine ⟨⟨fun _ => ?_, fun _ => ?_⟩, ⟨by decide, by decide⟩, _, rfl⟩ <;> · unfold CacheInv; decide

theorem test_meets_StepKeepsEncoderHistory :
    working.enc.Readable ∧ EncHistory working.enc ∧
      ∃ t, step { working with agenda := [.enc] } = .next t ∧ t.enc.Readable := by
  refine ⟨⟨by decide, by decide⟩, ⟨by decide, by decide, ?_, by decide, ?_, by decide⟩, _, rfl, rfl, rfl⟩
  · intro k h1 h2
    have h3 : working.enc.pixpos = 1 := by decide
    have h4 : working.enc.ctx.run.toNat = 0 := by decide
    omega
  · intro k h
    have h3 : working.enc.pixpos = 1 := by decide
    obtain rfl : k = 0 := by omega
    decide

theorem test_meets_StepKeepsEncoderCounts :
    working.enc.Readable ∧ EncCounts working.enc ∧
      ∃ t, step { working with agenda := [.enc] } = .next t ∧ t.enc.Readable :=
  ⟨⟨by decide, by decide⟩, ⟨by decide, by decide, by decide, by decide, by decide⟩, _, rfl, rfl, rfl⟩

theorem test_meets_StepKeepsDecoderCounts : DecCounts working.dec ∧ ∃ t, step working = .next t :=
  ⟨⟨fun _ => by decide, by decide, by decide⟩, _, rfl⟩

/-- Without a fault, and with one. -/
theorem test_meets_StepKeepsFaultRecord :
    (FaultsInv working ∧ ∃ t, step working = .next t) ∧
      FaultsInv { State.reset with dec := { State.reset.dec.raiseTruncated 0 with source := ⟨[], true⟩ } } := by
  refine ⟨⟨⟨by decide, fun e h => ?_, fun _ h => absurd (by decide) h⟩, _, rfl⟩, ⟨by decide, fun e h => ?_, fun _ _ => by decide⟩⟩
  · have h1 : working.dec.fault = none := by decide
    rw [h1] at h
    cases h
  · cases h
    decide

theorem test_meets_StepKeepsEmittedBytes :
    EmittedBytesStand working ∧ working.enc.phase ≠ .header ∧ (∃ t, step working = .next t) ∧ restartsEnc .enc = false := by
  refine ⟨?_, by decide, ⟨_, rfl⟩, rfl⟩
  intro _ k h
  have h1 : working.enc.outpos = 1 := by decide
  obtain rfl : k = 0 := by omega
  decide

theorem test_meets_StepKeepsDeliveredPixels :
    working.dec.source.bytes.wf ∧ working.dec.phase ≠ .fields ∧ (∃ t, step working = .next t) ∧ working.agenda = [] ∧
      restartsDec .dec = false ∧ working.dec.source.bytes.read 1 = some 0xC0 :=
  ⟨by decide, by decide, ⟨_, rfl⟩, by decide, rfl, by decide⟩

theorem test_meets_AgentsShareNothing :
    (∃ t, step { working with agenda := [.dec] } = .next t) ∧ ∃ t, step { working with agenda := [.enc] } = .next t :=
  ⟨⟨_, rfl⟩, _, rfl⟩

theorem test_meets_DelayChangesNothing :
    working.dec.source.bytes.wf ∧ working.dec.source.ended = false ∧ (∃ o, decMove working = .ok o) ∧
      ∃ e, working.enc.move = .ok e := ⟨by decide, by decide, ⟨_, rfl⟩, _, rfl⟩

/-- Every clause of the header: the magic, another first word; 3, 4 and 5 channels; the header one byte short. -/
theorem test_meets_DecodeReadsHeader :
    (decodeIn .magic [0x71, 0x6F, 0x69, 0x66]).dec.source.bytes.window 0 4 = [0x71, 0x6F, 0x69, 0x66] ∧
      (decodeIn .magic [0x71, 0x6F, 0x69, 0x67]).dec.source.bytes.window 0 4 = [0x71, 0x6F, 0x69, 0x67] ∧
      (decodeIn .fields (headerBytes ⟨2, 2, 3, 1⟩)).dec.source.bytes.window 4 10 = (headerBytes ⟨2, 2, 3, 1⟩).drop 4 ∧
      (decodeIn .fields (headerBytes ⟨2, 2, 4, 0⟩)).dec.source.bytes.window 4 10 = (headerBytes ⟨2, 2, 4, 0⟩).drop 4 ∧
      (decodeIn .fields (headerBytes ⟨1, 1, 5, 0⟩)).dec.source.bytes.window 4 10 = (headerBytes ⟨1, 1, 5, 0⟩).drop 4 ∧
      DecTurn (decodeIn .magic []) [] ∧ (decodeIn .magic []).dec.source.ended = true ∧
      ((decodeIn .magic [0x71, 0x6F, 0x69]).dec.source.bytes.window 0 4).length = 3 ∧
      ((decodeIn .fields ((headerBytes ⟨2, 2, 4, 0⟩).take 13)).dec.source.bytes.window 4 10).length = 9 ∧
      State.reset.dec.openFile.source.ended = false ∧ (State.reset.dec.openFile.source.bytes.window 0 4).length < 4 :=
  ⟨by decide, by decide, by decide, by decide, by decide, .inr ⟨rfl, rfl⟩, rfl, by decide, by decide, rfl, by decide⟩

/-- The marker, eight other bytes, one other byte, and seven bytes of it, before the end of the source and not. -/
theorem test_meets_EndMarkerVerdict :
    (decodeIn .pixels endMarker).dec.source.bytes.window 0 8 = [0, 0, 0, 0, 0, 0, 0, 1] ∧
      (∃ k, k < 8 ∧ ((decodeIn .pixels [0, 0, 0, 0, 0, 0, 0, 0]).dec.source.bytes.window 0 8)[k]? ≠ endMarker[k]?) ∧
      ((decodeIn .pixels [9]).dec.source.bytes.window 0 8)[0]? ≠ endMarker[0]? ∧
      ((decodeIn .pixels [0, 0, 0, 0, 0, 0, 0]).dec.source.bytes.window 0 8).length = 7 ∧
      State.reset.dec.source.ended = false ∧ (State.reset.dec.source.bytes.window 0 8).length < 8 ∧
      (decodeIn .pixels [0, 0, 0, 0, 0, 0, 0]).dec.source.ended = true ∧
      (decodeIn .pixels endMarker).dec.pixpos = (decodeIn .pixels endMarker).dec.n ∧ DecTurn (decodeIn .pixels endMarker) [] :=
  ⟨by decide, ⟨7, by decide, by decide⟩, by decide, by decide, rfl, by decide, rfl, rfl, .inr ⟨rfl, rfl⟩⟩

theorem test_meets_FaultFailsDecode :
    faultedDecode.dec.phase = .pixels ∧ faultedDecode.dec.fault = some (.truncatedStream 0) ∧ DecTurn faultedDecode [] :=
  ⟨rfl, rfl, .inr ⟨rfl, rfl⟩⟩

/-- Before the header with 5, 3 and 4 channels, and behind the last pixel, on a sink that accepts every byte. -/
theorem test_meets_EncodeWritesHeaderAndMarker :
    (5 : Byte) ≠ 3 ∧ (5 : Byte) ≠ 4 ∧
      (∀ k, k < 14 → { Encoder.fresh 0 .four with phase := .header, header := ⟨2, 2, 4, 0⟩ : Encoder }.sink.refuses k = false) ∧
      (Encoder.fresh 0 .four).sink.failed = false ∧ (Encoder.fresh 0 .four).pixpos = (Encoder.fresh 0 .four).n ∧
      ∀ k, k < 8 → (Encoder.fresh 0 .four).sink.refuses (14 + 0 + k) = false := by decide

theorem test_meets_CoreRoundTrip : channelCount 3 = some .three ∧ channelCount 4 = some .four := by decide

/-- A 1 by 1 image with 4 channels and an empty one with 3. -/
theorem test_meets_FileRoundTrip :
    channelCount (⟨1, 1, 4, 0⟩ : Header).channels = some .four ∧ ([⟨0, 0, 0, 255⟩] : List Pixel).length = (1 : BitVec 32).toNat * 1 ∧
      channelCount (⟨0, 0, 3, 1⟩ : Header).channels = some .three ∧ ([] : List Pixel).length = 0 * 0 := by decide

end Sys2Proof.Tests
end

section

namespace Sys2Proof.Machine

/-- Settles O7 (R30): `slotHash_val` is the weighted sum in naturals, up to the order of the factors. -/
theorem hashIsTheWeightedSum : Obligations.HashIsTheWeightedSum := by
  unfold Obligations.HashIsTheWeightedSum
  refine ⟨fun p => ?weightedSum, slotHash_slotInit, ?opaqueBlack, ?opaqueWhite⟩
  case weightedSum => rw [slotHash_val, mul_comm 3, mul_comm 5, mul_comm 7, mul_comm 11]
  case opaqueBlack => decide
  case opaqueWhite => decide

end Sys2Proof.Machine
end

section

namespace Sys2Proof

/-- The 2-bit group of a tag byte has one of its four values (R57). -/
theorem topBits_cases (t : Byte) :
    t &&& 0xC0 = 0xC0 ∨ t &&& 0xC0 = 0x80 ∨ t &&& 0xC0 = 0x40 ∨ t &&& 0xC0 = 0x00 := by
  revert t
  decide

/-- The two exact tags carry RUN's 2-bit group, so a tag of another group is neither of them (R57). -/
theorem ne_exactTags_of_topBits_ne {t : Byte} (h : t &&& 0xC0 ≠ 0xC0) : t ≠ 0xFE ∧ t ≠ 0xFF := by
  constructor <;> rintro rfl <;> exact h (by decide)

/-- Settles O4 (R57): `decode_ok` pairs the operation with the test its tag passed; the tests before that one fail. -/
theorem dispatchOrder : Obligations.DispatchOrder := by
  unfold Obligations.DispatchOrder
  intro t operands rest i h
  rcases decode_ok h with ⟨r, g, b, hbs, rfl⟩ | ⟨r, g, b, a, hbs, rfl⟩ | ⟨t', hbs, hFE, hFF, hrun, rfl⟩ |
    ⟨t', b2, hbs, hluma, rfl⟩ | ⟨t', hbs, hdiff, rfl⟩ | ⟨t', hbs, hrun, hluma, hdiff, rfl⟩ <;>
    obtain ⟨htag, -⟩ := List.cons.inj hbs <;> subst htag
  · exact ⟨r, g, b, rfl⟩
  · exact ⟨r, g, b, a, rfl⟩
  · rw [if_neg hFE, if_neg hFF, if_pos hrun]
    exact ⟨_, rfl⟩
  · have hrun : t &&& 0xC0 ≠ 0xC0 := by rw [hluma]; decide
    obtain ⟨hFE, hFF⟩ := ne_exactTags_of_topBits_ne hrun
    rw [if_neg hFE, if_neg hFF, if_neg hrun, if_pos hluma]
    exact ⟨_, _, _, rfl⟩
  · have hrun : t &&& 0xC0 ≠ 0xC0 := by rw [hdiff]; decide
    have hluma : t &&& 0xC0 ≠ 0x80 := by rw [hdiff]; decide
    obtain ⟨hFE, hFF⟩ := ne_exactTags_of_topBits_ne hrun
    rw [if_neg hFE, if_neg hFF, if_neg hrun, if_neg hluma, if_pos hdiff]
    exact ⟨_, _, _, rfl⟩
  · have hindex : t &&& 0xC0 = 0x00 := by simpa only [hrun, hluma, hdiff, false_or] using topBits_cases t
    obtain ⟨hFE, hFF⟩ := ne_exactTags_of_topBits_ne hrun
    rw [if_neg hFE, if_neg hFF, if_neg hrun, if_neg hluma, if_neg hdiff]
    exact ⟨hindex, _, rfl⟩

end Sys2Proof
end

section

namespace Sys2Proof.Machine

/-- A channel plus a delta given in two summands, as LUMA gives red's and blue's (R78, R79). -/
theorem addDelta_sum_toNat (c : Byte) (x y : Int) : ((addDelta c (x + y)).toNat : Int) = (c.toNat + x + y) % 256 := by
  rw [addDelta_toNat, add_assoc]

/-- Settles O14 (R79): each colour channel is one `addDelta`, whose value is `addDelta_toNat`; LUMA adds green's delta to red's
and blue's first. -/
theorem reconstructionIsModulo256 : Obligations.ReconstructionIsModulo256 := by
  unfold Obligations.ReconstructionIsModulo256
  intro prev x y z
  refine ⟨?diffRed, ?diffGreen, ?diffBlue, rfl, ?lumaRed, ?lumaGreen, ?lumaBlue, rfl⟩
  case diffRed => exact addDelta_toNat prev.r x
  case diffGreen => exact addDelta_toNat prev.g y
  case diffBlue => exact addDelta_toNat prev.b z
  case lumaRed => exact addDelta_sum_toNat prev.r y x
  case lumaGreen => exact addDelta_toNat prev.g x
  case lumaBlue => exact addDelta_sum_toNat prev.b z x

end Sys2Proof.Machine
end

section

namespace Sys2Proof.Machine

/-! ### The selector (spec/41_encoder.md R95) -/

/-- DIFF's guard (R73, R97) as one range per channel. -/
theorem diffFits_iff_channels (v : Int × Int × Int) : diffFits v = true ↔
    (-2 ≤ v.1 ∧ v.1 ≤ 1) ∧ (-2 ≤ v.2.1 ∧ v.2.1 ≤ 1) ∧ (-2 ≤ v.2.2 ∧ v.2.2 ≤ 1) := by
  rw [diffFits_iff, and_assoc]

/-- LUMA's guard (R76, R98) as a range for green and one each for red and blue against green. -/
theorem lumaFits_iff_channels (v : Int × Int × Int) : lumaFits v = true ↔
    (-32 ≤ v.2.1 ∧ v.2.1 ≤ 31) ∧ (-8 ≤ v.1 - v.2.1 ∧ v.1 - v.2.1 ≤ 7) ∧ (-8 ≤ v.2.2 - v.2.1 ∧ v.2.2 - v.2.1 ≤ 7) := by
  rw [lumaFits_iff, and_assoc]

/-- Settles O34 (R95): `selectOp_cases` pairs the operation with the guards before it, which fail, and its own, which holds. -/
theorem selectorPriority : Obligations.SelectorPriority := by
  unfold Obligations.SelectorPriority
  intro c p
  simp only [← diffFits_iff_channels, ← lumaFits_iff_channels]
  rcases selectOp_cases c p with ⟨hit, hop⟩ | ⟨miss, alpha, diff, hop⟩ | ⟨miss, alpha, noDiff, luma, hop⟩ |
    ⟨miss, alpha, noDiff, noLuma, hop⟩ | ⟨miss, noAlpha, hop⟩
  · rw [hop, if_pos hit]
    rfl
  · rw [hop, if_neg miss, if_pos ⟨alpha, diff⟩]
    rfl
  · rw [hop, if_neg miss, if_neg (by simp [noDiff]), if_pos ⟨alpha, luma⟩]
    rfl
  · rw [hop, if_neg miss, if_neg (by simp [noDiff]), if_neg (by simp [noLuma]), if_pos alpha]
    rfl
  · rw [hop, if_neg miss, if_neg fun h => noAlpha h.1, if_neg fun h => noAlpha h.1, if_neg noAlpha]
    rfl

end Sys2Proof.Machine
end

section

namespace Sys2Proof.Machine

/-! ### The step on a pixel that differs from `PREV` (spec/41_encoder.md R94) -/

/-- On such a pixel the pending run is flushed and the selected operation emitted; the pixel is remembered (R94, R101, R102). -/
theorem encodePixel_of_ne_prev {c : Context} {p : Pixel} (h : p ≠ c.prev) (last : Bool) :
    encodePixel last c p = ({ c.remember p with run := 0, prev := p }, pendingRun c ++ [selectOp c p]) :=
  if_neg h

/-- The flush is one RUN byte, or nothing when no run is pending (R94). -/
theorem encodeAll_pendingRun (c : Context) :
    encodeAll (pendingRun c) = if c.run = 0 then [] else [0xC0 ||| BitVec.ofNat 8 (c.run.toNat - 1)] := by
  unfold pendingRun
  split <;> rfl

/-- Bytes written at `OUTPOS` are emitted, whatever the context becomes. -/
theorem EncEmits.of_writeAll (e : Encoder) (c : Context) (bs : List Byte) :
    EncEmits e
      { e with
        ctx := c
        sink := { e.sink with bytes := e.sink.bytes.writeAll (e.base + e.outpos) bs }
        outpos := e.outpos + bs.length
        pixpos := e.pixpos + 1 } bs where
  bytes k hk := by
    dsimp only
    rw [Memory.read_writeAll, if_pos (by omega), Nat.add_sub_cancel_left]
  elsewhere a ha := by
    dsimp only
    rw [Memory.read_writeAll, if_neg (by omega)]
  outpos := rfl
  pixpos := rfl
  failed := rfl
  limit := rfl
  fault := rfl
  n := rfl
  ch := rfl
  pixels := rfl
  base := rfl
  phase := rfl
  header := rfl

/-- Settles O33 (R94): a ready `ENC` moves (`Encoder.move_of_ready`), the operations are those of `encodePixel_of_ne_prev`, and
the cache is `lookup_remember`'s. -/
theorem nonRunEmission : Obligations.NonRunEmission := by
  unfold Obligations.NonRunEmission
  intro e p ready hne
  have hmove := Encoder.move_of_ready ready
  rw [encodePixel_of_ne_prev hne] at hmove
  refine ⟨_, hmove, ?emits, rfl, rfl, ?here, fun i hi => ?elsewhere⟩
  case emits =>
    have hbytes : encodeAll (pendingRun e.ctx ++ [selectOp e.ctx p]) =
        (if e.ctx.run = 0 then [] else [0xC0 ||| BitVec.ofNat 8 (e.ctx.run.toNat - 1)]) ++ encode (selectOp e.ctx p) := by
      rw [encodeAll_append, encodeAll_pendingRun, encodeAll_cons, encodeAll_nil, List.append_nil]
    rw [← hbytes]
    exact EncEmits.of_writeAll e _ _
  case here => rw [Context.lookup_with, Context.lookup_remember, if_pos rfl]
  case elsewhere => rw [Context.lookup_with, Context.lookup_remember, if_neg hi]

end Sys2Proof.Machine
end

section

namespace Sys2Proof.Machine

/-! ### The common tail of the operations (spec/42_decoder.md R130, R132) -/

/-- Every operation but RUN is a non-run operation of its own length, with some pixel (R124, R125, R127 to R129). -/
theorem exec_nonRun_spec {i : Instr} (hi : ∀ n, i ≠ .run n) (s : State) :
    ∃ t p, exec i s = .next t ∧ NonRunOp s t i.length p := by
  rcases opDec_cases i s.dec with ⟨p, hstore⟩ | ⟨n, hrun, -⟩
  · obtain ⟨t, ht, op⟩ := storeOp_spec i.length p s
    exact ⟨t, p, by rw [exec_eq, hstore]; exact ht, op⟩
  · exact absurd hrun (hi n)

/-- RUN repeats `PREV` and leaves its length less one, in the six bits of `RUN` (R126). -/
theorem exec_run_spec (length : Nat) (s : State) :
    ∃ t, exec (.run length) s = .next t ∧ RepeatOp s t 1 ((length - 1) % 64) :=
  ⟨_, rfl,
    { produced := ⟨rfl, rfl, rfl⟩
      cache := fun _ => rfl
      run := BitVec.toNat_ofNat _ _
      bytepos := rfl
      frame := DecFrame.of_withDec rfl rfl rfl rfl rfl rfl rfl }⟩

/-- Settles O21 (R130, R132): an operation is RUN (`exec_run_spec`) or stores its pixel (`exec_nonRun_spec`); the run expander
changes `PREV`, `RUN` and the output alone. -/
theorem commonTail : Obligations.CommonTail := by
  unfold Obligations.CommonTail
  refine ⟨fun i s => ?operation, fun s => ⟨⟨rfl, rfl, rfl⟩, fun j => ?expander⟩⟩
  case operation =>
    by_cases hi : ∃ n, i = .run n
    · obtain ⟨n, rfl⟩ := hi
      obtain ⟨t, ht, op⟩ := exec_run_spec n s
      exact ⟨t, s.dec.ctx.prev, ht, op.produced, op.frame, op.bytepos, fun _ => ⟨rfl, op.cache⟩,
        fun hne => absurd rfl (hne n)⟩
    · obtain ⟨t, p, ht, op⟩ := exec_nonRun_spec (not_exists.mp hi) s
      exact ⟨t, p, ht, op.produced, op.frame, op.bytepos, fun h => absurd h hi, fun _ => ⟨op.stored, op.run⟩⟩
  case expander => rw [Decoder.expandRun_ctx, Context.lookup_with]

end Sys2Proof.Machine
end

section

namespace Sys2Proof

/-! ### DIFF and INDEX: layout, effect and frame (spec/42_decoder.md R128, R129) -/

/-- The 2-bit group of a tag byte is its value rounded down to a multiple of 64 (R57, R58). -/
theorem topBits_toNat (t : Byte) : (t &&& 0xC0).toNat = t.toNat / 64 * 64 := by
  revert t
  decide

/-- The tags 40..7F carry DIFF's 2-bit group (R58). -/
theorem topBits_of_diffTag {t : Byte} (hlo : 0x40 ≤ t.toNat) (hhi : t.toNat ≤ 0x7F) : t &&& 0xC0 = 0x40 := by
  apply BitVec.eq_of_toNat_eq
  rw [topBits_toNat]
  change _ = 64
  omega

/-- The tags 00..3F carry INDEX's 2-bit group (R58). -/
theorem topBits_of_indexTag {t : Byte} (hhi : t.toNat ≤ 0x3F) : t &&& 0xC0 = 0x00 := by
  apply BitVec.eq_of_toNat_eq
  rw [topBits_toNat]
  change _ = 0
  omega

namespace Machine

/-- DIFF is a one-byte operation of the pixel `diff_apply` gives (R128). -/
theorem exec_diff_spec (dr dg db : Int) (s : State) :
    ∃ t, exec (.diff dr dg db) s = .next t ∧ NonRunOp s t 1 (diffApply s.dec.ctx.prev dr dg db) :=
  storeOp_spec 1 _ s

/-- INDEX is a one-byte operation of the pixel its slot held before (R129). -/
theorem exec_index_spec (slot : Slot) (s : State) :
    ∃ t, exec (.index slot) s = .next t ∧ NonRunOp s t 1 (s.dec.ctx.lookup slot) :=
  storeOp_spec 1 _ s

/-- Storing a pixel its slot already holds leaves every slot as it was. -/
theorem Stored.lookup_eq {s t : State} {p : Pixel} (stored : Stored s t p) (held : s.dec.ctx.lookup (slotHash p) = p)
    (i : Slot) : t.dec.ctx.lookup i = s.dec.ctx.lookup i := by
  by_cases hi : i = slotHash p
  · rw [hi, stored.here, held]
  · exact stored.elsewhere i hi

/-- Settles O19 (R128): the tag's 2-bit group selects DIFF (`decode_diff`); each colour channel is one `addDelta`, modulo 256. -/
theorem diffRuns : Obligations.DiffRuns := by
  unfold Obligations.DiffRuns
  refine ⟨fun t rest hlo hhi => decode_diff (topBits_of_diffTag hlo hhi) rest, fun dr dg db s => ?effect⟩
  obtain ⟨t, ht, op⟩ := exec_diff_spec dr dg db s
  exact ⟨t, _, ht, op, addDelta_toNat _ dr, addDelta_toNat _ dg, addDelta_toNat _ db, rfl⟩

/-- Settles O20 (R129): the tag's 2-bit group selects INDEX (`decode_index`). The pixel `(0,0,0,0)` has slot 0 (R31), and a slot
that holds a pixel of its own hash is written with what it holds (`Stored.lookup_eq`). -/
theorem indexRuns : Obligations.IndexRuns := by
  unfold Obligations.IndexRuns
  refine ⟨fun t rest hhi => decode_index (topBits_of_indexTag hhi) rest, fun slot s => ?effect⟩
  obtain ⟨t, ht, op⟩ := exec_index_spec slot s
  refine ⟨t, ht, op, fun hempty => ?neverStored, fun hown => ?ownHash⟩
  case neverStored =>
    rw [hempty] at op
    have hzero : slotHash ⟨0, 0, 0, 0⟩ = 0 := slotHash_slotInit
    have hhere := op.stored.here
    rw [hzero] at hhere
    exact ⟨op.produced.prev, hhere⟩
  case ownHash => exact op.stored.lookup_eq (by rw [hown])

end Machine
end Sys2Proof
end

section

namespace Sys2Proof.Machine

/-! ### The only way out of a fault (spec/60_exceptions.md R180) -/

/-- The decode side of a stream start by the host or a reset is one right after a stream start (R190, R191). -/
theorem Decoder.fresh_eq_streamStart (n : Nat) (ch : ChannelCount) :
    Decoder.fresh n ch = (Decoder.fresh n ch).streamStart n ch := rfl

/-- The encode side of a stream start by the host or a reset is one right after a stream start (R190, R191). -/
theorem Encoder.fresh_eq_streamStart (n : Nat) (ch : ChannelCount) :
    Encoder.fresh n ch = (Encoder.fresh n ch).streamStart n ch := rfl

/-- An action of the host starts or resets `DEC`, or changes of the decode side the source and the phase alone; it starts or resets
`ENC`, or changes of the encode side the streams, the phase and the header alone. -/
theorem hostAct_starts_or_keeps {a : HostAction} {s t : State} (h : hostAct a s = .next t) :
    ((((∃ n c, a = .startDec n c) ∨ a = .resetDec) ∧ ∃ n ch, t.dec = Decoder.fresh n ch) ∨
      ∃ src p, t.dec = { s.dec with source := src, phase := p }) ∧
    ((((∃ n c, a = .startEnc n c) ∨ a = .resetEnc) ∧ ∃ n ch, t.enc = Encoder.fresh n ch) ∨
      ∃ ps k p hd, t.enc = { s.enc with pixels := ps, sink := k, phase := p, header := hd }) := by
  cases a with
  | startEnc n c =>
    simp only [hostAct] at h
    split at h
    · obtain rfl := Host.Outcome.next.inj h
      exact ⟨.inr ⟨_, _, rfl⟩, .inl ⟨.inl ⟨n, c, rfl⟩, _, _, rfl⟩⟩
    · cases h
  | startDec n c =>
    simp only [hostAct] at h
    split at h
    · obtain rfl := Host.Outcome.next.inj h
      exact ⟨.inl ⟨.inl ⟨n, c, rfl⟩, _, _, rfl⟩, .inr ⟨_, _, _, _, rfl⟩⟩
    · cases h
  | resetEnc =>
    obtain rfl := Host.Outcome.next.inj h
    exact ⟨.inr ⟨_, _, rfl⟩, .inl ⟨.inr rfl, _, _, rfl⟩⟩
  | resetDec =>
    obtain rfl := Host.Outcome.next.inj h
    exact ⟨.inl ⟨.inr rfl, _, _, rfl⟩, .inr ⟨_, _, _, _, rfl⟩⟩
  | deliverByte b =>
    simp only [hostAct] at h
    split at h
    · cases h
    · obtain rfl := Host.Outcome.next.inj h
      exact ⟨.inr ⟨_, _, rfl⟩, .inr ⟨_, _, _, _, rfl⟩⟩
  | deliverPixel _ | endBytes | limitSink _ | encodeFile _ | decodeFile =>
    obtain rfl := Host.Outcome.next.inj h
    exact ⟨.inr ⟨_, _, rfl⟩, .inr ⟨_, _, _, _, rfl⟩⟩

/-- `DEC` itself moves only without a fault (R18). -/
theorem CoreDecCase.fault_eq_none {d d' : Decoder} (h : CoreDecCase d d') : d.fault = none := by
  cases h with
  | expand hf | op hf | truncated hf => exact hf

/-- A move of a faulted decode side is the wrapper's: it starts the stream behind the header (R156), or changes the header and the
phase alone. -/
theorem DecCase.of_fault {d d' : Decoder} {e : ErrorKind} (hf : d.fault = some e) (h : DecCase d d') :
    (d.phase = .fields ∧ d'.phase = .pixels ∧ ∃ d₀ n ch, d' = Decoder.streamStart d₀ n ch) ∨
    (∃ hd p, d' = { d with header := hd, phase := p }) := by
  cases h with
  | core hp h => exact absurd (hf.symm.trans h.fault_eq_none) (Option.some_ne_none e)
  | magic hp h =>
    obtain ⟨p, -, rfl⟩ := readMagic_ok h
    exact .inr ⟨_, _, rfl⟩
  | fields hp h =>
    obtain ⟨hd, n, ch, rfl⟩ | ⟨hd, r, rfl⟩ := readFields_ok h
    · exact .inl ⟨hp, rfl, _, n, ch, rfl⟩
    · exact .inr ⟨_, _, rfl⟩
  | finish hp h =>
    obtain ⟨r, rfl⟩ := finish_ok h
    exact .inr ⟨_, _, rfl⟩

/-- A move of a faulted encode side is the wrapper's: it starts the stream behind the header (R155), or changes the sink and the
phase alone. -/
theorem EncCase.of_fault {c c' : Encoder} {e : ErrorKind} (hf : c.fault = some e) (h : EncCase c c') :
    (c.phase = .header ∧ c'.phase = .pixels ∧ ∃ c₀ n ch, c' = Encoder.streamStart c₀ n ch) ∨
    (∃ k p, c' = { c with sink := k, phase := p }) := by
  cases h with
  | core p hp hnone => exact absurd (hf.symm.trans hnone) (Option.some_ne_none e)
  | header hp ch hc hk => exact .inl ⟨hp, rfl, _, _, ch, rfl⟩
  | marker hp hm hk => exact .inr ⟨_, _, rfl⟩
  | failed a bs r hr ha => exact .inr ⟨_, _, rfl⟩

/-- A step with `DEC` faulted starts a stream of `DEC`, or leaves its core and its output as they are: only the source, the header
and the phase can differ (R180). -/
theorem step_dec_of_fault {s t : State} {e : ErrorKind} (hf : s.dec.fault = some e) (h : step s = .next t) :
    (StartsDec s t ∧ ∃ d n ch, t.dec = Decoder.streamStart d n ch) ∨
    (∃ src hd p, t.dec = { s.dec with source := src, header := hd, phase := p }) := by
  cases step_cases h with
  | dec d vs hv hc =>
    obtain ⟨hp, hp', hstart⟩ | ⟨hd, p, rfl⟩ := hc.of_fault hf
    · exact .inl ⟨.inr (.inr ⟨hp, hp', vs, hv⟩), hstart⟩
    · exact .inr ⟨_, _, _, rfl⟩
  | enc c vs hv hc => exact .inr ⟨_, _, _, rfl⟩
  | skip v vs hv => exact .inr ⟨_, _, _, rfl⟩
  | host a vs hv _ ha =>
    obtain ⟨hstart, n, ch, hdec⟩ | ⟨src, p, hdec⟩ := (hostAct_starts_or_keeps ha).1
    · refine .inl ⟨?_, _, n, ch, hdec.trans (Decoder.fresh_eq_streamStart n ch)⟩
      obtain ⟨m, c, rfl⟩ | rfl := hstart
      · exact .inl ⟨m, c, vs, hv⟩
      · exact .inr (.inl ⟨vs, hv⟩)
    · exact .inr ⟨_, _, _, hdec⟩

/-- A step with `ENC` faulted starts a stream of `ENC`, or leaves its core as it is: only the streams, the phase and the header can
differ (R180). -/
theorem step_enc_of_fault {s t : State} {e : ErrorKind} (hf : s.enc.fault = some e) (h : step s = .next t) :
    (StartsEnc s t ∧ ∃ c n ch, t.enc = Encoder.streamStart c n ch) ∨
    (∃ ps k p hd, t.enc = { s.enc with pixels := ps, sink := k, phase := p, header := hd }) := by
  cases step_cases h with
  | enc c vs hv hc =>
    obtain ⟨hp, hp', hstart⟩ | ⟨k, p, rfl⟩ := hc.of_fault hf
    · refine .inl ⟨.inr (.inr ⟨hp, hp', ?_⟩), hstart⟩
      exact hv.elim (fun hturn => .inr ⟨vs, hturn⟩) (fun hfree => .inl hfree.1)
    · exact .inr ⟨_, _, _, _, rfl⟩
  | dec d vs hv hc => exact .inr ⟨_, _, _, _, rfl⟩
  | skip v vs hv => exact .inr ⟨_, _, _, _, rfl⟩
  | host a vs hv _ ha =>
    obtain ⟨hstart, n, ch, henc⟩ | ⟨ps, k, p, hd, henc⟩ := (hostAct_starts_or_keeps ha).2
    · refine .inl ⟨?_, _, n, ch, henc.trans (Encoder.fresh_eq_streamStart n ch)⟩
      obtain ⟨m, c, rfl⟩ | rfl := hstart
      · exact .inl ⟨m, c, vs, hv⟩
      · exact .inr (.inl ⟨vs, hv⟩)
    · exact .inr ⟨_, _, _, _, henc⟩

/-- Settles O26 (R180): a faulted core has no move of its own, so of the core and its output a step changes nothing but by a stream
start (`step_dec_of_fault`, `step_enc_of_fault`), which gives the values of R23. -/
theorem onlyStreamStartClearsFault : Obligations.OnlyStreamStartClearsFault := by
  unfold Obligations.OnlyStreamStartClearsFault
  refine ⟨fun s t e hf h => ?decodeSide, fun s t e hf h => ?encodeSide⟩
  case decodeSide =>
    obtain ⟨hstart, d, n, ch, hdec⟩ | ⟨src, hd, p, hdec⟩ := step_dec_of_fault hf h <;> rw [hdec]
    · exact .inr ⟨hstart, rfl, rfl, rfl, rfl, rfl⟩
    · exact .inl ⟨hf, rfl, rfl, rfl⟩
  case encodeSide =>
    obtain ⟨hstart, c, n, ch, henc⟩ | ⟨ps, k, p, hd, henc⟩ := step_enc_of_fault hf h <;> rw [henc]
    · exact .inr ⟨hstart, rfl, rfl, rfl, rfl⟩
    · exact .inl ⟨hf, rfl, rfl⟩

end Sys2Proof.Machine
end

section

namespace Sys2Proof

/-! ### The fields of the encodings (spec/30_encoding.md R51 to R54) -/

/-- A bit field of a byte as arithmetic. -/
theorem bits_eq (v : Byte) (hi lo : Nat) : bits v hi lo = v.toNat / 2 ^ lo % 2 ^ (hi - lo + 1) := by
  rw [bits, BitVec.extractLsb_toNat, Nat.shiftRight_eq_div_pow]

/-- The low six bits of a byte (R31, R54). -/
theorem bits_low_six (v : Byte) : bits v 5 0 = v.toNat % 64 := by
  simp [bits_eq]

theorem bits_lt (v : Byte) (hi lo : Nat) : bits v hi lo < 2 ^ (hi - lo + 1) := by
  rw [bits_eq]
  exact Nat.mod_lt _ (by positivity)

/-- An integer between a bias below zero and its mirror is a field value less the bias (R56). -/
theorem exists_field {v : Int} {n b : Nat} (lo : -(b : Int) ≤ v) (hi : v < (n : Int) - b) :
    ∃ x : Fin n, v = (x.val : Int) - b :=
  ⟨⟨(v + b).toNat, by omega⟩, by dsimp only; omega⟩

/-- The byte of a RUN of 1..62: it is neither of the two exact tags, and gives the length back (R54, R55). -/
theorem runTag_fields : ∀ k : Fin 62,
    (0xC0 ||| BitVec.ofNat 8 k.val : Byte) ≠ 0xFE ∧ (0xC0 ||| BitVec.ofNat 8 k.val : Byte) ≠ 0xFF ∧
    (0xC0 ||| BitVec.ofNat 8 k.val) &&& 0xC0 = (0xC0 : Byte) ∧ bits (0xC0 ||| BitVec.ofNat 8 k.val) 5 0 = k.val := by
  decide

theorem diffPack_fields : ∀ x y z : Fin 4,
    diffPack ((x.val : Int) - 2) ((y.val : Int) - 2) ((z.val : Int) - 2) &&& 0xC0 = 0x40 ∧
    diffUnpack (diffPack ((x.val : Int) - 2) ((y.val : Int) - 2) ((z.val : Int) - 2)) =
      ((x.val : Int) - 2, (y.val : Int) - 2, (z.val : Int) - 2) := by
  decide

theorem lumaTag_fields : ∀ x : Fin 64,
    (0x80 ||| biased 32 ((x.val : Int) - 32)) &&& 0xC0 = 0x80 ∧
    bits (0x80 ||| biased 32 ((x.val : Int) - 32)) 5 0 = x.val := by
  decide

theorem lumaOperand_fields : ∀ x y : Fin 16,
    bits (biased 8 ((x.val : Int) - 8) <<< 4 ||| biased 8 ((y.val : Int) - 8)) 7 4 = x.val ∧
    bits (biased 8 ((x.val : Int) - 8) <<< 4 ||| biased 8 ((y.val : Int) - 8)) 3 0 = y.val := by
  decide

/-- The DIFF byte of deltas in range carries DIFF's 2-bit group (R52). -/
theorem diffPack_topBits {dr dg db : Int} (h : (Instr.diff dr dg db).wf = true) : diffPack dr dg db &&& 0xC0 = 0x40 := by
  obtain ⟨⟨⟨hr, hr'⟩, hg, hg'⟩, hb, hb'⟩ := (Instr.wf_diff dr dg db).1 h
  obtain ⟨x, rfl⟩ := exists_field (n := 4) (b := 2) hr (by omega)
  obtain ⟨y, rfl⟩ := exists_field (n := 4) (b := 2) hg (by omega)
  obtain ⟨z, rfl⟩ := exists_field (n := 4) (b := 2) hb (by omega)
  exact (diffPack_fields x y z).1

/-- The DIFF byte of deltas in range gives them back (R74, R75). -/
theorem diffUnpack_diffPack {dr dg db : Int} (h : (Instr.diff dr dg db).wf = true) :
    diffUnpack (diffPack dr dg db) = (dr, dg, db) := by
  obtain ⟨⟨⟨hr, hr'⟩, hg, hg'⟩, hb, hb'⟩ := (Instr.wf_diff dr dg db).1 h
  obtain ⟨x, rfl⟩ := exists_field (n := 4) (b := 2) hr (by omega)
  obtain ⟨y, rfl⟩ := exists_field (n := 4) (b := 2) hg (by omega)
  obtain ⟨z, rfl⟩ := exists_field (n := 4) (b := 2) hb (by omega)
  exact (diffPack_fields x y z).2

/-- The first LUMA byte of operands in range carries LUMA's 2-bit group (R53). -/
theorem lumaBytes_topBits {dg drg dbg : Int} (h : (Instr.luma dg drg dbg).wf = true) :
    (lumaBytes dg drg dbg).1 &&& 0xC0 = 0x80 := by
  obtain ⟨⟨⟨hg, hg'⟩, -⟩, -⟩ := (Instr.wf_luma dg drg dbg).1 h
  obtain ⟨x, rfl⟩ := exists_field (n := 64) (b := 32) hg (by omega)
  exact (lumaTag_fields x).1

/-- The LUMA pair of operands in range gives them back (R77, R78). -/
theorem lumaUnpack_lumaBytes {dg drg dbg : Int} (h : (Instr.luma dg drg dbg).wf = true) :
    lumaUnpack (lumaBytes dg drg dbg).1 (lumaBytes dg drg dbg).2 = (dg, drg, dbg) := by
  obtain ⟨⟨⟨hg, hg'⟩, hr, hr'⟩, hb, hb'⟩ := (Instr.wf_luma dg drg dbg).1 h
  obtain ⟨x, rfl⟩ := exists_field (n := 64) (b := 32) hg (by omega)
  obtain ⟨y, rfl⟩ := exists_field (n := 16) (b := 8) hr (by omega)
  obtain ⟨z, rfl⟩ := exists_field (n := 16) (b := 8) hb (by omega)
  have hx := (lumaTag_fields x).2
  obtain ⟨hy, hz⟩ := lumaOperand_fields y z
  simp only [Nat.cast_ofNat] at hx hy hz ⊢
  simp only [lumaUnpack, lumaBytes, hx, hy, hz]

/-! ### Decoding an encoding -/

/-- Settles O1 (R51 to R55): the tag of each encoding passes its own test of the dispatch (`runTag_fields`, `lumaBytes_topBits`,
`diffPack_topBits`), and the fields give the operands back. -/
theorem decodeOfEncode : Obligations.DecodeOfEncode := by
  unfold Obligations.DecodeOfEncode
  intro i rest h
  cases i with
  | rgb r g b => exact decode_rgb r g b rest
  | rgba r g b a => exact decode_rgba r g b a rest
  | run length =>
    obtain ⟨h1, h62⟩ := (Instr.wf_run length).1 h
    obtain ⟨hFE, hFF, htop, hlow⟩ := runTag_fields ⟨length - 1, by omega⟩
    refine (decode_run hFE hFF htop rest).trans ?_
    rw [hlow, Nat.sub_add_cancel h1]
  | luma dg drg dbg =>
    refine (decode_luma (lumaBytes_topBits h) _ rest).trans ?_
    rw [lumaUnpack_lumaBytes h]
  | diff dr dg db =>
    refine (decode_diff (diffPack_topBits h) rest).trans ?_
    rw [diffUnpack_diffPack h]
  | index slot =>
    have hslot : ∀ k : Fin 64, (BitVec.ofNat 8 k.val : Byte) &&& 0xC0 = 0x00 ∧
        Fin.ofNat 64 (bits (BitVec.ofNat 8 k.val) 5 0) = k := by decide
    obtain ⟨htop, hlow⟩ := hslot slot
    refine (decode_index htop rest).trans ?_
    rw [hlow]

end Sys2Proof
end

section

namespace Sys2Proof

/-! ### Encoding what was decoded (spec/30_encoding.md sections 2 to 4) -/

theorem runTag_rebuild : ∀ t : Byte, t &&& 0xC0 = 0xC0 → 0xC0 ||| BitVec.ofNat 8 (bits t 5 0 + 1 - 1) = t := by decide

/-- Only the two exact tags carry a run field of 62 or 63 (R54, R55). -/
theorem runTag_length_le : ∀ t : Byte, t ≠ 0xFE → t ≠ 0xFF → t &&& 0xC0 = 0xC0 → bits t 5 0 + 1 ≤ 62 := by decide

/-- Packing the fields of a DIFF byte gives the byte back (R82). -/
theorem diffPack_diffUnpack : ∀ t : Byte, t &&& 0xC0 = 0x40 →
    diffPack (diffUnpack t).1 (diffUnpack t).2.1 (diffUnpack t).2.2 = t := by decide

theorem lumaTag_rebuild : ∀ t : Byte, t &&& 0xC0 = 0x80 → 0x80 ||| biased 32 ((bits t 5 0 : Int) - 32) = t := by decide

theorem lumaOperand_rebuild : ∀ b2 : Byte,
    biased 8 ((bits b2 7 4 : Int) - 8) <<< 4 ||| biased 8 ((bits b2 3 0 : Int) - 8) = b2 := by decide

/-- Packing the fields of a LUMA pair gives the pair back (R82). -/
theorem lumaBytes_lumaUnpack {t : Byte} (h : t &&& 0xC0 = 0x80) (b2 : Byte) :
    lumaBytes (lumaUnpack t b2).1 (lumaUnpack t b2).2.1 (lumaUnpack t b2).2.2 = (t, b2) :=
  Prod.ext (lumaTag_rebuild t h) (lumaOperand_rebuild b2)

theorem indexTag_rebuild : ∀ t : Byte, t &&& 0xC0 = 0x00 → BitVec.ofNat 8 (Fin.ofNat 64 (bits t 5 0)).val = t := by decide

/-- The fields of any byte are deltas in DIFF's range (R56, R75). -/
theorem diffUnpack_wf (t : Byte) : (Instr.diff (diffUnpack t).1 (diffUnpack t).2.1 (diffUnpack t).2.2).wf = true := by
  have hr := bits_lt t 5 4
  have hg := bits_lt t 3 2
  have hb := bits_lt t 1 0
  simp only [Instr.wf_diff, diffUnpack]
  omega

/-- The fields of any byte pair are operands in LUMA's range (R56, R78). -/
theorem lumaUnpack_wf (t b2 : Byte) :
    (Instr.luma (lumaUnpack t b2).1 (lumaUnpack t b2).2.1 (lumaUnpack t b2).2.2).wf = true := by
  have hg := bits_lt t 5 0
  have hr := bits_lt b2 7 4
  have hb := bits_lt b2 3 0
  simp only [Instr.wf_luma, lumaUnpack]
  omega

/-- Settles O2: `decode_ok` gives the tag and the operands read; each layout's fields are in range and pack to the bytes they
were read from. -/
theorem encodeOfDecode : Obligations.EncodeOfDecode := by
  unfold Obligations.EncodeOfDecode
  intro bs i rest h
  rcases decode_ok h with ⟨r, g, b, rfl, rfl⟩ | ⟨r, g, b, a, rfl, rfl⟩ | ⟨t, rfl, hFE, hFF, hrun, rfl⟩ |
    ⟨t, b2, rfl, hluma, rfl⟩ | ⟨t, rfl, hdiff, rfl⟩ | ⟨t, rfl, hrun, hluma, hdiff, rfl⟩
  · exact ⟨rfl, rfl⟩
  · exact ⟨rfl, rfl⟩
  · refine ⟨(Instr.wf_run _).2 ⟨Nat.le_add_left 1 _, runTag_length_le t hFE hFF hrun⟩, ?_⟩
    simp only [encode, runTag_rebuild t hrun, List.cons_append, List.nil_append]
  · refine ⟨lumaUnpack_wf t b2, ?_⟩
    simp only [encode, lumaBytes_lumaUnpack hluma b2, List.cons_append, List.nil_append]
  · refine ⟨diffUnpack_wf t, ?_⟩
    simp only [encode, diffPack_diffUnpack t hdiff, List.cons_append, List.nil_append]
  · have hindex : t &&& 0xC0 = 0x00 := by simpa only [hrun, hluma, hdiff, false_or] using topBits_cases t
    refine ⟨rfl, ?_⟩
    simp only [encode, indexTag_rebuild t hindex, List.cons_append, List.nil_append]

end Sys2Proof
end

section

namespace Sys2Proof

/-! ### The map of the tag values and the failures of the parser (spec/30_encoding.md R58, R60) -/

/-- The tags 80..BF carry LUMA's 2-bit group (R58). -/
theorem topBits_of_lumaTag {t : Byte} (hlo : 0x80 ≤ t.toNat) (hhi : t.toNat ≤ 0xBF) : t &&& 0xC0 = 0x80 := by
  apply BitVec.eq_of_toNat_eq
  rw [topBits_toNat]
  change _ = 128
  omega

/-- The tags C0..FF carry RUN's 2-bit group (R58). -/
theorem topBits_of_runTag {t : Byte} (hlo : 0xC0 ≤ t.toNat) : t &&& 0xC0 = 0xC0 := by
  apply BitVec.eq_of_toNat_eq
  rw [topBits_toNat]
  change _ = 192
  omega

/-- The tags C0..FD are not the two exact ones (R55). -/
theorem ne_exactTags_of_le {t : Byte} (hhi : t.toNat ≤ 0xFD) : t ≠ 0xFE ∧ t ≠ 0xFF := by
  constructor <;> rintro rfl <;> exact absurd hhi (by decide)

/-- Settles O3 (R58): in each range the tag passes one test of the dispatch, and the others' ranges exclude it. -/
theorem tagByteMap : Obligations.TagByteMap := by
  unfold Obligations.TagByteMap
  intro t x y z w rest
  have hlt := t.isLt
  rcases (by omega : t.toNat ≤ 0x3F ∨ 0x40 ≤ t.toNat ∧ t.toNat ≤ 0x7F ∨ 0x80 ≤ t.toNat ∧ t.toNat ≤ 0xBF ∨
    0xC0 ≤ t.toNat ∧ t.toNat ≤ 0xFD ∨ t.toNat = 0xFE ∨ t.toNat = 0xFF) with
    hi | ⟨hlo, hhi⟩ | ⟨hlo, hhi⟩ | ⟨hlo, hhi⟩ | hFE | hFF
  · have hslot : Fin.ofNat 64 (bits t 5 0) = Fin.ofNat 64 t.toNat := by
      rw [bits_low_six]
      exact Fin.ext (Nat.mod_mod _ _)
    refine ⟨_, decode_index (topBits_of_indexTag hi) _, fun _ => ⟨by rw [hslot], rfl⟩, ?_, ?_, ?_, ?_, ?_⟩ <;>
      exact fun h => absurd h (by omega)
  · refine ⟨_, decode_diff (topBits_of_diffTag hlo hhi) _, ?_, fun _ => ⟨⟨_, _, _, rfl⟩, rfl⟩, ?_, ?_, ?_, ?_⟩ <;>
      exact fun h => absurd h (by omega)
  · refine ⟨_, decode_luma (topBits_of_lumaTag hlo hhi) x _, ?_, ?_, fun _ => ⟨⟨_, _, _, rfl⟩, rfl⟩, ?_, ?_, ?_⟩ <;>
      exact fun h => absurd h (by omega)
  · obtain ⟨hFE, hFF⟩ := ne_exactTags_of_le hhi
    have hlength : bits t 5 0 + 1 = t.toNat - 0xBF := by rw [bits_low_six]; omega
    refine ⟨_, decode_run hFE hFF (topBits_of_runTag hlo) _, ?_, ?_, ?_, fun _ => ⟨by rw [hlength], rfl⟩, ?_, ?_⟩ <;>
      exact fun h => absurd h (by omega)
  · obtain rfl : t = 0xFE := BitVec.eq_of_toNat_eq hFE
    refine ⟨_, decode_rgb x y z (w :: rest), ?_, ?_, ?_, ?_, fun _ => ⟨rfl, rfl⟩, ?_⟩ <;>
      exact fun h => absurd h (by decide)
  · obtain rfl : t = 0xFF := BitVec.eq_of_toNat_eq hFF
    refine ⟨_, decode_rgba x y z w rest, ?_, ?_, ?_, ?_, ?_, fun _ => ⟨rfl, rfl⟩⟩ <;>
      exact fun h => absurd h (by decide)

namespace Machine

/-- A tag that is neither exact nor of LUMA's group needs no operand byte (R123). -/
theorem operandBytes_eq_zero {t : Byte} (hFE : t ≠ 0xFE) (hFF : t ≠ 0xFF) (hluma : t &&& 0xC0 ≠ 0x80) :
    operandBytes t = 0 := by
  rw [operandBytes, if_neg hFE, if_neg hFF, if_neg hluma]

/-- A LUMA tag needs one operand byte (R123). -/
theorem operandBytes_luma {t : Byte} (hluma : t &&& 0xC0 = 0x80) : operandBytes t = 1 := by
  obtain ⟨hFE, hFF⟩ := ne_exactTags_of_topBits_ne (t := t) (by rw [hluma]; decide)
  rw [operandBytes, if_neg hFE, if_neg hFF, if_pos hluma]

/-- An operation is read only where its operand bytes are (R123). -/
theorem operandBytes_le_of_decode_ok {bs : List Byte} {i : Instr} {rest : List Byte} (h : decode bs = .ok (i, rest)) :
    ∃ t tl, bs = t :: tl ∧ operandBytes t ≤ tl.length := by
  rcases decode_ok h with ⟨r, g, b, rfl, -⟩ | ⟨r, g, b, a, rfl, -⟩ | ⟨t, rfl, hFE, hFF, hrun, -⟩ |
    ⟨t, b2, rfl, hluma, -⟩ | ⟨t, rfl, hdiff, -⟩ | ⟨t, rfl, hrun, hluma, -, -⟩ <;> refine ⟨_, _, rfl, ?_⟩
  · exact Nat.le_add_left 3 _
  · exact Nat.le_add_left 4 _
  · rw [operandBytes_eq_zero hFE hFF (by rw [hrun]; decide)]
    exact Nat.zero_le _
  · rw [operandBytes_luma hluma]
    exact Nat.le_add_left 1 _
  · obtain ⟨hFE, hFF⟩ := ne_exactTags_of_topBits_ne (t := t) (by rw [hdiff]; decide)
    rw [operandBytes_eq_zero hFE hFF (by rw [hdiff]; decide)]
    exact Nat.zero_le _
  · obtain ⟨hFE, hFF⟩ := ne_exactTags_of_topBits_ne hrun
    rw [operandBytes_eq_zero hFE hFF hluma]
    exact Nat.zero_le _

/-- Where its operand bytes are, an operation is read: no tag value is illegal (R123, section 4). -/
theorem decode_ok_of_operandBytes_le {t : Byte} {tl : List Byte} (h : operandBytes t ≤ tl.length) :
    ∃ x, decode (t :: tl) = .ok x := by
  by_cases hFE : t = 0xFE
  · subst hFE
    obtain _ | ⟨r, _ | ⟨g, _ | ⟨b, rest⟩⟩⟩ := tl
    · exact absurd h (by decide)
    · exact absurd h (by simp [operandBytes])
    · exact absurd h (by simp [operandBytes])
    · exact ⟨_, decode_rgb r g b rest⟩
  by_cases hFF : t = 0xFF
  · subst hFF
    obtain _ | ⟨r, _ | ⟨g, _ | ⟨b, _ | ⟨a, rest⟩⟩⟩⟩ := tl
    · exact absurd h (by decide)
    · exact absurd h (by simp [operandBytes])
    · exact absurd h (by simp [operandBytes])
    · exact absurd h (by simp [operandBytes])
    · exact ⟨_, decode_rgba r g b a rest⟩
  rcases topBits_cases t with hrun | hluma | hdiff | hindex
  · exact ⟨_, decode_run hFE hFF hrun tl⟩
  · rw [operandBytes_luma hluma] at h
    obtain _ | ⟨b2, rest⟩ := tl
    · exact absurd h (by decide)
    · exact ⟨_, decode_luma hluma b2 rest⟩
  · exact ⟨_, decode_diff hdiff tl⟩
  · exact ⟨_, decode_index hindex tl⟩

/-- Settles O5: an error counts the bytes there (`decode_error`), and there is one exactly when the tag or an operand byte is
missing (`operandBytes_le_of_decode_ok`, `decode_ok_of_operandBytes_le`). -/
theorem parserFailsOnlyShort : Obligations.ParserFailsOnlyShort := by
  unfold Obligations.ParserFailsOnlyShort
  intro bs k
  constructor
  · intro h
    refine ⟨(decode_error h).1, ?_⟩
    obtain _ | ⟨t, tl⟩ := bs
    · exact .inl rfl
    · refine .inr ⟨t, tl, rfl, ?_⟩
      by_contra hle
      obtain ⟨x, hx⟩ := decode_ok_of_operandBytes_le (not_lt.1 hle)
      cases h.symm.trans hx
  · rintro ⟨rfl, hshort⟩
    cases hd : decode bs with
    | error e =>
      obtain ⟨j⟩ := e
      rw [(decode_error hd).1]
    | ok x =>
      obtain ⟨i, rest⟩ := x
      obtain ⟨t, tl, rfl, hle⟩ := operandBytes_le_of_decode_ok hd
      obtain hnil | ⟨t', tl', hcons, hlt⟩ := hshort
      · cases hnil
      · obtain ⟨rfl, rfl⟩ := List.cons.inj hcons
        exact absurd hle (not_le.2 hlt)

end Machine
end Sys2Proof
end

section

namespace Sys2Proof.Machine

/-! ### Worked encodings, the hash and the pixel layouts (spec/30_encoding.md, spec/20_memory.md, spec/10_state.md) -/

/-- Settles O6: each word is read, or written, by computing the parser and the encoder on it. -/
theorem handAssembledWords : Obligations.HandAssembledWords := by
  unfold Obligations.HandAssembledWords
  refine ⟨?index, ?diff, ?luma, ?longestRun, ?shortestRun, decode_rgb 10 20 30 [], decode_rgba 10 20 30 128 [], ?marker,
    ?firstMarkerByte, ?lastMarkerByte⟩
  all_goals decide

/-- The slot of a pixel in terms of the low six bits of its channels: the weighted sum is taken modulo 64 (R31). -/
theorem slotHash_val_low_six (p : Pixel) : (slotHash p).val =
    (3 * bits p.r 5 0 + 5 * bits p.g 5 0 + 7 * bits p.b 5 0 + 11 * bits p.a 5 0) % 64 := by
  rw [slotHash_val, bits_low_six, bits_low_six, bits_low_six, bits_low_six]
  omega

/-- Settles O8 (R31): pixels that agree in the low six bits have equal sums in `slotHash_val_low_six`. -/
theorem hashUsesLowSixBits : Obligations.HashUsesLowSixBits := by
  unfold Obligations.HashUsesLowSixBits
  refine ⟨slotHash_val_low_six, fun p q hr hg hb ha => Fin.ext ?_⟩
  rw [slotHash_val_low_six, slotHash_val_low_six, hr, hg, hb, ha]

/-- The channels of a pixel word (R25). -/
theorem pixelWord_channels (p : Pixel) : (pixelWord p).extractLsb 31 24 = p.r ∧ (pixelWord p).extractLsb 23 16 = p.g ∧
    (pixelWord p).extractLsb 15 8 = p.b ∧ (pixelWord p).extractLsb 7 0 = p.a := by
  refine ⟨?_, ?_, ?_, ?_⟩ <;> ext i hi <;> simp only [pixelWord] <;> grind

/-- The word of the pixel in a word is the word (R25). -/
theorem pixelWord_wordPixel (w : BitVec 32) : pixelWord (wordPixel w) = w := by
  ext i hi
  simp only [pixelWord, wordPixel]
  grind

/-- The number of bytes a pixel takes in the buffer (R48). -/
def ChannelCount.bytes : ChannelCount → Nat
  | .three => 3
  | .four => 4

/-- The bytes of one pixel in the buffer, in channel order (R48). -/
def bufferEntry : ChannelCount → Pixel → List Byte
  | .three, p => [p.r, p.g, p.b]
  | .four, p => [p.r, p.g, p.b, p.a]

@[simp] theorem bufferEntry_length (ch : ChannelCount) (p : Pixel) : (bufferEntry ch p).length = ch.bytes := by
  cases ch <;> rfl

/-- The buffer of delivered pixels holds their entries one after another. -/
theorem bufferBytes_cons (ch : ChannelCount) (p : Pixel) (ps : List Pixel) :
    bufferBytes ((p :: ps).map (outPixel ch)) = bufferEntry ch p ++ bufferBytes (ps.map (outPixel ch)) := by
  cases ch <;> rfl

/-- Reading a buffer back takes one entry at a time. -/
theorem bufferPixels_bufferEntry (ch : ChannelCount) (p : Pixel) (bs : List Byte) :
    bufferPixels ch (bufferEntry ch p ++ bs) = sourcePixel ch p :: bufferPixels ch bs := by
  cases ch <;> rfl

theorem bufferBytes_length (ch : ChannelCount) (ps : List Pixel) :
    (bufferBytes (ps.map (outPixel ch))).length = ch.bytes * ps.length := by
  induction ps with
  | nil => rfl
  | cons p ps ih =>
    rw [bufferBytes_cons, List.length_append, bufferEntry_length, ih, List.length_cons, Nat.mul_succ, Nat.add_comm]

/-- Pixel `k` stands at bytes `k*CH` (R48). -/
theorem bufferBytes_entry (ch : ChannelCount) {ps : List Pixel} {k : Nat} {p : Pixel} (h : ps[k]? = some p) :
    ((bufferBytes (ps.map (outPixel ch))).drop (ch.bytes * k)).take ch.bytes = bufferEntry ch p := by
  induction ps generalizing k with
  | nil => simp at h
  | cons q ps ih =>
    rw [bufferBytes_cons]
    cases k with
    | zero =>
      obtain rfl := Option.some.inj h
      simp
    | succ k =>
      rw [Nat.mul_succ, Nat.add_comm, ← bufferEntry_length ch q, List.drop_length_add_append, bufferEntry_length]
      exact ih h

theorem bufferPixels_bufferBytes (ch : ChannelCount) (ps : List Pixel) :
    bufferPixels ch (bufferBytes (ps.map (outPixel ch))) = ps.map (sourcePixel ch) := by
  induction ps with
  | nil => cases ch <;> rfl
  | cons p ps ih => rw [bufferBytes_cons, bufferPixels_bufferEntry, ih, List.map_cons]

/-- Settles O9 (R25, R48): the word by its bits, the buffer entry by entry. -/
theorem pixelLayouts : Obligations.PixelLayouts := by
  unfold Obligations.PixelLayouts
  refine ⟨fun p => ?word, pixelWord_wordPixel, fun ps => ⟨bufferBytes_length .three ps, bufferBytes_length .four ps,
    fun k p h => ⟨bufferBytes_entry .three h, bufferBytes_entry .four h⟩, fun ch => bufferPixels_bufferBytes ch ps⟩⟩
  obtain ⟨hr, hg, hb, ha⟩ := pixelWord_channels p
  refine ⟨hr, hg, hb, ha, ?_⟩
  calc wordPixel (pixelWord p)
      = ⟨(pixelWord p).extractLsb 31 24, (pixelWord p).extractLsb 23 16, (pixelWord p).extractLsb 15 8,
          (pixelWord p).extractLsb 7 0⟩ := rfl
    _ = p := by rw [hr, hg, hb, ha]

end Sys2Proof.Machine
end

section

namespace Sys2Proof.Machine

/-! ### The delta unit (spec/40_delta.md) -/

/-- The previous channel plus the difference, modulo 256, is the current channel (R71). -/
theorem toNat_eq_add_channelDelta (wrap : Bool) (cur prev : Byte) :
    (cur.toNat : Int) = (prev.toNat + channelDelta wrap cur prev) % 256 := by
  rw [← addDelta_toNat, addDelta_channelDelta]

/-- Settles O10 (R71): the differences are those of the three channels. -/
theorem wrappedDifference : Obligations.WrappedDifference := by
  unfold Obligations.WrappedDifference
  refine fun cur prev => ⟨fun v hv => ?range, toNat_eq_add_channelDelta true _ _, toNat_eq_add_channelDelta true _ _,
    toNat_eq_add_channelDelta true _ _⟩
  simp only [List.mem_cons, List.not_mem_nil, or_false] at hv
  obtain rfl | rfl | rfl := hv <;> exact channelDelta_range _ _

/-- Deltas fit DIFF exactly when they are operands of a DIFF (R56, R73). -/
theorem diffFits_iff_wf (v : Int × Int × Int) : diffFits v = true ↔ (Instr.diff v.1 v.2.1 v.2.2).wf = true := by
  rw [diffFits_iff, Instr.wf_diff]

/-- Deltas fit LUMA exactly when green's and the two differences are operands of a LUMA (R56, R76). -/
theorem lumaFits_iff_wf (v : Int × Int × Int) :
    lumaFits v = true ↔ (Instr.luma v.2.1 (v.1 - v.2.1) (v.2.2 - v.2.1)).wf = true := by
  rw [lumaFits_iff, Instr.wf_luma]

/-- Applying the differences to the previous pixel gives the colours of the current one (R80). -/
theorem diffApply_deltaWith (wrap : Bool) {cur prev : Pixel} (h : cur.a = prev.a) :
    diffApply prev (deltaWith wrap cur prev).1 (deltaWith wrap cur prev).2.1 (deltaWith wrap cur prev).2.2 = cur := by
  simp only [diffApply, deltaWith, addDelta_channelDelta, ← h]

/-- LUMA's two second differences are taken against green's, which `luma_apply` adds again (R78). -/
theorem lumaApply_eq_diffApply (prev : Pixel) (vr vg vb : Int) :
    lumaApply prev vg (vr - vg) (vb - vg) = diffApply prev vr vg vb := by
  simp only [lumaApply, diffApply, sub_add_cancel]

/-- Settles O11 (R80): the packed fields come back (`diffUnpack_diffPack`, `lumaUnpack_lumaBytes`), and the differences lead from
the previous pixel to the current one. -/
theorem deltaInverse : Obligations.DeltaInverse := by
  unfold Obligations.DeltaInverse
  intro wrap cur prev halpha
  refine ⟨fun hfits => ?diff, fun hfits => ?luma⟩
  case diff =>
    dsimp only
    rw [diffUnpack_diffPack ((diffFits_iff_wf _).1 hfits)]
    exact diffApply_deltaWith wrap halpha
  case luma =>
    dsimp only [lumaPack]
    rw [lumaUnpack_lumaBytes ((lumaFits_iff_wf _).1 hfits)]
    dsimp only
    rw [lumaApply_eq_diffApply]
    exact diffApply_deltaWith wrap halpha

/-- Settles O12 (R81): LUMA's ranges contain DIFF's, and differences of DIFF's deltas are in -3..3. -/
theorem diffFitsLuma : Obligations.DiffFitsLuma := by
  unfold Obligations.DiffFitsLuma
  intro v h
  rw [diffFits_iff] at h
  rw [lumaFits_iff]
  omega

/-- Settles O13 (R82): unpacking after packing and packing after unpacking, for each layout; the 2-bit group gives the ranges. -/
theorem deltaBytesAreBijections : Obligations.DeltaBytesAreBijections := by
  unfold Obligations.DeltaBytesAreBijections
  refine ⟨fun v hfits => ?packDiff, fun t hlo hhi => ?unpackDiff, fun v hfits => ?packLuma, fun t b2 hlo hhi => ?unpackLuma⟩
  case packDiff =>
    have hwf := (diffFits_iff_wf v).1 hfits
    have htop := topBits_toNat (diffPack v.1 v.2.1 v.2.2)
    rw [diffPack_topBits hwf, show (0x40 : Byte).toNat = 64 from rfl] at htop
    exact ⟨by omega, by omega, diffUnpack_diffPack hwf⟩
  case unpackDiff => exact ⟨(diffFits_iff_wf _).2 (diffUnpack_wf t), diffPack_diffUnpack t (topBits_of_diffTag hlo hhi)⟩
  case packLuma =>
    have hwf := (lumaFits_iff_wf v).1 hfits
    have htop := topBits_toNat (lumaPack v.1 v.2.1 v.2.2).1
    rw [lumaPack, lumaBytes_topBits hwf, show (0x80 : Byte).toNat = 128 from rfl] at htop
    exact ⟨by rw [lumaPack]; omega, by rw [lumaPack]; omega, lumaUnpack_lumaBytes hwf⟩
  case unpackLuma =>
    dsimp only
    rw [lumaFits_iff_wf, lumaPack]
    dsimp only
    rw [add_sub_cancel_right, add_sub_cancel_right]
    exact ⟨lumaUnpack_wf t b2, lumaBytes_lumaUnpack (topBits_of_lumaTag hlo hhi) b2⟩

end Sys2Proof.Machine
end

section

namespace Sys2Proof.Machine

/-! ### When the decode side has a move, and which (spec/42_decoder.md R121 to R123) -/

/-- Whether `DEC` fetches does not depend on the events. -/
theorem DecFetches.withAgenda {s : State} (h : DecFetches s) (vs : List Event) : DecFetches { s with agenda := vs } :=
  ⟨h.phase, h.fault, h.more, h.run⟩

/-- With a pixel to produce and no fault the move is the core's own, on a bare core and inside `decode`. -/
theorem decMove_eq_core {s : State} (hp : s.dec.phase = .bare ∨ s.dec.phase = .pixels) (hf : s.dec.fault = none)
    (hm : s.dec.pixpos ≠ s.dec.n) : decMove s = decCoreMove s := by
  obtain hp | hp := hp
  · simp only [decMove, hp]
  · simp [decMove, hp, hf, Decoder.over, hm]

/-- With a run pending the move expands it (R122). -/
theorem decMove_of_run {s : State} (hp : s.dec.phase = .bare ∨ s.dec.phase = .pixels) (hf : s.dec.fault = none)
    (hm : s.dec.pixpos ≠ s.dec.n) (hr : s.dec.ctx.run ≠ 0) : decMove s = .ok (.next (s.withDec s.dec.expandRun)) := by
  rw [decMove_eq_core hp hf hm]
  simp only [decCoreMove, hf, Decoder.over, beq_iff_eq, hm, hr, ne_eq, not_false_eq_true, if_true, Option.isSome_none,
    Bool.false_eq_true, if_false]

/-- A fetching `DEC` runs the operation at `BYTEPOS` (R123). -/
theorem DecFetches.move_of_ok {s : State} (h : DecFetches s) {i : Instr} {rest : List Byte}
    (hd : decode (s.dec.fetch maxLength) = .ok (i, rest)) : decMove s = .ok (exec i s) := by
  rw [decMove_eq_core h.phase h.fault h.more]
  simp [decCoreMove, h.fault, Decoder.over, h.more, h.run, hd]

/-- A fetching `DEC` with a byte missing of an ended source raises `TruncatedStream` (R172). -/
theorem DecFetches.move_of_truncated {s : State} (h : DecFetches s) {k : Nat} (he : s.dec.source.ended = true)
    (hd : decode (s.dec.fetch maxLength) = .error (.truncated k)) :
    decMove s = .ok (.next (s.withDec (s.dec.raiseTruncated k))) := by
  rw [decMove_eq_core h.phase h.fault h.more]
  simp [decCoreMove, h.fault, Decoder.over, h.more, h.run, hd, he]

/-- A fetching `DEC` with a byte missing of a source that has not ended waits (R187). -/
theorem DecFetches.move_of_waiting {s : State} (h : DecFetches s) {k : Nat} (he : s.dec.source.ended = false)
    (hd : decode (s.dec.fetch maxLength) = .error (.truncated k)) : decMove s = .error .waiting := by
  rw [decMove_eq_core h.phase h.fault h.more]
  simp [decCoreMove, h.fault, Decoder.over, h.more, h.run, hd, he]

/-- The bare core has no move once its pixels are produced, nor with a fault (R18, R133). -/
theorem decCoreMove_error_of_stopped {s : State} (h : s.dec.pixpos = s.dec.n ∨ s.dec.fault ≠ none) :
    ∃ x, decCoreMove s = .error x := by
  cases hmove : decCoreMove s with
  | error x => exact ⟨x, rfl⟩
  | ok o =>
    obtain ⟨d, -, hcase⟩ := decCoreMove_cases hmove
    have hmore : s.dec.pixpos ≠ s.dec.n := by cases hcase <;> assumption
    exact h.elim (absurd · hmore) (absurd hcase.fault_eq_none)

/-- The bare `ENC` has no move once its pixels are processed, nor before the next has come, nor with a fault or a failed sink
(R18, R110, R176). -/
theorem Encoder.coreMove_error_of_stopped {e : Encoder}
    (h : e.pixpos = e.n ∨ e.nextPixel = none ∨ e.fault ≠ none ∨ e.sink.failed = true) : ∃ x, e.coreMove = .error x := by
  cases hmove : e.coreMove with
  | error x => exact ⟨x, rfl⟩
  | ok e' =>
    obtain ⟨p, hf, hm, hk, hx, -⟩ := Encoder.coreMove_ok hmove
    simp [hf, hm, hk, hx] at h

/-! ### The steps such moves give -/

/-- The turn of a decode side without a move changes nothing (log entry 3). -/
theorem step_dec_of_stop {s : State} {vs : List Event} {x : DecStop} (ha : s.agenda = .dec :: vs)
    (h : decMove { s with agenda := vs } = .error x) : step s = .next { s with agenda := vs } := by
  simp only [step, ha, takeEvent, decTurn, h]

/-- The turn of an encode side without a move changes nothing (log entry 3). -/
theorem step_enc_of_stop {s : State} {vs : List Event} {x : EncStop} (ha : s.agenda = .enc :: vs)
    (h : s.enc.move = .error x) : step s = .next { s with agenda := vs } := by
  simp only [step, ha, takeEvent, encTurn, h]

/-- The step on a byte missing of an ended source. -/
theorem step_truncated {s : State} {vs : List Event} {k : Nat} (hf : DecFetches s) (ht : DecTurn s vs)
    (he : s.dec.source.ended = true)
    (hd : decode (s.dec.source.bytes.window (s.dec.base + s.dec.bytepos) 5) = .error (.truncated k)) :
    step s = .next { s with dec := s.dec.raiseTruncated k, agenda := vs } :=
  step_decTurn ht ((hf.withAgenda vs).move_of_truncated he hd)

/-- Such a step in the terms of the claims (R172, R134). -/
theorem exists_step_truncatedAt {s : State} {vs : List Event} {k : Nat} (hf : DecFetches s) (ht : DecTurn s vs)
    (he : s.dec.source.ended = true)
    (hd : decode (s.dec.source.bytes.window (s.dec.base + s.dec.bytepos) 5) = .error (.truncated k)) :
    ∃ t, step s = .next t ∧ TruncatedAt s t k :=
  ⟨_, step_truncated hf ht he hd, rfl, rfl, rfl, rfl⟩

/-- Settles O22 (R121, R123): the fetching `DEC`'s move is the operation's meaning, and with the turn the move is the step. -/
theorem stepRunsTheDecodedOperation : Obligations.StepRunsTheDecodedOperation := by
  unfold Obligations.StepRunsTheDecodedOperation
  intro s vs i rest hf ht hd
  exact step_decTurn ht ((hf.withAgenda vs).move_of_ok hd)

/-- Settles O23 (R122): with a run pending the move is the run expander (`decMove_of_run`), whose effect is `expandRun_spec`. -/
theorem runExpanderStep : Obligations.RunExpanderStep := by
  unfold Obligations.RunExpanderStep
  intro s vs hp hf hm hr ht
  exact ⟨_, step_decTurn ht (decMove_of_run (s := { s with agenda := vs }) hp hf hm hr), expandRun_spec _ hr⟩

/-- The byte an operation is cut short by is not there: the parser counts the bytes of the window, which ends at it. -/
theorem Decoder.read_missing {d : Decoder} {k : Nat} (hd : decode (d.fetch maxLength) = .error (.truncated k)) :
    d.source.bytes.read (d.base + (d.bytepos + k)) = none := by
  obtain ⟨hk, hlt⟩ := decode_error hd
  rw [← Nat.add_assoc, hk]
  exact Memory.window_short _ _ maxLength (hk ▸ hlt)

/-- Settles O24 (R134, R179): the step raises the error (`step_truncated`) at the missing byte (`Decoder.read_missing`). -/
theorem truncatedStep : Obligations.TruncatedStep := by
  unfold Obligations.TruncatedStep
  intro s vs k hf ht he hd
  exact ⟨_, step_truncated hf ht he hd, rfl, rfl, rfl, Decoder.read_missing (d := s.dec) hd, rfl, rfl, rfl, rfl, rfl, rfl, rfl, rfl, rfl, rfl⟩

/-- Settles O25: in each case the side has no move, and its turn then changes nothing (`step_dec_of_stop`, `step_enc_of_stop`). -/
theorem turnWithoutAStep : Obligations.TurnWithoutAStep := by
  unfold Obligations.TurnWithoutAStep
  refine ⟨fun s vs k hf ha he hd => ?decWaits, fun s vs hp ha hstop => ?decStopped, fun s vs r hp ha => ?decDone,
    fun s vs hp ha hstop => ?encStopped, fun s vs hp ha hm hk hx => ?encWaits, fun s vs r hp ha => ?encDone⟩
  case decWaits => exact step_dec_of_stop ha ((hf.withAgenda vs).move_of_waiting he hd)
  case decStopped =>
    obtain ⟨x, hx⟩ := decCoreMove_error_of_stopped (s := { s with agenda := vs }) hstop
    exact step_dec_of_stop (x := x) ha (by simp only [decMove, hp, hx])
  case decDone => exact step_dec_of_stop (x := .done) ha (by simp only [decMove, hp])
  case encStopped =>
    obtain ⟨x, hx⟩ := Encoder.coreMove_error_of_stopped hstop
    exact step_enc_of_stop (x := x) ha (by simp only [Encoder.move, hp, hx])
  case encWaits =>
    obtain ⟨x, hx⟩ := Encoder.coreMove_error_of_stopped (.inr (.inl hx))
    exact step_enc_of_stop (x := x) ha (by simp [Encoder.move, hp, hk, Encoder.over, hm, hx])
  case encDone => exact step_enc_of_stop (x := .done) ha (by simp only [Encoder.move, hp])

end Sys2Proof.Machine
end

section

namespace Sys2Proof.Machine

/-! ### RGB, RGBA and LUMA: layout, effect and frame (spec/42_decoder.md R124, R125, R127) -/

/-- Too few operand bytes behind the tag: the parser counts the tag and those that are there (R60). -/
theorem decode_short {t : Byte} {tl : List Byte} (h : tl.length < operandBytes t) :
    decode (t :: tl) = .error (.truncated (1 + tl.length)) :=
  (parserFailsOnlyShort (t :: tl) (1 + tl.length)).2 ⟨Nat.add_comm 1 _, .inr ⟨t, tl, rfl, h⟩⟩

/-- The step on an operation cut short by the end of its source. -/
theorem exists_step_of_short {s : State} {vs : List Event} {t : Byte} {tl : List Byte} (hf : DecFetches s)
    (ht : DecTurn s vs) (he : s.dec.source.ended = true)
    (hw : s.dec.source.bytes.window (s.dec.base + s.dec.bytepos) 5 = t :: tl) (hl : tl.length < operandBytes t) :
    ∃ u, step s = .next u ∧ TruncatedAt s u (1 + tl.length) :=
  exists_step_truncatedAt hf ht he (by rw [hw, decode_short hl])

/-- Settles O15 (R124): the exact tag, the tail of a non-run operation, and the parser's failure below three operand bytes. -/
theorem rgbRuns : Obligations.RgbRuns := by
  unfold Obligations.RgbRuns
  exact ⟨decode_rgb, fun r g b s => storeOp_spec 4 _ s,
    fun s vs bs hf ht he hw hl => exists_step_of_short hf ht he hw hl⟩

/-- Settles O16 (R125): as RGB; the delivered pixel of three channels has no alpha (R131). -/
theorem rgbaRuns : Obligations.RgbaRuns := by
  unfold Obligations.RgbaRuns
  refine ⟨decode_rgba, fun r g b a s => ?effect, fun s vs bs hf ht he hw hl => exists_step_of_short hf ht he hw hl⟩
  obtain ⟨t, ht, op⟩ := storeOp_spec 5 ⟨r, g, b, a⟩ s
  exact ⟨t, ht, op, fun hch => by rw [op.produced.out, hch, outPixel]⟩

/-- Settles O18 (R127): the tag's 2-bit group selects LUMA (`decode_luma`); red and blue add their difference and green's
(`addDelta_sum_toNat`). -/
theorem lumaRuns : Obligations.LumaRuns := by
  unfold Obligations.LumaRuns
  refine ⟨fun t b2 rest hlo hhi => decode_luma (topBits_of_lumaTag hlo hhi) b2 rest, fun dg drg dbg s => ?effect,
    fun s vs t hf ht he hw hlo hhi => ?short⟩
  case effect =>
    obtain ⟨t, ht, op⟩ := storeOp_spec 2 (lumaApply s.dec.ctx.prev dg drg dbg) s
    exact ⟨t, _, ht, op, addDelta_sum_toNat _ drg dg, addDelta_toNat _ dg, addDelta_sum_toNat _ dbg dg, rfl⟩
  case short =>
    refine exists_step_of_short hf ht he hw ?_
    rw [operandBytes_luma (topBits_of_lumaTag hlo hhi)]
    exact Nat.zero_lt_one

end Sys2Proof.Machine
end

section

namespace Sys2Proof.Machine

/-! ### Runs over a list of events, one event at a time -/

/-- A turn of the decode side answers a next state, and neither reads nor changes the encode side and the events (R8). -/
theorem exists_decTurn (s : State) : ∃ d, ∀ e vs, decTurn ⟨s.dec, e, vs⟩ = .next ⟨d, e, vs⟩ := by
  have hcongr := decMove_congr s
  cases hmove : decMove s with
  | ok o =>
    obtain ⟨d, rfl, -⟩ := decMove_cases hmove
    refine ⟨d, fun e vs => ?_⟩
    simp only [decTurn, hcongr e vs, hmove]
    rfl
  | error x =>
    refine ⟨s.dec, fun e vs => ?_⟩
    simp only [decTurn, hcongr e vs, hmove]

/-- A turn of the encode side answers a next state, and neither reads nor changes the decode side and the events (R8). -/
theorem exists_encTurn (s : State) : ∃ e, ∀ d vs, encTurn ⟨d, s.enc, vs⟩ = .next ⟨d, e, vs⟩ := by
  cases hmove : s.enc.move with
  | ok e => exact ⟨e, fun d vs => by simp only [encTurn, hmove]⟩
  | error x => exact ⟨s.enc, fun d vs => by simp only [encTurn, hmove]⟩

/-- What an event does does not depend on the events behind it. -/
theorem takeEvent_agenda {v : Event} {s t : State} (h : takeEvent v s = .next t) (vs : List Event) :
    takeEvent v { s with agenda := vs } = .next { t with agenda := vs } := by
  cases v with
  | dec =>
    obtain ⟨d, hd⟩ := exists_decTurn s
    obtain rfl := Host.Outcome.next.inj ((hd s.enc s.agenda).symm.trans h)
    exact hd s.enc vs
  | enc =>
    obtain ⟨e, he⟩ := exists_encTurn s
    obtain rfl := Host.Outcome.next.inj ((he s.dec s.agenda).symm.trans h)
    exact he s.dec vs
  | host a =>
    simp only [takeEvent] at h ⊢
    cases a with
    | startEnc n c | startDec n c =>
      simp only [hostAct] at h ⊢
      split at h <;> cases h
      rfl
    | deliverByte b =>
      simp only [hostAct] at h ⊢
      split at h
      · cases h
      · next hopen =>
        cases h
        rw [if_neg hopen]
    | resetEnc | resetDec | deliverPixel p | endBytes | limitSink l | encodeFile hd | decodeFile => cases h; rfl

/-- A run takes its oldest event and goes on from the state that gives. -/
theorem runEvents_step {v : Event} {s t : State} (h : takeEvent v s = .next t) (vs : List Event) :
    runEvents (v :: vs) s = runEvents vs t :=
  runEvents_cons (t := { t with agenda := vs }) (takeEvent_agenda h vs) rfl

/-- A run whose oldest event is a turn of a decode side with a move. -/
theorem runEvents_dec {s t : State} (h : decMove s = .ok (.next t)) (vs : List Event) :
    runEvents (.dec :: vs) s = runEvents vs t :=
  runEvents_step (by simp only [takeEvent, decTurn, h]) vs

/-- A run whose oldest event is a turn of an encode side with a move. -/
theorem runEvents_enc {s : State} {e : Encoder} (h : s.enc.move = .ok e) (vs : List Event) :
    runEvents (.enc :: vs) s = runEvents vs { s with enc := e } :=
  runEvents_step (by simp only [takeEvent, encTurn, h]) vs

end Sys2Proof.Machine
end

section

namespace Sys2Proof.Machine

/-! ### RUN and the pixels of its run (spec/42_decoder.md R122, R126) -/

/-- The decode side of `u` is that of `s` after `k` pixels of a pending run. -/
structure RunExpanded (s u : State) (k : Nat) : Prop where
  out : u.dec.out = s.dec.out ++ List.replicate k (outPixel s.dec.ch s.dec.ctx.prev)
  pixpos : u.dec.pixpos = s.dec.pixpos + k
  run : u.dec.ctx.run.toNat = s.dec.ctx.run.toNat - k
  prev : u.dec.ctx.prev = s.dec.ctx.prev
  cache : ∀ i, u.dec.ctx.lookup i = s.dec.ctx.lookup i
  bytepos : u.dec.bytepos = s.dec.bytepos
  phase : u.dec.phase = s.dec.phase

/-- `k` turns with at least `k` pixels of the run and of `N` left expand `k` of them. -/
theorem runEvents_expandRun (k : Nat) {s : State} (hp : s.dec.phase = .bare ∨ s.dec.phase = .pixels)
    (hf : s.dec.fault = none) (hr : k ≤ s.dec.ctx.run.toNat) (hn : s.dec.pixpos + k ≤ s.dec.n) :
    ∃ u, runEvents (List.replicate k .dec) s = .next u ∧ RunExpanded s u k := by
  induction k generalizing s with
  | zero => exact ⟨_, rfl, by simp, rfl, rfl, rfl, fun _ => rfl, rfl, rfl⟩
  | succ k ih =>
    have hrun : s.dec.ctx.run ≠ 0 := fun h => by rw [h] at hr; simp at hr
    have one := expandRun_spec s hrun
    have hrun' := one.run
    obtain ⟨u, hu, more⟩ := ih (s := s.withDec s.dec.expandRun) hp hf (by omega)
      (by simp only [State.withDec_dec, Decoder.expandRun_pixpos, Decoder.expandRun_n]; omega)
    refine ⟨u, (runEvents_dec (decMove_of_run hp hf (by omega) hrun) _).trans hu, ?_, ?_, ?_, ?_, ?_, ?_, ?_⟩
    · rw [more.out, one.produced.out, one.produced.prev, one.frame.ch, List.append_assoc]
      rfl
    · rw [more.pixpos, one.produced.pixpos]; omega
    · rw [more.run, hrun']; omega
    · rw [more.prev, one.produced.prev]
    · exact fun i => (more.cache i).trans (one.cache i)
    · exact more.bytepos
    · exact more.phase

/-- Settles O17 (R126): RUN delivers the first pixel (`exec_run_spec`) and the run expander the others (`runEvents_expandRun`); at
`N` a bare `DEC` has no move. -/
theorem runRuns : Obligations.RunRuns := by
  unfold Obligations.RunRuns
  refine ⟨fun t rest hlo hhi => ?layout, fun length s h1 h62 => ?effect⟩
  case layout =>
    obtain ⟨hFE, hFF⟩ := ne_exactTags_of_le hhi
    exact decode_run hFE hFF (topBits_of_runTag hlo) rest
  case effect =>
    obtain ⟨t, ht, op⟩ := exec_run_spec length s
    rw [Nat.mod_eq_of_lt (by omega)] at op
    refine ⟨t, ht, op, fun hp hf k hk hn => ?_⟩
    rw [← op.frame.phase] at hp
    obtain ⟨u, hu, more⟩ := runEvents_expandRun k hp (op.frame.fault.trans hf) (op.run ▸ hk) hn
    refine ⟨u, hu, ?_, ?_, ?_, ?_, fun i => (more.cache i).trans (op.cache i), more.bytepos.trans op.bytepos,
      fun hbare hover => ?_⟩
    · rw [more.out, op.produced.out, op.produced.prev, op.frame.ch, List.append_assoc]
      rfl
    · rw [more.pixpos, op.produced.pixpos]; omega
    · rw [more.run, op.run]
    · rw [more.prev, op.produced.prev]
    · have hbare' : u.dec.phase = .bare := by rw [more.phase, op.frame.phase, hbare]
      obtain ⟨x, hx⟩ := decCoreMove_error_of_stopped (s := { u with agenda := [] }) (.inl hover)
      exact step_dec_of_stop (s := { u with agenda := [.dec] }) (x := x) rfl (by simp only [decMove, hbare', hx])

end Sys2Proof.Machine
end

section

namespace Sys2Proof.Machine

/-! ### Stream starts, resets and calls (spec/70_reset_and_hazards.md, spec/43_container.md) -/

/-- The step on an action of the host. -/
theorem step_host {s : State} {a : HostAction} {vs : List Event} (h : s.agenda = .host a :: vs) :
    step s = hostAct a { s with agenda := vs } := by
  simp only [step, h, takeEvent]

/-- The channel count of a supported channels value (R7). -/
theorem channelCount_of_supported {c : Byte} (h : c = 3 ∨ c = 4) :
    channelCount c = some (if c = 3 then .three else .four) := by
  obtain rfl | rfl := h <;> rfl

/-- A channels value without a meaning is neither 3 nor 4 (R159). -/
theorem ne_of_channelCount_eq_none {c : Byte} (h : channelCount c = none) : c ≠ 3 ∧ c ≠ 4 := by
  constructor <;> rintro rfl <;> cases h

/-- Settles O28: the calls replace the streams, the phase and `encode`'s header alone. -/
theorem fileCallsLeaveTheCore : Obligations.FileCallsLeaveTheCore := by
  unfold Obligations.FileCallsLeaveTheCore
  exact ⟨fun s vs h => ⟨_, step_host h, fun _ => rfl, rfl, rfl, rfl, rfl, rfl, rfl, rfl, rfl, rfl, rfl⟩,
    fun s hd vs h => ⟨_, step_host h, fun _ => rfl, rfl, rfl, rfl, rfl, rfl, rfl, rfl, rfl, rfl, rfl, rfl⟩⟩

/-- Settles O30 (R190, R191): a start and a reset replace the decode side by a fresh one. -/
theorem decoderStreamStart : Obligations.DecoderStreamStart := by
  unfold Obligations.DecoderStreamStart
  refine ⟨fun s n c vs h hc => ?start, fun s n c vs h h3 h4 => ?refused, fun s vs h => ?reset⟩
  case start =>
    have hact : hostAct (.startDec n c) { s with agenda := vs } =
        .next { s with dec := Decoder.fresh n (if c = 3 then .three else .four), agenda := vs } := by
      simp only [hostAct, channelCount_of_supported hc]
    exact ⟨_, (step_host h).trans hact, Context.lookup_init, rfl, rfl, rfl, rfl, rfl, rfl, rfl, rfl, rfl, rfl⟩
  case refused =>
    rw [step_host h]
    simp only [hostAct, channelCount_eq_none h3 h4]
  case reset => exact ⟨_, step_host h, Context.lookup_init, rfl, rfl, rfl, rfl, rfl, rfl, rfl, rfl, rfl⟩

/-- Settles O31 (R190, R191): a start and a reset replace the encode side by a fresh one. -/
theorem encoderStreamStart : Obligations.EncoderStreamStart := by
  unfold Obligations.EncoderStreamStart
  refine ⟨fun s n c vs h hc => ?start, fun s n c vs h h3 h4 => ?refused, fun s vs h => ?reset⟩
  case start =>
    have hact : hostAct (.startEnc n c) { s with agenda := vs } =
        .next { s with enc := Encoder.fresh n (if c = 3 then .three else .four), agenda := vs } := by
      simp only [hostAct, channelCount_of_supported hc]
    exact ⟨_, (step_host h).trans hact, Context.lookup_init, rfl, rfl, rfl, rfl, rfl, rfl, rfl, rfl, rfl⟩
  case refused =>
    rw [step_host h]
    simp only [hostAct, channelCount_eq_none h3 h4]
  case reset => exact ⟨_, step_host h, Context.lookup_init, rfl, rfl, rfl, rfl, rfl, rfl, rfl, rfl, rfl⟩

end Sys2Proof.Machine
end

section

namespace Sys2Proof.Machine

/-! ### `N` and `CH` between stream starts (spec/10_state.md R19) -/

/-- What no step of the core of `DEC` changes. -/
structure CoreFrame (d d' : Decoder) : Prop where
  n : d'.n = d.n
  ch : d'.ch = d.ch
  source : d'.source = d.source
  base : d'.base = d.base
  phase : d'.phase = d.phase
  header : d'.header = d.header

/-- No operation, run expansion or truncation changes the configuration, the source and the wrapper's half. -/
theorem CoreDecCase.frame {d d' : Decoder} (h : CoreDecCase d d') : CoreFrame d d' := by
  cases h with
  | expand => exact ⟨rfl, rfl, rfl, rfl, rfl, rfl⟩
  | truncated => exact ⟨rfl, rfl, rfl, rfl, rfl, rfl⟩
  | op hf hm hr i rest hd =>
    obtain ⟨p, hop⟩ | ⟨length, -, hop⟩ := opDec_cases i d <;> rw [hop] <;> exact ⟨rfl, rfl, rfl, rfl, rfl, rfl⟩

/-- A move of the decode side starts the stream behind the header (R156), or leaves `N` and `CH`. -/
theorem DecCase.starts_or_keeps_config {d d' : Decoder} (h : DecCase d d') :
    (d.phase = .fields ∧ d'.phase = .pixels) ∨ (d'.n = d.n ∧ d'.ch = d.ch) := by
  cases h with
  | core hp h => exact .inr ⟨h.frame.n, h.frame.ch⟩
  | magic hp h =>
    obtain ⟨p, -, rfl⟩ := readMagic_ok h
    exact .inr ⟨rfl, rfl⟩
  | fields hp h =>
    obtain ⟨hd, n, ch, rfl⟩ | ⟨hd, r, rfl⟩ := readFields_ok h
    · exact .inl ⟨hp, rfl⟩
    · exact .inr ⟨rfl, rfl⟩
  | finish hp h =>
    obtain ⟨r, rfl⟩ := finish_ok h
    exact .inr ⟨rfl, rfl⟩

/-- A move of the encode side starts the stream behind the header (R155), or leaves `N` and `CH`. -/
theorem EncCase.starts_or_keeps_config {e e' : Encoder} (h : EncCase e e') :
    (e.phase = .header ∧ e'.phase = .pixels) ∨ (e'.n = e.n ∧ e'.ch = e.ch) := by
  cases h with
  | core p => obtain ⟨-, hstep⟩ | ⟨-, hstep⟩ := e.step_cases p <;> rw [hstep] <;> exact .inr ⟨rfl, rfl⟩
  | header hp ch hc hk => exact .inl ⟨hp, rfl⟩
  | marker hp hm hk => exact .inr ⟨rfl, rfl⟩
  | failed a bs r hr ha => exact .inr ⟨rfl, rfl⟩

/-- Settles O27 (R19): a turn starts a stream or keeps the configuration, and so does an action of the host
(`hostAct_starts_or_keeps`). -/
theorem stepKeepsConfiguration : Obligations.StepKeepsConfiguration := by
  unfold Obligations.StepKeepsConfiguration
  intro s t h
  cases step_cases h with
  | dec d vs hv hc =>
    refine ⟨fun hno => ?_, fun _ => ⟨rfl, rfl⟩⟩
    obtain ⟨hp, hp'⟩ | hkeep := hc.starts_or_keeps_config
    · exact absurd (.inr (.inr ⟨hp, hp', vs, hv⟩)) hno
    · exact hkeep
  | enc e vs hv hc =>
    refine ⟨fun _ => ⟨rfl, rfl⟩, fun hno => ?_⟩
    obtain ⟨hp, hp'⟩ | hkeep := hc.starts_or_keeps_config
    · exact absurd (.inr (.inr ⟨hp, hp', hv.elim (fun hturn => .inr ⟨vs, hturn⟩) (fun hfree => .inl hfree.1)⟩)) hno
    · exact hkeep
  | skip v vs hv => exact ⟨fun _ => ⟨rfl, rfl⟩, fun _ => ⟨rfl, rfl⟩⟩
  | host a vs hv _ ha =>
    obtain ⟨hdec, henc⟩ := hostAct_starts_or_keeps ha
    refine ⟨fun hno => ?_, fun hno => ?_⟩
    · obtain ⟨hstart, -⟩ | ⟨src, p, hkeep⟩ := hdec
      · obtain ⟨n, c, rfl⟩ | rfl := hstart
        · exact absurd (.inl ⟨n, c, vs, hv⟩) hno
        · exact absurd (.inr (.inl ⟨vs, hv⟩)) hno
      · rw [hkeep]
        exact ⟨rfl, rfl⟩
    · obtain ⟨hstart, -⟩ | ⟨ps, k, p, hd, hkeep⟩ := henc
      · obtain ⟨n, c, rfl⟩ | rfl := hstart
        · exact absurd (.inl ⟨n, c, vs, hv⟩) hno
        · exact absurd (.inr (.inl ⟨vs, hv⟩)) hno
      · rw [hkeep]
        exact ⟨rfl, rfl⟩

end Sys2Proof.Machine
end

section

namespace Sys2Proof.Machine

/-! ### Where the machine stops (spec/60_exceptions.md section 5) -/

/-- What the host can ask that is refused (R7, R204). -/
theorem hostAct_refused {a : HostAction} {s : State} {r : Refusal} (h : hostAct a s = .refused r) :
    (∃ n c, (a = .startEnc n c ∨ a = .startDec n c) ∧ c ≠ 3 ∧ c ≠ 4 ∧ r = .unsupportedChannelCount c) ∨
    (∃ b, a = .deliverByte b ∧ s.dec.source.ended = true ∧ r = .byteAfterEnd) := by
  cases a with
  | startEnc n c =>
    simp only [hostAct] at h
    split at h
    · cases h
    · next hc =>
      obtain ⟨h3, h4⟩ := ne_of_channelCount_eq_none hc
      exact .inl ⟨n, c, .inl rfl, h3, h4, (Host.Outcome.refused.inj h).symm⟩
  | startDec n c =>
    simp only [hostAct] at h
    split at h
    · cases h
    · next hc =>
      obtain ⟨h3, h4⟩ := ne_of_channelCount_eq_none hc
      exact .inl ⟨n, c, .inr rfl, h3, h4, (Host.Outcome.refused.inj h).symm⟩
  | deliverByte b =>
    simp only [hostAct] at h
    split at h
    · next he => exact .inr ⟨b, rfl, he, (Host.Outcome.refused.inj h).symm⟩
    · cases h
  | resetEnc | resetDec | deliverPixel p | endBytes | limitSink l | encodeFile hd | decodeFile => cases h

/-- No action of the host ends in a fault. -/
theorem hostAct_ne_fault (a : HostAction) (s : State) (f : Fault) : hostAct a s ≠ .fault f := by
  intro h
  cases a with
  | startEnc n c | startDec n c | deliverByte b =>
    simp only [hostAct] at h
    split at h <;> cases h
  | resetEnc | resetDec | deliverPixel p | endBytes | limitSink l | encodeFile hd | decodeFile => cases h

/-- With no event left the machine answers a next state, or neither side has a move and it stops. -/
theorem freeMove_cases (s : State) :
    (∃ t, freeMove s = .next t) ∨
    (∃ d e, decMove s = .error d ∧ s.enc.move = .error e ∧ freeMove s = .fault (.noStep d e)) := by
  unfold freeMove
  cases hdec : decMove s with
  | ok o =>
    obtain ⟨d, rfl, -⟩ := decMove_cases hdec
    exact .inl ⟨_, rfl⟩
  | error x =>
    cases henc : s.enc.move with
    | ok e => exact .inl ⟨_, rfl⟩
    | error y => exact .inr ⟨x, y, rfl, rfl, rfl⟩

/-- Settles O29: a turn always answers a next state (`exists_decTurn`, `exists_encTurn`), so a refusal is the host's
(`hostAct_refused`) and a fault is that of an empty list of events (`freeMove_cases`). -/
theorem stopsOnlyWithoutAStep : Obligations.StopsOnlyWithoutAStep := by
  unfold Obligations.StopsOnlyWithoutAStep
  intro s
  cases ha : s.agenda with
  | nil =>
    have hstep : step s = freeMove s := by simp only [step, ha]
    rw [hstep]
    obtain ⟨t, ht⟩ | ⟨d, e, hd, he, hf⟩ := freeMove_cases s
    · rw [ht]
      exact ⟨fun f h => (nomatch h), fun r h => (nomatch h)⟩
    · rw [hf]
      exact ⟨fun f h => ⟨rfl, d, e, hd, he, (Host.Outcome.fault.inj h).symm⟩, fun r h => (nomatch h)⟩
  | cons v vs =>
    have hstep : step s = takeEvent v { s with agenda := vs } := by simp only [step, ha]
    rw [hstep]
    cases v with
    | dec =>
      obtain ⟨d, hd⟩ := exists_decTurn s
      rw [show takeEvent .dec { s with agenda := vs } = _ from hd s.enc vs]
      exact ⟨fun f h => (nomatch h), fun r h => (nomatch h)⟩
    | enc =>
      obtain ⟨e, he⟩ := exists_encTurn s
      rw [show takeEvent .enc { s with agenda := vs } = _ from he s.dec vs]
      exact ⟨fun f h => (nomatch h), fun r h => (nomatch h)⟩
    | host a =>
      refine ⟨fun f h => absurd h (hostAct_ne_fault a _ f), fun r h => ⟨vs, ?_⟩⟩
      obtain ⟨n, c, rfl | rfl, hc⟩ | ⟨b, rfl, hb⟩ := hostAct_refused h
      · exact .inl ⟨n, c, .inl rfl, hc⟩
      · exact .inl ⟨n, c, .inr rfl, hc⟩
      · exact .inr ⟨b, rfl, hb⟩

end Sys2Proof.Machine
end

section

namespace Sys2Proof.Machine

/-! ### Two agents that share nothing (spec/00_scope.md R8) -/

/-- Settles O48 (R8, R185): a turn neither reads nor changes the other side (`exists_decTurn`, `exists_encTurn`). -/
theorem agentsShareNothing : Obligations.AgentsShareNothing := by
  unfold Obligations.AgentsShareNothing
  refine ⟨fun s t e h => ?decTurns, fun s t d h => ?encTurns⟩
  case decTurns =>
    obtain ⟨d, hd⟩ := exists_decTurn s
    obtain rfl := Host.Outcome.next.inj ((hd s.enc []).symm.trans h)
    exact ⟨rfl, hd e []⟩
  case encTurns =>
    obtain ⟨e, he⟩ := exists_encTurn s
    obtain rfl := Host.Outcome.next.inj ((he s.dec []).symm.trans h)
    exact ⟨rfl, he d []⟩

/-- Settles O49 (R8): each turn gives its own side the same next value, whichever comes first. -/
theorem turnsCommute : Obligations.TurnsCommute := by
  unfold Obligations.TurnsCommute
  intro s
  obtain ⟨d, hd⟩ := exists_decTurn s
  obtain ⟨e, he⟩ := exists_encTurn s
  have decFirst : runEvents [.dec, .enc] s = .next ⟨d, e, []⟩ :=
    (runEvents_step (v := .dec) (hd s.enc s.agenda) [.enc]).trans (runEvents_step (v := .enc) (he d s.agenda) [])
  have encFirst : runEvents [.enc, .dec] s = .next ⟨d, e, []⟩ :=
    (runEvents_step (v := .enc) (he s.dec s.agenda) [.dec]).trans (runEvents_step (v := .dec) (hd e s.agenda) [])
  exact ⟨_, decFirst, encFirst⟩

end Sys2Proof.Machine
end

section

namespace Sys2Proof.Machine

/-! ### What the parts of `decode` answer (spec/43_container.md R156) -/

@[simp] theorem magic_length : magic.length = 4 := rfl

/-- Four bytes are compared with the magic. -/
theorem readMagic_of_full {d : Decoder} (h : (d.source.bytes.window 0 4).length = 4) :
    d.readMagic = .ok { d with phase :=
      (if d.source.bytes.window 0 4 = magic then .fields else .done (.failed .invalidMagic)) } := by
  simp only [Decoder.readMagic, magic_length, h, lt_irrefl, if_false]
  by_cases hm : d.source.bytes.window 0 4 = magic <;> simp only [hm, if_true, if_false]

/-- Fewer bytes end `decode` when the source has ended. -/
theorem readMagic_of_ended {d : Decoder} (h : (d.source.bytes.window 0 4).length < 4) (he : d.source.ended = true) :
    d.readMagic = .ok { d with phase := .done (.failed (.truncatedStream (d.source.bytes.window 0 4).length)) } := by
  simp only [Decoder.readMagic, magic_length, h, he, if_true]

/-- Fewer bytes are waited for until the source has ended (D16). -/
theorem readMagic_of_open {d : Decoder} (h : (d.source.bytes.window 0 4).length < 4) (he : d.source.ended = false) :
    d.readMagic = .error .waiting := by
  simp only [Decoder.readMagic, magic_length, h, he, if_true, Bool.false_eq_true, if_false]

/-- Only ten bytes are a header's fields (R151). -/
theorem headerFields_length {bs : List Byte} {h : Header} (hd : headerFields bs = some h) : bs.length = 10 := by
  unfold headerFields at hd
  split at hd
  · rfl
  · cases hd

/-- Ten field bytes with 3 or 4 channels start the stream. -/
theorem readFields_of_supported {d : Decoder} {h : Header} {ch : ChannelCount}
    (hd : headerFields (d.source.bytes.window 4 10) = some h) (hc : channelCount h.channels = some ch) :
    d.readFields = .ok
      (Decoder.streamStart { d with header := h, base := headerLength, phase := .pixels } h.pixelCount ch) := by
  simp only [Decoder.readFields, magic_length, show headerLength - 4 = 10 from rfl, hd, hc]

/-- Ten field bytes with another channel count end `decode`. -/
theorem readFields_of_unsupported {d : Decoder} {h : Header}
    (hd : headerFields (d.source.bytes.window 4 10) = some h) (hc : channelCount h.channels = none) :
    d.readFields = .ok { d with header := h, phase := .done (.failed (.unsupportedChannelCount h.channels)) } := by
  simp only [Decoder.readFields, magic_length, show headerLength - 4 = 10 from rfl, hd, hc]

/-- Fewer field bytes end `decode` when the source has ended. -/
theorem readFields_of_ended {d : Decoder} (hd : headerFields (d.source.bytes.window 4 10) = none)
    (he : d.source.ended = true) :
    d.readFields = .ok { d with phase := .done (.failed (.truncatedStream (4 + (d.source.bytes.window 4 10).length))) } := by
  simp only [Decoder.readFields, magic_length, show headerLength - 4 = 10 from rfl, hd, he, if_true]

/-- Fewer field bytes are waited for until the source has ended (D16). -/
theorem readFields_of_open {d : Decoder} (hd : headerFields (d.source.bytes.window 4 10) = none)
    (he : d.source.ended = false) : d.readFields = .error .waiting := by
  simp only [Decoder.readFields, magic_length, show headerLength - 4 = 10 from rfl, hd, he, Bool.false_eq_true, if_false]

/-- A fault of the core fails `decode`. -/
theorem finish_of_fault {d : Decoder} {e : ErrorKind} (hf : d.fault = some e) :
    d.finish = .ok { d with phase := .done (.failed e) } := by
  simp only [Decoder.finish, hf]

/-- The marker behind the last pixel is success (R157). -/
theorem finish_of_marker {d : Decoder} (hf : d.fault = none) (h : d.fetch 8 = endMarker) :
    d.finish = .ok { d with phase := .done .success } := by
  simp only [Decoder.finish, hf, Decoder.checkMarker, show endMarker.length = 8 from rfl, h, if_true]

/-- A byte that differs, or a marker cut short by the end of its source, is a bad marker (R173). -/
theorem finish_of_mismatch {d : Decoder} (hf : d.fault = none) (hne : d.fetch 8 ≠ endMarker)
    (h : ¬ d.fetch 8 <+: endMarker ∨ d.source.ended = true) : d.finish = .ok { d with phase := .done .invalidEndMarker } := by
  simp only [Decoder.finish, hf, Decoder.checkMarker, show endMarker.length = 8 from rfl, if_neg hne]
  rw [if_neg]
  obtain h | h := h <;> simp [List.isPrefixOf_iff_prefix, h]

/-- While the bytes there agree with the marker and the source has not ended, the rest is waited for (D16). -/
theorem finish_of_open {d : Decoder} (hf : d.fault = none) (hne : d.fetch 8 ≠ endMarker) (h : d.fetch 8 <+: endMarker)
    (he : d.source.ended = false) : d.finish = .error .waiting := by
  simp only [Decoder.finish, hf, Decoder.checkMarker, show endMarker.length = 8 from rfl, if_neg hne]
  rw [if_pos]
  simp [List.isPrefixOf_iff_prefix, h, he]

theorem decMove_magic {s : State} (hp : s.dec.phase = .magic) : decMove s = wrapperMove s s.dec.readMagic := by
  simp only [decMove, hp]

theorem decMove_fields {s : State} (hp : s.dec.phase = .fields) : decMove s = wrapperMove s s.dec.readFields := by
  simp only [decMove, hp]

/-- Behind the last pixel, or after a fault, `decode` comes to its end. -/
theorem decMove_finish {s : State} (hp : s.dec.phase = .pixels) (h : s.dec.fault ≠ none ∨ s.dec.pixpos = s.dec.n) :
    decMove s = wrapperMove s s.dec.finish := by
  simp only [decMove, hp]
  rw [if_pos]
  simpa [Decoder.over, Option.isSome_iff_ne_none] using h

/-- With the decode side's turn, the step is the part of `decode` that has its turn. -/
theorem step_wrapper {s : State} {vs : List Event} {d : Decoder} {r : Except DecStop Decoder} (ht : DecTurn s vs)
    (hmove : decMove { s with agenda := vs } = wrapperMove { s with agenda := vs } r) (hr : r = .ok d) :
    step s = .next { s with dec := d, agenda := vs } :=
  step_decTurn ht (by rw [hmove, hr]; rfl)

/-- The turn of a part of `decode` that waits changes nothing. -/
theorem step_wrapper_waits {s : State} {vs : List Event} {x : DecStop} {r : Except DecStop Decoder}
    (ha : s.agenda = .dec :: vs) (hmove : decMove { s with agenda := vs } = wrapperMove { s with agenda := vs } r)
    (hr : r = .error x) : step s = .next { s with agenda := vs } :=
  step_dec_of_stop (x := x) ha (by rw [hmove, hr]; rfl)

end Sys2Proof.Machine
end

section

namespace Sys2Proof.Machine

/-! ### The header and the end marker (spec/43_container.md R151, R156, R157) -/

/-- A 32-bit number from its four bytes, most significant first (R154). -/
theorem ofU32be_bytes (v : BitVec 32) :
    ofU32be (v.extractLsb 31 24) (v.extractLsb 23 16) (v.extractLsb 15 8) (v.extractLsb 7 0) = v := by
  ext i hi
  simp only [ofU32be]
  grind

theorem headerBytes_eq (h : Header) : headerBytes h =
    [0x71, 0x6F, 0x69, 0x66,
     h.width.extractLsb 31 24, h.width.extractLsb 23 16, h.width.extractLsb 15 8, h.width.extractLsb 7 0,
     h.height.extractLsb 31 24, h.height.extractLsb 23 16, h.height.extractLsb 15 8, h.height.extractLsb 7 0,
     h.channels, h.colorspace] := rfl

theorem headerFields_headerBytes (h : Header) : headerFields ((headerBytes h).drop 4) = some h := by
  rw [headerBytes_eq]
  simp only [List.drop, headerFields, ofU32be_bytes]

/-- Settles O51 (R151): the layout by definition, the two sizes by `ofU32be_bytes`. -/
theorem headerLayout : Obligations.HeaderLayout := by
  unfold Obligations.HeaderLayout
  exact fun h => ⟨headerBytes_eq h, headerFields_headerBytes h⟩

/-- Bytes short of ten are no header fields. -/
theorem headerFields_of_short {bs : List Byte} (h : bs.length < 10) : headerFields bs = none := by
  cases hd : headerFields bs with
  | none => rfl
  | some hdr => exact absurd (headerFields_length hd) (by omega)

/-- Settles O52: each clause is one answer of `readMagic` or `readFields`, taken with the turn (`step_wrapper`). -/
theorem decodeReadsHeader : Obligations.DecodeReadsHeader := by
  unfold Obligations.DecodeReadsHeader
  refine ⟨fun s vs got hp ht hw hl => ?magic, fun s vs h hp ht hw => ?fields, fun s vs ht he hshort => ?cutShort,
    fun s vs ha he hshort => ?waits⟩
  case magic =>
    subst hw
    refine ⟨_, step_wrapper ht (decMove_magic hp) (readMagic_of_full hl), rfl, rfl, fun hm => if_pos hm,
      fun hm => ⟨?_, rfl⟩⟩
    have hne : ¬ s.dec.source.bytes.window 0 4 = magic := hm
    simp only [Decoder.returned, if_neg hne]
  case fields =>
    have hfields : headerFields (s.dec.source.bytes.window 4 10) = some h := by rw [hw, headerFields_headerBytes]
    by_cases hc : h.channels = 3 ∨ h.channels = 4
    · exact ⟨_, step_wrapper ht (decMove_fields hp) (readFields_of_supported hfields (channelCount_of_supported hc)),
        rfl, rfl, rfl, fun _ => ⟨rfl, rfl, rfl, rfl, rfl, rfl, rfl, rfl, rfl⟩,
        fun h3 h4 => absurd hc (not_or.2 ⟨h3, h4⟩)⟩
    · obtain ⟨h3, h4⟩ := not_or.1 hc
      exact ⟨_, step_wrapper ht (decMove_fields hp) (readFields_of_unsupported hfields (channelCount_eq_none h3 h4)),
        rfl, rfl, rfl, fun h => absurd h hc, fun _ _ => ⟨rfl, rfl⟩⟩
  case cutShort =>
    obtain ⟨hp, hl⟩ | ⟨hp, hl⟩ := hshort
    · exact ⟨_, _, step_wrapper ht (decMove_magic hp) (readMagic_of_ended hl he), rfl, rfl, rfl, rfl⟩
    · exact ⟨_, _, step_wrapper ht (decMove_fields hp) (readFields_of_ended (headerFields_of_short hl) he), rfl, rfl, rfl,
        rfl⟩
  case waits =>
    obtain ⟨hp, hl⟩ | ⟨hp, hl⟩ := hshort
    · exact step_wrapper_waits ha (decMove_magic hp) (readMagic_of_open hl he)
    · exact step_wrapper_waits ha (decMove_fields hp) (readFields_of_open (headerFields_of_short hl) he)

/-- Bytes begin another list when each of them stands there too. -/
theorem isPrefix_iff_getElem? {α : Type} (l m : List α) : l <+: m ↔ ∀ k, k < l.length → l[k]? = m[k]? := by
  rw [List.prefix_iff_getElem?]
  refine forall₂_congr fun k hk => ?_
  rw [List.getElem?_eq_getElem hk, eq_comm]

/-- Settles O53 (R173): the three verdicts are the three answers of `finish` without a fault. -/
theorem endMarkerVerdict : Obligations.EndMarkerVerdict := by
  unfold Obligations.EndMarkerVerdict
  intro s vs got hp hf hover hw
  have hfetch : s.dec.fetch 8 = got := hw
  refine ⟨fun ht hmarker => ?success, fun ht hbad => ?mismatch, fun ha hl hagree hopen => ?waits⟩
  case success =>
    exact ⟨_, step_wrapper ht (decMove_finish hp (.inr hover)) (finish_of_marker hf (hfetch.trans hmarker)), rfl, rfl⟩
  case mismatch =>
    have hbad' : got ≠ endMarker ∧ (¬ got <+: endMarker ∨ s.dec.source.ended = true) := by
      obtain ⟨k, hk, hdiffers⟩ | ⟨hl, he⟩ := hbad
      · exact ⟨fun h => hdiffers (by rw [h]; rfl),
          .inl fun hpre => hdiffers ((isPrefix_iff_getElem? got endMarker).1 hpre k hk)⟩
      · exact ⟨fun h => absurd hl (by rw [h]; decide), .inr he⟩
    rw [← hfetch] at hbad'
    exact ⟨_, step_wrapper ht (decMove_finish hp (.inr hover)) (finish_of_mismatch hf hbad'.1 hbad'.2), rfl, rfl⟩
  case waits =>
    have hne : s.dec.fetch 8 ≠ endMarker := fun h => absurd hl (by rw [← hfetch, h]; decide)
    have hpre : s.dec.fetch 8 <+: endMarker := by
      rw [hfetch]
      exact (isPrefix_iff_getElem? got endMarker).2 hagree
    exact step_wrapper_waits ha (decMove_finish hp (.inr hover)) (finish_of_open hf hne hpre hopen)

/-- Settles O54 (D10): with a fault the end of the pixels is `finish_of_fault`. -/
theorem faultFailsDecode : Obligations.FaultFailsDecode := by
  unfold Obligations.FaultFailsDecode
  intro s vs e hp hf ht
  exact ⟨_, step_wrapper ht (decMove_finish hp (.inl (by simp [hf]))) (finish_of_fault hf), rfl, hf, rfl, rfl⟩

end Sys2Proof.Machine
end

section

namespace Sys2Proof.Machine

/-! ### A delay of the host: more bytes (spec/70_reset_and_hazards.md R204) -/

/-- Where a memory holds bytes the other holds them too. -/
def Memory.Extends (m m' : Memory) : Prop := ∀ a b, m.read a = some b → m'.read a = some b

/-- A byte written behind the last one extends the memory. -/
theorem Memory.extends_write_endOffset {m : Memory} (h : m.wf) (b : Byte) : m.Extends (m.write m.endOffset b) := by
  intro a c hread
  have hne : a ≠ m.endOffset := by
    rintro rfl
    rw [Memory.read_endOffset h (Nat.le_refl _)] at hread
    cases hread
  rw [Memory.read_write_other m _ b hne, hread]

/-- A window of an extended memory goes on where the window ended. -/
theorem Memory.Extends.window {m m' : Memory} (h : m.Extends m') (a k : Nat) :
    ∃ more, m'.window a k = m.window a k ++ more := by
  induction k generalizing a with
  | zero => exact ⟨[], rfl⟩
  | succ k ih =>
    cases hread : m.read a with
    | none => exact ⟨m'.window a (k + 1), by simp only [Memory.window, hread, List.nil_append]⟩
    | some b =>
      obtain ⟨more, hmore⟩ := ih (a + 1)
      exact ⟨more, by simp only [Memory.window, hread, h a b hread, hmore, List.cons_append]⟩

/-- A window that is full already is the same in an extended memory. -/
theorem Memory.Extends.window_of_full {m m' : Memory} (h : m.Extends m') {a k : Nat} (hfull : (m.window a k).length = k) :
    m'.window a k = m.window a k := by
  obtain ⟨more, hmore⟩ := h.window a k
  have hle := Memory.window_length_le m' a k
  rw [hmore, List.length_append, hfull] at hle
  rw [hmore, List.eq_nil_of_length_eq_zero (show more.length = 0 by omega), List.append_nil]

/-- The decode side with other bytes in its source. -/
def Decoder.withBytes (d : Decoder) (m : Memory) : Decoder := { d with source := { d.source with bytes := m } }

theorem opDec_withBytes (i : Instr) (d : Decoder) (m : Memory) : opDec i (d.withBytes m) = (opDec i d).withBytes m := by
  cases i <;> rfl

section MoreBytes

variable {d d' : Decoder} {m : Memory} (ext : d.source.bytes.Extends m) (hopen : d.source.ended = false)
include ext hopen

/-- The magic, once there, is read the same. -/
theorem readMagic_withBytes (h : d.readMagic = .ok d') : (d.withBytes m).readMagic = .ok (d'.withBytes m) := by
  have hle : (d.source.bytes.window 0 4).length ≤ 4 := Memory.window_length_le _ 0 4
  rcases hle.lt_or_eq with hshort | hfull
  · cases (readMagic_of_open hshort hopen).symm.trans h
  · have hsame : (d.withBytes m).source.bytes.window 0 4 = d.source.bytes.window 0 4 := ext.window_of_full hfull
    obtain rfl := Except.ok.inj ((readMagic_of_full hfull).symm.trans h)
    rw [readMagic_of_full (by rw [hsame, hfull]), hsame]
    rfl

/-- The other header fields, once there, are read the same. -/
theorem readFields_withBytes (h : d.readFields = .ok d') : (d.withBytes m).readFields = .ok (d'.withBytes m) := by
  cases hd : headerFields (d.source.bytes.window 4 10) with
  | none => cases (readFields_of_open hd hopen).symm.trans h
  | some hdr =>
    have hd' : headerFields ((d.withBytes m).source.bytes.window 4 10) = some hdr :=
      (congrArg headerFields (ext.window_of_full (headerFields_length hd))).trans hd
    cases hc : channelCount hdr.channels with
    | some ch =>
      obtain rfl := Except.ok.inj ((readFields_of_supported hd hc).symm.trans h)
      exact readFields_of_supported hd' hc
    | none =>
      obtain rfl := Except.ok.inj ((readFields_of_unsupported hd hc).symm.trans h)
      exact readFields_of_unsupported hd' hc

/-- The verdict on the end marker, once it can be given, is the same. -/
theorem finish_withBytes (h : d.finish = .ok d') : (d.withBytes m).finish = .ok (d'.withBytes m) := by
  cases hf : d.fault with
  | some e =>
    obtain rfl := Except.ok.inj ((finish_of_fault hf).symm.trans h)
    exact finish_of_fault (d := d.withBytes m) hf
  | none =>
    obtain ⟨more, hmore⟩ := ext.window (d.base + d.bytepos) 8
    have hfetch : (d.withBytes m).fetch 8 = d.fetch 8 ++ more := hmore
    by_cases hmarker : d.fetch 8 = endMarker
    · obtain rfl := Except.ok.inj ((finish_of_marker hf hmarker).symm.trans h)
      have hfull : (d.fetch 8).length = 8 := by rw [hmarker]; rfl
      exact finish_of_marker (d := d.withBytes m) hf ((ext.window_of_full hfull).trans hmarker)
    · by_cases hpre : d.fetch 8 <+: endMarker
      · cases (finish_of_open hf hmarker hpre hopen).symm.trans h
      · obtain rfl := Except.ok.inj ((finish_of_mismatch hf hmarker (.inl hpre)).symm.trans h)
        have hpre' : ¬ (d.withBytes m).fetch 8 <+: endMarker := by
          rw [hfetch]
          exact fun hlong => hpre ((List.prefix_append _ _).trans hlong)
        exact finish_of_mismatch (d := d.withBytes m) hf (fun heq => hpre' (heq ▸ List.prefix_rfl)) (.inl hpre')

end MoreBytes

/-- A step of the core is the same step with more bytes in a source that has not ended. -/
theorem CoreDecCase.decMove_withBytes {s : State} {d : Decoder} {m : Memory} (h : CoreDecCase s.dec d)
    (hp : s.dec.phase = .bare ∨ s.dec.phase = .pixels) (ext : s.dec.source.bytes.Extends m)
    (hopen : s.dec.source.ended = false) :
    decMove (s.withDec (s.dec.withBytes m)) = .ok (.next (s.withDec (d.withBytes m))) := by
  cases h with
  | expand hf hm hr => exact decMove_of_run (s := s.withDec (s.dec.withBytes m)) hp hf hm hr
  | truncated hf hm hr he => exact absurd he (by simp [hopen])
  | op hf hm hr i rest hd =>
    have fetches : DecFetches (s.withDec (s.dec.withBytes m)) := ⟨hp, hf, hm, hr⟩
    obtain ⟨more, hmore⟩ := ext.window (s.dec.base + s.dec.bytepos) maxLength
    have hd' : decode ((s.dec.withBytes m).fetch maxLength) = .ok (i, rest ++ more) :=
      (congrArg decode hmore).trans (decode_append hd more)
    rw [fetches.move_of_ok hd', exec_eq]
    exact congrArg (fun x => Except.ok (Host.Outcome.next (s.withDec x))) (opDec_withBytes i s.dec m)

/-- A part of `decode` that answers gives the decode side's move. -/
theorem decMove_of_wrapper {s : State} {r : Except DecStop Decoder} {d : Decoder} (hmove : decMove s = wrapperMove s r)
    (hr : r = .ok d) : decMove s = .ok (.next (s.withDec d)) := by
  rw [hmove, hr]
  rfl

/-- A move the decode side has is the same move with more bytes in a source that has not ended. -/
theorem decMove_withBytes {s : State} {d : Decoder} {m : Memory} (h : decMove s = .ok (.next (s.withDec d)))
    (ext : s.dec.source.bytes.Extends m) (hopen : s.dec.source.ended = false) :
    decMove (s.withDec (s.dec.withBytes m)) = .ok (.next (s.withDec (d.withBytes m))) := by
  obtain ⟨d', hd', hcase⟩ := decMove_cases h
  obtain rfl : d = d' := congrArg State.dec (Host.Outcome.next.inj hd')
  cases hcase with
  | core hp hcore => exact hcore.decMove_withBytes hp ext hopen
  | magic hp hr =>
    exact decMove_of_wrapper (s := s.withDec (s.dec.withBytes m)) (decMove_magic hp) (readMagic_withBytes ext hopen hr)
  | fields hp hr =>
    exact decMove_of_wrapper (s := s.withDec (s.dec.withBytes m)) (decMove_fields hp) (readFields_withBytes ext hopen hr)
  | finish hp hr =>
    by_cases hend : s.dec.fault ≠ none ∨ s.dec.pixpos = s.dec.n
    · exact decMove_of_wrapper (s := s.withDec (s.dec.withBytes m)) (decMove_finish hp hend)
        (finish_withBytes ext hopen hr)
    · obtain ⟨hf, hm⟩ := not_or.1 hend
      rw [decMove_eq_core (.inr hp) (not_not.1 hf) hm] at h
      obtain ⟨d', hd', hcore⟩ := decCoreMove_cases h
      obtain rfl : d = d' := congrArg State.dec (Host.Outcome.next.inj hd')
      exact hcore.decMove_withBytes (.inr hp) ext hopen

/-- No move of the decode side changes its source. -/
theorem DecCase.source_eq {d d' : Decoder} (h : DecCase d d') : d'.source = d.source := by
  cases h with
  | core hp h => exact h.frame.source
  | magic hp h =>
    obtain ⟨p, -, rfl⟩ := readMagic_ok h
    rfl
  | fields hp h => obtain ⟨hd, n, ch, rfl⟩ | ⟨hd, r, rfl⟩ := readFields_ok h <;> rfl
  | finish hp h =>
    obtain ⟨r, rfl⟩ := finish_ok h
    rfl

/-- A byte delivered to a source that has not ended stands behind the last one (R204). -/
theorem hostAct_deliverByte {s : State} (h : s.dec.source.ended = false) (b : Byte) :
    hostAct (.deliverByte b) s =
      .next (s.withDec (s.dec.withBytes (s.dec.source.bytes.write s.dec.source.bytes.endOffset b))) := by
  rw [hostAct, if_neg (by simp [h])]
  rfl

/-- With a move of the decode side at hand, the next byte may arrive before or after it. -/
theorem deliverByte_commutes {s : State} {o : Host.Outcome State Fault Refusal} (hwf : s.dec.source.bytes.wf)
    (hopen : s.dec.source.ended = false) (h : decMove s = .ok o) (b : Byte) :
    runEvents [.dec, .host (.deliverByte b)] s = runEvents [.host (.deliverByte b), .dec] s := by
  obtain ⟨d, rfl, hcase⟩ := decMove_cases h
  have hsrc := hcase.source_eq
  have later := decMove_withBytes h (Memory.extends_write_endOffset hwf b) hopen
  have deliver : takeEvent (.host (.deliverByte b)) (s.withDec d) =
      .next (s.withDec (d.withBytes (s.dec.source.bytes.write s.dec.source.bytes.endOffset b))) := by
    have hopen' : (s.withDec d).dec.source.ended = false := by rw [State.withDec_dec, hsrc, hopen]
    rw [takeEvent, hostAct_deliverByte hopen', State.withDec_dec, hsrc]
    rfl
  rw [runEvents_dec h, runEvents_step deliver, runEvents_step (v := .host (.deliverByte b)) (hostAct_deliverByte hopen b),
    runEvents_dec later]

end Sys2Proof.Machine
end

section

namespace Sys2Proof.Machine

/-! ### The encode side's move and the pixels it does not look at (spec/41_encoder.md R103, R110) -/

/-- A step of `ENC` whose bytes the sink takes. -/
theorem Encoder.step_of_open {e : Encoder} {p : Pixel}
    (h : (e.sink.putAll (e.base + e.outpos) (encodeAll (encodePixel e.last e.ctx p).2)).failed = false) :
    e.step p = { e with
      ctx := (encodePixel e.last e.ctx p).1
      sink := e.sink.putAll (e.base + e.outpos) (encodeAll (encodePixel e.last e.ctx p).2)
      outpos := e.outpos + (encodeAll (encodePixel e.last e.ctx p).2).length
      pixpos := e.pixpos + 1 } :=
  if_neg (by simp [h])

/-- A step of `ENC` of whose bytes the sink refuses one. -/
theorem Encoder.step_of_failed {e : Encoder} {p : Pixel}
    (h : (e.sink.putAll (e.base + e.outpos) (encodeAll (encodePixel e.last e.ctx p).2)).failed = true) :
    e.step p = { e with sink := e.sink.putAll (e.base + e.outpos) (encodeAll (encodePixel e.last e.ctx p).2) } :=
  if_pos h

/-- `encode` with another channel count writes nothing (R155). -/
theorem Encoder.writeHeader_of_unsupported {e : Encoder} (h : channelCount e.header.channels = none) :
    e.writeHeader = { e with phase := .done (.failed (.unsupportedChannelCount e.header.channels)) } := by
  simp only [Encoder.writeHeader, h]

/-- A header the sink takes starts the stream. -/
theorem Encoder.writeHeader_of_open {e : Encoder} {ch : ChannelCount} (h : channelCount e.header.channels = some ch)
    (hk : (e.sink.putAll 0 (headerBytes e.header)).failed = false) :
    e.writeHeader = Encoder.streamStart
      { e with sink := e.sink.putAll 0 (headerBytes e.header), base := headerLength, phase := .pixels }
      e.header.pixelCount ch := by
  simp only [Encoder.writeHeader, h, Encoder.afterPut, hk, Bool.false_eq_true, if_false]

/-- A header of which the sink refuses a byte fails `encode`. -/
theorem Encoder.writeHeader_of_failed {e : Encoder} {ch : ChannelCount} (h : channelCount e.header.channels = some ch)
    (hk : (e.sink.putAll 0 (headerBytes e.header)).failed = true) :
    e.writeHeader =
      { e with sink := e.sink.putAll 0 (headerBytes e.header), phase := .done (.failed .sinkFailure) } := by
  simp only [Encoder.writeHeader, h, Encoder.afterPut, hk, if_true]

/-- A marker the sink takes is success. -/
theorem Encoder.writeMarker_of_open {e : Encoder} (hk : (e.sink.putAll (e.base + e.outpos) endMarker).failed = false) :
    e.writeMarker = { e with sink := e.sink.putAll (e.base + e.outpos) endMarker, phase := .done .success } :=
  if_neg (by simp [hk])

/-- A marker of which the sink refuses a byte fails `encode`. -/
theorem Encoder.writeMarker_of_failed {e : Encoder} (hk : (e.sink.putAll (e.base + e.outpos) endMarker).failed = true) :
    e.writeMarker =
      { e with sink := e.sink.putAll (e.base + e.outpos) endMarker, phase := .done (.failed .sinkFailure) } :=
  if_pos hk

theorem Encoder.move_header {e : Encoder} (hp : e.phase = .header) : e.move = .ok e.writeHeader := by
  simp only [Encoder.move, hp]

theorem Encoder.move_marker {e : Encoder} (hp : e.phase = .pixels) (hk : e.sink.failed = false) (hm : e.pixpos = e.n) :
    e.move = .ok e.writeMarker := by
  simp [Encoder.move, hp, hk, Encoder.over, hm]

theorem Encoder.move_sinkFailed {e : Encoder} (hp : e.phase = .pixels) (hk : e.sink.failed = true) :
    e.move = .ok { e with phase := .done (.failed .sinkFailure) } := by
  simp [Encoder.move, hp, hk]

/-- With a pixel left and a sink that has refused nothing the move is the core's own, on a bare core and inside `encode`. -/
theorem Encoder.move_eq_core {e : Encoder} (hp : e.phase = .bare ∨ e.phase = .pixels) (hk : e.sink.failed = false)
    (hm : e.pixpos ≠ e.n) : e.move = e.coreMove := by
  obtain hp | hp := hp
  · simp only [Encoder.move, hp]
  · simp [Encoder.move, hp, hk, Encoder.over, hm]

/-- The core's move on the next pixel is its step. -/
theorem Encoder.coreMove_of_pixel {e : Encoder} {p : Pixel} (hf : e.fault = none) (hm : e.pixpos ≠ e.n)
    (hk : e.sink.failed = false) (hx : e.nextPixel = some p) : e.coreMove = .ok (e.step p) := by
  simp [Encoder.coreMove, hf, Encoder.over, hm, hk, hx]

/-- The encode side with other input pixels. -/
def Encoder.withPixels (e : Encoder) (ps : List Pixel) : Encoder := { e with pixels := ps }

theorem Encoder.step_withPixels (e : Encoder) (ps : List Pixel) (p : Pixel) :
    (e.withPixels ps).step p = (e.step p).withPixels ps := by
  cases hk : (e.sink.putAll (e.base + e.outpos) (encodeAll (encodePixel e.last e.ctx p).2)).failed with
  | true =>
    rw [Encoder.step_of_failed hk]
    exact Encoder.step_of_failed (e := e.withPixels ps) hk
  | false =>
    rw [Encoder.step_of_open hk]
    exact Encoder.step_of_open (e := e.withPixels ps) hk

theorem Encoder.writeHeader_withPixels (e : Encoder) (ps : List Pixel) :
    (e.withPixels ps).writeHeader = e.writeHeader.withPixels ps := by
  cases hc : channelCount e.header.channels with
  | none =>
    rw [Encoder.writeHeader_of_unsupported hc]
    exact Encoder.writeHeader_of_unsupported (e := e.withPixels ps) hc
  | some ch =>
    cases hk : (e.sink.putAll 0 (headerBytes e.header)).failed with
    | true =>
      rw [Encoder.writeHeader_of_failed hc hk]
      exact Encoder.writeHeader_of_failed (e := e.withPixels ps) hc hk
    | false =>
      rw [Encoder.writeHeader_of_open hc hk]
      exact Encoder.writeHeader_of_open (e := e.withPixels ps) hc hk

theorem Encoder.writeMarker_withPixels (e : Encoder) (ps : List Pixel) :
    (e.withPixels ps).writeMarker = e.writeMarker.withPixels ps := by
  cases hk : (e.sink.putAll (e.base + e.outpos) endMarker).failed with
  | true =>
    rw [Encoder.writeMarker_of_failed hk]
    exact Encoder.writeMarker_of_failed (e := e.withPixels ps) hk
  | false =>
    rw [Encoder.writeMarker_of_open hk]
    exact Encoder.writeMarker_of_open (e := e.withPixels ps) hk

/-- The core's move sees of the input only the next pixel. -/
theorem Encoder.coreMove_withPixels {e : Encoder} {ps : List Pixel} (hx : (e.withPixels ps).nextPixel = e.nextPixel) :
    (e.withPixels ps).coreMove = e.coreMove.map fun x => x.withPixels ps := by
  have hf : (e.withPixels ps).fault = e.fault := rfl
  have ho : (e.withPixels ps).over = e.over := rfl
  have hk : (e.withPixels ps).sink = e.sink := rfl
  simp only [Encoder.coreMove, hx, hf, ho, hk]
  split_ifs
  · rfl
  · rfl
  · rfl
  · cases e.nextPixel with
    | none => rfl
    | some p => exact congrArg Except.ok (Encoder.step_withPixels e ps p)

/-- A move of the encode side is the core's, or one that does not look at the input pixels. -/
theorem Encoder.move_core_or_ignores_pixels (e : Encoder) :
    (∀ ps, (e.withPixels ps).move = (e.withPixels ps).coreMove) ∨
    (∀ ps, (e.withPixels ps).move = e.move.map fun x => x.withPixels ps) := by
  cases hp : e.phase with
  | bare => exact .inl fun ps => by simp only [Encoder.move, show (e.withPixels ps).phase = .bare from hp]
  | header =>
    refine .inr fun ps => ?_
    rw [Encoder.move_header hp, Encoder.move_header (e := e.withPixels ps) hp, Encoder.writeHeader_withPixels]
    rfl
  | pixels =>
    cases hk : e.sink.failed with
    | true =>
      refine .inr fun ps => ?_
      rw [Encoder.move_sinkFailed hp hk, Encoder.move_sinkFailed (e := e.withPixels ps) hp hk]
      rfl
    | false =>
      by_cases hm : e.pixpos = e.n
      · refine .inr fun ps => ?_
        rw [Encoder.move_marker hp hk hm, Encoder.move_marker (e := e.withPixels ps) hp hk hm,
          Encoder.writeMarker_withPixels]
        rfl
      · exact .inl fun ps => Encoder.move_eq_core (e := e.withPixels ps) (.inr hp) hk hm
  | done r =>
    refine .inr fun ps => ?_
    simp only [Encoder.move, hp, show (e.withPixels ps).phase = .done r from hp]
    rfl

/-- The encode side's move sees of the input only the next pixel. -/
theorem Encoder.move_withPixels {e : Encoder} {ps : List Pixel} (hx : (e.withPixels ps).nextPixel = e.nextPixel) :
    (e.withPixels ps).move = e.move.map fun x => x.withPixels ps := by
  obtain hcore | hignores := e.move_core_or_ignores_pixels
  · rw [hcore ps, Encoder.coreMove_withPixels hx, show e.move = e.coreMove from hcore e.pixels]
  · exact hignores ps

/-- A move the encode side has is the same move with more input pixels. -/
theorem Encoder.move_with_more_pixels {e e' : Encoder} (h : e.move = .ok e') (ps : List Pixel) :
    (e.withPixels (e.pixels ++ ps)).move = .ok (e'.withPixels (e.pixels ++ ps)) := by
  obtain hcore | hignores := e.move_core_or_ignores_pixels
  · have hmove : e.move = e.coreMove := hcore e.pixels
    obtain ⟨p, -, -, -, hx, -⟩ := Encoder.coreMove_ok (hmove.symm.trans h)
    obtain ⟨q, hq, -⟩ := Option.map_eq_some_iff.1 hx
    have hlt : e.pixpos < e.pixels.length := (List.getElem?_eq_some_iff.1 hq).1
    have hsame : (e.withPixels (e.pixels ++ ps)).nextPixel = e.nextPixel :=
      congrArg (Option.map (sourcePixel e.ch)) (List.getElem?_append_left hlt)
    rw [Encoder.move_withPixels hsame, h]
    rfl
  · rw [hignores, h]
    rfl

/-- No move of the encode side changes the input pixels. -/
theorem EncCase.pixels_eq {e e' : Encoder} (h : EncCase e e') : e'.pixels = e.pixels := by
  cases h with
  | core p => obtain ⟨-, hstep⟩ | ⟨-, hstep⟩ := e.step_cases p <;> rw [hstep]
  | header hp ch hc hk => rfl
  | marker hp hm hk => rfl
  | failed a bs r hr ha => rfl

/-- With a move of the encode side at hand, the next pixel may arrive before or after it. -/
theorem deliverPixel_commutes {s : State} {e : Encoder} (h : s.enc.move = .ok e) (p : Pixel) :
    runEvents [.enc, .host (.deliverPixel p)] s = runEvents [.host (.deliverPixel p), .enc] s := by
  have hpixels := (Encoder.move_cases h).pixels_eq
  have deliver (x : Encoder) : takeEvent (.host (.deliverPixel p)) { s with enc := x } =
      .next { s with enc := x.withPixels (x.pixels ++ [p]) } := rfl
  have later : ({ s with enc := s.enc.withPixels (s.enc.pixels ++ [p]) } : State).enc.move = _ :=
    Encoder.move_with_more_pixels h [p]
  rw [runEvents_enc h, runEvents_step (deliver e), runEvents_step (deliver s.enc), runEvents_enc later, hpixels]

/-- Settles O50 (R204): `deliverByte_commutes` and `deliverPixel_commutes`. -/
theorem delayChangesNothing : Obligations.DelayChangesNothing := by
  unfold Obligations.DelayChangesNothing
  exact ⟨fun s b o hwf hopen h => deliverByte_commutes hwf hopen h b, fun s p e h => deliverPixel_commutes h p⟩

/-- With three channels sources of the same colours look alike to `ENC` (R103). -/
theorem map_sourcePixel_of_sameColours {ps qs : List Pixel} (h : sameColours ps qs) :
    ps.map (sourcePixel .three) = qs.map (sourcePixel .three) := by
  have hopaque := congrArg (List.map fun c : Byte × Byte × Byte => (⟨c.1, c.2.1, c.2.2, Config.alphaDefault⟩ : Pixel)) h
  rw [List.map_map, List.map_map] at hopaque
  exact hopaque

/-- The next pixel in terms of the whole source as `ENC` sees it. -/
theorem Encoder.nextPixel_eq (e : Encoder) : e.nextPixel = (e.pixels.map (sourcePixel e.ch))[e.pixpos]? :=
  (List.getElem?_map ..).symm

/-- With three channels the pixel `ENC` sees has alpha 255 (R103). -/
theorem Encoder.nextPixel_three_alpha {e : Encoder} {p : Pixel} (hch : e.ch = .three) (hx : e.nextPixel = some p) :
    p.a = 255 := by
  obtain ⟨q, -, rfl⟩ := Option.map_eq_some_iff.1 hx
  rw [hch]
  rfl

/-- Settles O37 (R103): the next pixel is seen with alpha 255, and the move sees of the input nothing else
(`Encoder.move_withPixels`). -/
theorem alphaLanesIgnored : Obligations.AlphaLanesIgnored := by
  unfold Obligations.AlphaLanesIgnored
  refine ⟨fun e p hch hx => Encoder.nextPixel_three_alpha hch hx, fun e ps qs hch hcolours => ?alike⟩
  case alike =>
    have hsame : (e.withPixels ps).nextPixel = (e.withPixels qs).nextPixel := by
      rw [Encoder.nextPixel_eq, Encoder.nextPixel_eq, show (e.withPixels ps).ch = .three from hch,
        show (e.withPixels qs).ch = .three from hch]
      exact congrArg (fun l => l[e.pixpos]?) (map_sourcePixel_of_sameColours hcolours)
    have hmove : (e.withPixels ps).move = (e.withPixels qs).move.map fun x => x.withPixels ps :=
      Encoder.move_withPixels (e := e.withPixels qs) hsame
    show (e.withPixels ps).move.map _ = (e.withPixels qs).move.map _
    rw [hmove]
    cases (e.withPixels qs).move <;> rfl

end Sys2Proof.Machine
end

section

namespace Sys2Proof.Machine

/-! ### What `ENC` selects and how much it emits (spec/41_encoder.md R95, R106, R109) -/

/-- Every operation selected has an encoding (R56). -/
theorem selectOp_wf (c : Context) (p : Pixel) : (selectOp c p).wf = true := by
  rcases selectOp_cases c p with ⟨-, hop⟩ | ⟨-, -, hdiff, hop⟩ | ⟨-, -, -, hluma, hop⟩ | ⟨-, -, -, -, hop⟩ | ⟨-, -, hop⟩ <;>
    rw [hop]
  · rfl
  · exact (diffFits_iff_wf _).1 hdiff
  · exact (lumaFits_iff_wf _).1 hluma
  · rfl
  · rfl

/-- A pixel of the same alpha with no difference in any colour is the previous one. -/
theorem eq_of_delta_eq_zero {p q : Pixel} (ha : p.a = q.a) (h : delta p q = (0, 0, 0)) : p = q := by
  have happly := diffApply_deltaWith true ha
  rw [show deltaWith true p q = (0, 0, 0) from h] at happly
  rw [← happly]
  simp [diffApply, addDelta]

/-- Settles O35 (R109): in each case of `selectOp_cases` the guards that failed or held exclude the rest. -/
theorem neverEmitted : Obligations.NeverEmitted := by
  unfold Obligations.NeverEmitted
  refine fun c p => ⟨selectOp_wf c p, fun hne => ?_⟩
  rcases selectOp_cases c p with ⟨hit, hop⟩ | ⟨miss, alpha, -, hop⟩ | ⟨miss, -, noDiff, -, hop⟩ | ⟨miss, -, -, noLuma, hop⟩ |
    ⟨miss, noAlpha, hop⟩ <;> rw [hop]
  · refine ⟨nofun, nofun, nofun, nofun, nofun, fun s hs => ?_, fun _ => rfl⟩
    rw [← Instr.index.inj hs, hit]
  · refine ⟨fun hzero => hne ?_, nofun, nofun, nofun, nofun, nofun, fun hit => absurd hit miss⟩
    obtain ⟨hr, hg, hb⟩ := Instr.diff.inj hzero
    exact eq_of_delta_eq_zero alpha (Prod.ext hr (Prod.ext hg hb))
  · exact ⟨nofun, nofun, fun _ _ _ _ => noDiff, nofun, nofun, nofun, fun hit => absurd hit miss⟩
  · exact ⟨nofun, nofun, nofun, fun _ _ _ _ => noLuma, nofun, nofun, fun hit => absurd hit miss⟩
  · refine ⟨nofun, nofun, nofun, nofun, fun r g b a hrgba => ?_, nofun, fun hit => absurd hit miss⟩
    obtain ⟨-, -, -, rfl⟩ := Instr.rgba.inj hrgba
    exact noAlpha

/-- The lengths of operations (R50). -/
theorem length_mem (i : Instr) : i.length ∈ [1, 2, 4, 5] := by cases i <;> simp [Instr.length]

/-- The flush of a pending run is one byte (R94). -/
theorem encodeAll_pendingRun_length (c : Context) :
    (encodeAll (pendingRun c)).length = if c.run = 0 then 0 else 1 := by
  rw [encodeAll_pendingRun]
  split <;> rfl

/-- The bytes of a pixel that differs from `PREV`: the flush and one operation. -/
theorem encodePixel_length_of_ne_prev {c : Context} {p : Pixel} (h : p ≠ c.prev) (last : Bool) :
    (encodeAll (encodePixel last c p).2).length = (if c.run = 0 then 0 else 1) + (selectOp c p).length := by
  rw [encodePixel_of_ne_prev h, encodeAll_append, List.length_append, encodeAll_pendingRun_length, encodeAll_cons,
    encodeAll_nil, List.append_nil, encode_length]

/-- Settles O36 (R106): `encodePixel_cases` for a pixel equal to `PREV`, `encodePixel_length_of_ne_prev` for one that differs. -/
theorem bytesPerStep : Obligations.BytesPerStep := by
  unfold Obligations.BytesPerStep
  intro last c p
  refine ⟨fun heq => ?repeated, fun hne hrun => ?noFlush, fun hne hrun => ?flush⟩
  case repeated =>
    rcases encodePixel_cases last c p with ⟨-, -, -, hop⟩ | ⟨-, -, hop⟩ | ⟨hne, -⟩
    · rw [hop]
      simp
    · rw [hop]
      simp [Instr.length]
    · exact absurd heq hne
  case noFlush =>
    rw [encodePixel_length_of_ne_prev hne, if_pos hrun, Nat.zero_add]
    exact length_mem _
  case flush =>
    rw [encodePixel_length_of_ne_prev hne, if_neg hrun]
    have := length_mem (selectOp c p)
    simp only [List.mem_cons, List.not_mem_nil, or_false] at this ⊢
    omega

/-- Settles O32 (R92, R93): the two answers `encodePixel_cases` has for a pixel equal to `PREV`, and which of them the run's length
and the pixel's position choose. -/
theorem runExtension : Obligations.RunExtension := by
  unfold Obligations.RunExtension
  intro e p ready heq
  have hmove := Encoder.move_of_ready ready
  have hlast : e.last = true ↔ e.pixpos + 1 = e.n := by simp [Encoder.last]
  have hsucc : e.ctx.run.toNat ≤ 61 → (e.ctx.run + 1).toNat = e.ctx.run.toNat + 1 := run_succ
  rcases encodePixel_cases e.last e.ctx p with ⟨-, hrun, hnotLast, hop⟩ | ⟨-, hflush, hop⟩ | ⟨hne, -⟩
  · rw [hop] at hmove
    refine ⟨_, _, hmove, EncEmits.of_writeAll e _ _, fun i => Context.lookup_with _ _ _ _, heq,
      fun hle _ => ⟨rfl, hsucc (by omega)⟩, fun h61 => ?_, fun _ hn => ?_⟩
    · exact absurd ((hsucc h61.le).trans (by omega)) hrun
    · exact absurd (hlast.2 hn) (by simp [hnotLast])
  · rw [hop] at hmove
    refine ⟨_, _, hmove, EncEmits.of_writeAll e _ _, fun i => Context.lookup_with _ _ _ _, heq,
      fun hle hn => ?_, fun h61 => ⟨?_, rfl⟩, fun hle _ => ⟨?_, rfl⟩⟩
    · obtain h62 | hl := hflush
      · rw [hsucc (by omega)] at h62
        omega
      · exact absurd (hlast.1 hl) hn
    · rw [hsucc h61.le, h61]
      rfl
    · rw [hsucc (by omega)]
      rfl
  · exact absurd heq hne

end Sys2Proof.Machine
end

section

namespace Sys2Proof.Machine

/-! ### The sink's answer to the header, a pixel's bytes and the marker (spec/43_container.md R155, R176) -/

/-- What stands in a sink that took all of some bytes. -/
theorem ByteSink.putAll_taken {k : ByteSink} {a : Nat} {bs : List Byte} (hf : k.failed = false)
    (hr : ∀ i, i < bs.length → k.refuses (a + i) = false) :
    (k.putAll a bs).failed = false ∧ ∀ i, i < bs.length → (k.putAll a bs).bytes.read (a + i) = bs[i]? := by
  rw [ByteSink.putAll_open hf hr]
  refine ⟨hf, fun i hi => ?_⟩
  dsimp only
  rw [Memory.read_writeAll, if_pos (by omega), Nat.add_sub_cancel_left]

/-- What stands in a sink that refused byte `j` of some bytes: those before it, and at no later offset anything new. -/
theorem ByteSink.putAll_refused_at {k : ByteSink} {a j : Nat} {bs : List Byte} (hf : k.failed = false) (hj : j < bs.length)
    (hr : ∀ i, i < j → k.refuses (a + i) = false) (h : k.refuses (a + j) = true) :
    (k.putAll a bs).failed = true ∧ (∀ i, i < j → (k.putAll a bs).bytes.read (a + i) = bs[i]?) ∧
    ∀ x, a + j ≤ x → (k.putAll a bs).bytes.read x = k.bytes.read x := by
  have hlength : (bs.take j).length = j := by rw [List.length_take, min_eq_left hj.le]
  rw [ByteSink.putAll_refused hf hj hr h]
  refine ⟨rfl, fun i hi => ?_, fun x hx => ?_⟩ <;> dsimp only <;> rw [Memory.read_writeAll, hlength]
  · rw [if_pos (by omega), Nat.add_sub_cancel_left, List.getElem?_take_of_lt hi]
  · rw [if_neg (by omega)]

/-- Settles O38 (R176): the sink keeps the bytes before the refused one (`ByteSink.putAll_refused_at`), and each of the three moves
that write then fails `encode`, a pixel's in the move after it. -/
theorem sinkFailureEndsEncode : Obligations.SinkFailureEndsEncode := by
  unfold Obligations.SinkFailureEndsEncode
  refine ⟨fun e p j hp hf hm hk hx hj hr h => ?pixel, fun e j hp hc hk hj hr h => ?header, fun e j hp hm hk hj hr h => ?marker⟩
  case pixel =>
    obtain ⟨hfailed, hbytes, hlater⟩ := ByteSink.putAll_refused_at hk hj hr h
    have hmove : e.move = .ok (e.step p) := by
      rw [Encoder.move_eq_core (.inr hp) hk hm, Encoder.coreMove_of_pixel hf hm hk hx]
    rw [Encoder.step_of_failed hfailed] at hmove
    exact ⟨_, _, hmove, Encoder.move_sinkFailed hp hfailed, rfl, hbytes, hlater⟩
  case header =>
    have hr' : ∀ i, i < j → e.sink.refuses (0 + i) = false := fun i hi => by rw [Nat.zero_add, hr i hi]
    have h' : e.sink.refuses (0 + j) = true := by rw [Nat.zero_add, h]
    obtain ⟨hfailed, hbytes, hlater⟩ := ByteSink.putAll_refused_at (bs := headerBytes e.header) hk hj hr' h'
    simp only [Nat.zero_add] at hbytes hlater
    have hmove := Encoder.move_header hp
    rw [Encoder.writeHeader_of_failed (channelCount_of_supported hc) hfailed] at hmove
    exact ⟨_, hmove, rfl, hbytes, hlater, rfl, rfl, rfl, rfl, rfl⟩
  case marker =>
    obtain ⟨hfailed, hbytes, hlater⟩ := ByteSink.putAll_refused_at (bs := endMarker) hk hj hr h
    have hmove := Encoder.move_marker hp hk hm
    rw [Encoder.writeMarker_of_failed hfailed] at hmove
    exact ⟨_, hmove, rfl, hbytes, hlater⟩

/-- Settles O55 (R155): the header's and the marker's moves on a sink that takes their bytes (`ByteSink.putAll_taken`). -/
theorem encodeWritesHeaderAndMarker : Obligations.EncodeWritesHeaderAndMarker := by
  unfold Obligations.EncodeWritesHeaderAndMarker
  refine ⟨fun e hp h3 h4 => ?refused, fun e hp hc hk hr => ?header, fun e hp hm hk hr => ?marker⟩
  case refused =>
    have hmove := Encoder.move_header hp
    rw [Encoder.writeHeader_of_unsupported (channelCount_eq_none h3 h4)] at hmove
    exact ⟨_, hmove, rfl, rfl⟩
  case header =>
    have hr' : ∀ i, i < 14 → e.sink.refuses (0 + i) = false := fun i hi => by rw [Nat.zero_add, hr i hi]
    obtain ⟨htaken, hbytes⟩ := ByteSink.putAll_taken (bs := headerBytes e.header) hk hr'
    simp only [Nat.zero_add] at hbytes
    have hmove := Encoder.move_header hp
    rw [Encoder.writeHeader_of_open (channelCount_of_supported hc) htaken] at hmove
    exact ⟨_, hmove, rfl, htaken, rfl, rfl, rfl, rfl, rfl, rfl, rfl, rfl, hbytes,
      fun a ha => ByteSink.putAll_read_other (.inr (by rw [Nat.zero_add]; exact ha))⟩
  case marker =>
    obtain ⟨htaken, hbytes⟩ := ByteSink.putAll_taken (bs := endMarker) hk hr
    have hmove := Encoder.move_marker hp hk hm
    rw [Encoder.writeMarker_of_open htaken] at hmove
    exact ⟨_, hmove, rfl, hbytes, fun a ha => ByteSink.putAll_read_other (.inl ha)⟩

end Sys2Proof.Machine
end

section

namespace Sys2Proof.Machine

/-! ### The byte memories stay canonical (log entry 2) -/

/-- Every move of the encode side does to the sink what some bytes written to it do. -/
theorem EncCase.sink_eq_putAll {e e' : Encoder} (h : EncCase e e') : ∃ a bs, e'.sink = e.sink.putAll a bs := by
  cases h with
  | core p => obtain ⟨-, hstep⟩ | ⟨-, hstep⟩ := e.step_cases p <;> rw [hstep] <;> exact ⟨_, _, rfl⟩
  | header hp ch hc hk => exact ⟨_, _, rfl⟩
  | marker hp hm hk => exact ⟨_, _, rfl⟩
  | failed a bs r hr ha => exact ⟨a, bs, rfl⟩

/-- Settles O39: the decode side's moves leave the source, the encode side's write to the sink, the host writes at most one byte. -/
theorem stepKeepsMemoriesCanonical : Obligations.StepKeepsMemoriesCanonical := by
  unfold Obligations.StepKeepsMemoriesCanonical
  rintro s t ⟨hsource, hsink⟩ h
  have hempty : Memory.wf [] := List.Pairwise.nil
  cases step_cases h with
  | dec d vs hv hc => exact ⟨hc.source_eq ▸ hsource, hsink⟩
  | enc e vs hv hc =>
    obtain ⟨a, bs, hput⟩ := hc.sink_eq_putAll
    exact ⟨hsource, hput ▸ ByteSink.putAll_wf hsink a bs⟩
  | skip v vs hv => exact ⟨hsource, hsink⟩
  | host a vs hv _ ha =>
    rcases hostAct_cases ha with ⟨n, ch, rfl⟩ | ⟨n, ch, rfl⟩ | ⟨p, rfl⟩ | ⟨b, -, rfl⟩ | rfl | ⟨l, rfl⟩ | ⟨hd, rfl⟩ | rfl
    · exact ⟨hsource, hempty⟩
    · exact ⟨hempty, hsink⟩
    · exact ⟨hsource, hsink⟩
    · exact ⟨Memory.write_wf hsource _ b, hsink⟩
    · exact ⟨hsource, hsink⟩
    · exact ⟨hsource, hsink⟩
    · exact ⟨hsource, hempty⟩
    · exact ⟨hempty, hsink⟩

end Sys2Proof.Machine
end

section

namespace Sys2Proof.Machine

/-! ### Steps after which the encode side may be read (spec/60_exceptions.md R176) -/

/-- What a step can have done to an encode side that may be read after it: a stream start, a pixel whose bytes the sink took, or
nothing of the core. -/
inductive EncReadableCase (e : Encoder) : Encoder → Prop
  | start (e₀ : Encoder) (n : Nat) (ch : ChannelCount) : EncReadableCase e (e₀.streamStart n ch)
  | pixel (p : Pixel) (hr : e.Readable) (hm : e.pixpos ≠ e.n) (hx : e.nextPixel = some p) (k : ByteSink) :
    EncReadableCase e
      { e with
        ctx := (encodePixel e.last e.ctx p).1
        sink := k
        outpos := e.outpos + (encodeAll (encodePixel e.last e.ctx p).2).length
        pixpos := e.pixpos + 1 }
  | keep (hr : e.Readable) (ps : List Pixel) (hps : e.pixels <+: ps) (k : ByteSink) (ph : EncodePhase) :
    EncReadableCase e { e with pixels := ps, sink := k, phase := ph }

theorem EncReadableCase.refl {e : Encoder} (hr : e.Readable) : EncReadableCase e e :=
  .keep hr e.pixels List.prefix_rfl e.sink e.phase

theorem Encoder.inStream_of_phase {e : Encoder} (hp : e.phase = .bare ∨ e.phase = .pixels) : e.inStream = true := by
  obtain hp | hp := hp <;> simp only [Encoder.inStream, hp]

/-- A failed `encode` is in no stream. -/
theorem Encoder.not_inStream_of_failed (e : Encoder) (k : ByteSink) {r : EncodeResult} (hr : r ≠ .success) :
    { e with sink := k, phase := .done r }.inStream = false := by
  cases r with
  | success => exact absurd rfl hr
  | failed x => rfl

theorem EncCase.readable_cases {e e' : Encoder} (h : EncCase e e') (hr' : e'.Readable) : EncReadableCase e e' := by
  cases h with
  | core p hp hf hm hk hx =>
    obtain ⟨-, hstep⟩ | ⟨hfailed, hstep⟩ := e.step_cases p
    · rw [hstep]
      exact .pixel p ⟨Encoder.inStream_of_phase hp, hk⟩ hm hx _
    · rw [hstep] at hr'
      exact absurd hr'.2 (by simp [hfailed])
  | header hp ch hc hk => exact .start _ _ _
  | marker hp hm hk =>
    exact .keep ⟨Encoder.inStream_of_phase (.inr hp), (ByteSink.putAll_not_failed hk).1⟩ e.pixels List.prefix_rfl _ _
  | failed a bs r hr ha => exact absurd hr'.1 (by rw [Encoder.not_inStream_of_failed e _ hr]; exact Bool.false_ne_true)

/-- Everything a step can have done to an encode side that may be read after it. -/
theorem step_enc_readable {s t : State} (h : step s = .next t) (hr : t.enc.Readable) : EncReadableCase s.enc t.enc := by
  cases step_cases h with
  | dec d vs hv hc => exact .refl hr
  | enc e vs hv hc => exact hc.readable_cases hr
  | skip v vs hv => exact .refl hr
  | host a vs hv _ ha =>
    rcases hostAct_cases ha with ⟨n, ch, rfl⟩ | ⟨n, ch, rfl⟩ | ⟨p, rfl⟩ | ⟨b, -, rfl⟩ | rfl | ⟨l, rfl⟩ | ⟨hd, rfl⟩ | rfl
    · exact .start (Encoder.fresh n ch) n ch
    · exact .refl hr
    · exact .keep (e := s.enc) hr _ (List.prefix_append _ [p]) s.enc.sink s.enc.phase
    · exact .refl hr
    · exact .refl hr
    · exact .keep (e := s.enc) hr s.enc.pixels List.prefix_rfl _ s.enc.phase
    · exact absurd hr.1 Bool.false_ne_true
    · exact .refl hr

end Sys2Proof.Machine
end

section

namespace Sys2Proof.Machine

/-! ### The cache invariant (spec/20_memory.md R35) -/

theorem cacheInv_init : CacheInv Context.init := fun i => .inl (Context.lookup_init i)

/-- The cache invariant speaks of the cache alone. -/
theorem CacheInv.with {c : Context} (h : CacheInv c) (p : Pixel) (r : BitVec 6) :
    CacheInv { c with prev := p, run := r } := h

/-- A pixel stored at its own hash keeps the invariant. -/
theorem CacheInv.remember {c : Context} (h : CacheInv c) (p : Pixel) : CacheInv (c.remember p) := by
  intro i
  rw [Context.lookup_remember]
  split
  · next hi => exact .inr hi.symm
  · exact h i

/-- An encoder step keeps the invariant: it stores at most its pixel, at the pixel's hash (R101). -/
theorem CacheInv.encodePixel {c : Context} (h : CacheInv c) (last : Bool) (p : Pixel) :
    CacheInv (encodePixel last c p).1 := by
  rcases encodePixel_cases last c p with ⟨-, -, -, hop⟩ | ⟨-, -, hop⟩ | ⟨-, hop⟩ <;> rw [hop]
  · exact h.with _ _
  · exact h.with _ _
  · exact (h.remember p).with _ _

/-- A step of `DEC` without an error keeps the invariant: it stores at most its pixel, at the pixel's hash (R130). -/
theorem CacheInv.coreDec {d d' : Decoder} (h : CacheInv d.ctx) (hc : CoreDecCase d d') : CacheInv d'.ctx := by
  cases hc with
  | expand => exact h.with _ _
  | truncated => exact h
  | op hf hm hr i rest hd =>
    obtain ⟨p, hop⟩ | ⟨length, -, hop⟩ := opDec_cases i d <;> rw [hop]
    · exact (h.remember p).with _ _
    · exact h.with _ _

/-- A move of the decode side keeps the invariant where the context may be read (U3). -/
theorem DecCase.cacheInv {d d' : Decoder} (hc : DecCase d d') (h : d.fault = none → CacheInv d.ctx)
    (hf' : d'.fault = none) : CacheInv d'.ctx := by
  cases hc with
  | core hp hcore => exact (h hcore.fault_eq_none).coreDec hcore
  | magic hp hr =>
    obtain ⟨p, -, rfl⟩ := readMagic_ok hr
    exact h hf'
  | fields hp hr =>
    obtain ⟨hd, n, ch, rfl⟩ | ⟨hd, r, rfl⟩ := readFields_ok hr
    · exact cacheInv_init
    · exact h hf'
  | finish hp hr =>
    obtain ⟨r, rfl⟩ := finish_ok hr
    exact h hf'

/-- Settles O40 (R35): `DecCase.cacheInv` for `DEC`, the three cases of `step_enc_readable` for `ENC`. -/
theorem stepKeepsCacheInvariant : Obligations.StepKeepsCacheInvariant := by
  unfold Obligations.StepKeepsCacheInvariant
  rintro s t ⟨hdec, henc⟩ h
  refine ⟨fun hf => ?decodeSide, fun hr => ?encodeSide⟩
  case decodeSide =>
    cases step_cases h with
    | dec d vs hv hc => exact hc.cacheInv hdec hf
    | enc e vs hv hc => exact hdec hf
    | skip v vs hv => exact hdec hf
    | host a vs hv _ ha =>
      obtain ⟨-, n, ch, hfresh⟩ | ⟨src, p, hkeep⟩ := (hostAct_starts_or_keeps ha).1
      · rw [hfresh]
        exact cacheInv_init
      · rw [hkeep] at hf ⊢
        exact hdec hf
  case encodeSide =>
    generalize t.enc = e', step_enc_readable h hr = hcase
    cases hcase with
    | start e₀ n ch => exact cacheInv_init
    | pixel p hr hm hx k => exact (henc hr).encodePixel _ p
    | keep hr ps hps k ph => exact henc hr

end Sys2Proof.Machine
end

section

namespace Sys2Proof.Machine

/-! ### The history of `ENC` (spec/41_encoder.md R107) -/

theorem EncHistory.of_streamStart (e : Encoder) (n : Nat) (ch : ChannelCount) : EncHistory (e.streamStart n ch) where
  run := Nat.zero_le _
  runLe := Nat.le_refl _
  pending := fun k hk => absurd hk (Nat.not_lt_zero k)
  first := fun _ => rfl
  prev := fun k hk => absurd hk (Nat.succ_ne_zero k).symm
  alpha := fun _ => ⟨rfl, fun i => .inl (Context.lookup_init i)⟩

/-- More pixels behind those delivered change none of them. -/
theorem Encoder.pixelAt_of_more {e : Encoder} {ps : List Pixel} (hps : e.pixels <+: ps) {k : Nat} {p : Pixel}
    (h : e.pixelAt k = some p) : (e.withPixels ps).pixelAt k = some p := by
  obtain ⟨more, rfl⟩ := hps
  obtain ⟨q, hq, rfl⟩ := Option.map_eq_some_iff.1 h
  have hlt : k < e.pixels.length := (List.getElem?_eq_some_iff.1 hq).1
  exact congrArg (Option.map (sourcePixel e.ch)) ((List.getElem?_append_left hlt).trans hq)

/-- The history stays true of an encode side whose core is untouched. -/
theorem EncHistory.keep {e : Encoder} (h : EncHistory e) {ps : List Pixel} (hps : e.pixels <+: ps) (k : ByteSink)
    (ph : EncodePhase) : EncHistory { e with pixels := ps, sink := k, phase := ph } where
  run := h.run
  runLe := h.runLe
  pending := fun i hi hi' => Encoder.pixelAt_of_more hps (h.pending i hi hi')
  first := h.first
  prev := fun i hi => Encoder.pixelAt_of_more hps (h.prev i hi)
  alpha := h.alpha

/-- What `PREV` and the alphas of the context are after a pixel: the pixel, and 255 with three channels but in initial slots. -/
theorem EncHistory.alpha_encodePixel {e : Encoder} (h : EncHistory e) {p : Pixel} (hx : e.nextPixel = some p)
    (hch : e.ch = .three) (i : Slot) :
    (encodePixel e.last e.ctx p).1.lookup i = Config.slotInit ∨ ((encodePixel e.last e.ctx p).1.lookup i).a = 255 := by
  have hslots := (h.alpha hch).2
  rcases encodePixel_cases e.last e.ctx p with ⟨-, -, -, hop⟩ | ⟨-, -, hop⟩ | ⟨-, hop⟩ <;> rw [hop] <;>
    simp only [Context.lookup_with]
  · exact hslots i
  · exact hslots i
  · rw [Context.lookup_remember]
    split
    · exact .inr (Encoder.nextPixel_three_alpha hch hx)
    · exact hslots i

/-- `PREV` is the pixel after every encoder step (R102). -/
theorem encodePixel_prev (last : Bool) (c : Context) (p : Pixel) : (encodePixel last c p).1.prev = p := by
  rcases encodePixel_cases last c p with ⟨-, -, -, hop⟩ | ⟨-, -, hop⟩ | ⟨-, hop⟩ <;> rw [hop]

/-- After an encoder step `RUN` is 0, or the pixel was `PREV` and `RUN` has grown by one without reaching 62 (R92). -/
theorem encodePixel_run {last : Bool} {c : Context} {p : Pixel} (h : c.run.toNat ≤ 61) :
    (encodePixel last c p).1.run = 0 ∨
    (p = c.prev ∧ last = false ∧ (encodePixel last c p).2 = [] ∧
      (encodePixel last c p).1.run.toNat = c.run.toNat + 1 ∧ c.run.toNat + 1 ≤ 61) := by
  rcases encodePixel_cases last c p with ⟨hp, hne, hlast, hop⟩ | ⟨-, -, hop⟩ | ⟨-, hop⟩ <;> rw [hop]
  · have hsucc := run_succ h
    exact .inr ⟨hp, hlast, rfl, hsucc, by omega⟩
  · exact .inl rfl
  · exact .inl rfl

/-- A pixel's step keeps the history: the run grows by a pixel equal to `PREV`, or is over (R107). -/
theorem EncHistory.pixel {e : Encoder} (h : EncHistory e) {p : Pixel} (hx : e.nextPixel = some p) (k : ByteSink) (o : Nat) :
    EncHistory { e with ctx := (encodePixel e.last e.ctx p).1, sink := k, outpos := o, pixpos := e.pixpos + 1 } := by
  have hprev := encodePixel_prev e.last e.ctx p
  have hhere : e.pixelAt e.pixpos = some p := hx
  have hrun := encodePixel_run (last := e.last) (p := p) h.run
  have hzero : (0 : BitVec 6).toNat = 0 := rfl
  refine ⟨?run, ?runLe, fun i hi hi' => ?pending, fun h0 => absurd h0 (Nat.succ_ne_zero _), fun i hi => ?prev,
    fun hch => ⟨?prevAlpha, h.alpha_encodePixel hx hch⟩⟩
  case run =>
    dsimp only
    obtain hr | ⟨-, -, -, hr, hle⟩ := hrun
    · rw [hr]
      decide
    · omega
  case runLe =>
    have := h.runLe
    dsimp only
    obtain hr | ⟨-, -, -, hr, -⟩ := hrun
    · rw [hr]
      exact Nat.zero_le _
    · omega
  case pending =>
    dsimp only at hi hi' ⊢
    rw [hprev]
    by_cases hlast : i = e.pixpos
    · rw [hlast]
      exact hhere
    · obtain hr | ⟨hp, -, -, hr, -⟩ := hrun
      · rw [hr] at hi'
        omega
      · rw [hp]
        exact h.pending i (by omega) (by omega)
  case prev =>
    obtain rfl : e.pixpos = i := Nat.succ.inj hi
    dsimp only
    rw [hprev]
    exact hhere
  case prevAlpha =>
    dsimp only
    rw [hprev]
    exact Encoder.nextPixel_three_alpha (e := e) hch hx

/-- Settles O41 (R107): the three cases of `step_enc_readable`. -/
theorem stepKeepsEncoderHistory : Obligations.StepKeepsEncoderHistory := by
  unfold Obligations.StepKeepsEncoderHistory
  intro s t hs h hr
  generalize t.enc = e', step_enc_readable h hr = hcase
  cases hcase with
  | start e₀ n ch => exact .of_streamStart e₀ n ch
  | pixel p hr hm hx k => exact (hs hr).pixel hx k _
  | keep hr ps hps k ph => exact (hs hr).keep hps k ph

/-! ### The bytes emitted (spec/41_encoder.md R104, R106) -/

theorem EncCounts.of_streamStart (e : Encoder) (n : Nat) (ch : ChannelCount) : EncCounts (e.streamStart n ch) where
  run := Nat.zero_le _
  pixpos := Nat.zero_le _
  atEnd := fun _ => rfl
  most := Nat.le_refl _
  least := Nat.zero_le _

/-- A pixel's step keeps the counts: at most five bytes beside the flush of a pending run, and at least one unless the run grows
(R104, R106). -/
theorem EncCounts.pixel {e : Encoder} (h : EncCounts e) {p : Pixel} (hm : e.pixpos ≠ e.n) (k : ByteSink) :
    EncCounts
      { e with
        ctx := (encodePixel e.last e.ctx p).1
        sink := k
        outpos := e.outpos + (encodeAll (encodePixel e.last e.ctx p).2).length
        pixpos := e.pixpos + 1 } := by
  obtain ⟨run, pixpos, -, most, least⟩ := h
  have hlast : e.last = true ↔ e.pixpos + 1 = e.n := by simp [Encoder.last]
  have hzero : (0 : BitVec 6).toNat = 0 := rfl
  rcases encodePixel_cases e.last e.ctx p with ⟨-, hne, hnotLast, hop⟩ | ⟨-, -, hop⟩ | ⟨hp, -⟩
  · have hsucc := run_succ run
    rw [hop]
    refine ⟨?_, ?_, fun hn => ?_, ?_, ?_⟩ <;> dsimp only [encodeAll_nil, List.length_nil] at *
    · omega
    · omega
    · exact absurd (hlast.2 hn) (by simp [hnotLast])
    · split at most <;> split <;> omega
    · omega
  · rw [hop]
    refine ⟨Nat.zero_le _, ?_, fun _ => rfl, ?_, ?_⟩ <;>
      simp only [encodeAll_cons, encodeAll_nil, List.append_nil, encode_length, Instr.length, hzero, if_true]
    · omega
    · split at most <;> omega
    · omega
  · have hlen := length_mem (selectOp e.ctx p)
    simp only [List.mem_cons, List.not_mem_nil, or_false] at hlen
    rw [encodePixel_length_of_ne_prev hp, encodePixel_of_ne_prev hp]
    refine ⟨Nat.zero_le _, ?_, fun _ => rfl, ?_, ?_⟩ <;> simp only [hzero, if_true]
    · omega
    · split at most <;> split <;> omega
    · split <;> rename_i hrun
      · rw [hrun] at least
        omega
      · omega

/-- Settles O42 (R104, R106): the three cases of `step_enc_readable`. -/
theorem stepKeepsEncoderCounts : Obligations.StepKeepsEncoderCounts := by
  unfold Obligations.StepKeepsEncoderCounts
  intro s t hs h hr
  generalize t.enc = e', step_enc_readable h hr = hcase
  cases hcase with
  | start e₀ n ch => exact .of_streamStart e₀ n ch
  | pixel p hr hm hx k => exact (hs hr).pixel hm k
  | keep hr ps hps k ph =>
    obtain ⟨run, pixpos, atEnd, most, least⟩ := hs hr
    exact ⟨run, pixpos, atEnd, most, least⟩

end Sys2Proof.Machine
end

section

namespace Sys2Proof.Machine

/-! ### The counters of `DEC` (spec/10_state.md R14, R15; spec/42_decoder.md R133) -/

theorem DecCounts.of_streamStart (d : Decoder) (n : Nat) (ch : ChannelCount) : DecCounts (d.streamStart n ch) where
  run := fun _ => Nat.zero_le _
  pixpos := Nat.zero_le _
  out := rfl

/-- A decoder step without a fault before it leaves `RUN` within 0..61: only a RUN of 1..62 sets it (R14, R54). -/
theorem CoreDecCase.run_le {d d' : Decoder} (h : CoreDecCase d d') (hr : d.ctx.run.toNat ≤ 61) :
    d'.ctx.run.toNat ≤ 61 := by
  cases h with
  | expand hf hm hne =>
    have hpos : d.ctx.run.toNat ≠ 0 := fun h0 => hne (BitVec.eq_of_toNat_eq h0)
    simp only [Decoder.expandRun_ctx, BitVec.toNat_sub, BitVec.ofNat_eq_ofNat, BitVec.toNat_ofNat]
    omega
  | truncated => exact hr
  | op hf hm hzero i rest hd =>
    obtain ⟨p, hop⟩ | ⟨length, rfl, hop⟩ := opDec_cases i d <;> rw [hop]
    · exact hr
    · obtain ⟨-, h62⟩ := (Instr.wf_run length).1 (encodeOfDecode _ _ _ hd).1
      simp only [Decoder.produce_ctx, BitVec.toNat_ofNat]
      omega

/-- A decoder step delivers one pixel, or raises the error and delivers none (R121, R134). -/
theorem CoreDecCase.delivers {d d' : Decoder} (h : CoreDecCase d d') :
    (d'.pixpos = d.pixpos + 1 ∧ ∃ p, d'.out = d.out ++ [p]) ∨ (d'.pixpos = d.pixpos ∧ d'.out = d.out) := by
  cases h with
  | expand => exact .inl ⟨rfl, _, rfl⟩
  | truncated => exact .inr ⟨rfl, rfl⟩
  | op hf hm hr i rest hd =>
    obtain ⟨p, hop⟩ | ⟨length, -, hop⟩ := opDec_cases i d <;> rw [hop] <;> exact .inl ⟨rfl, _, rfl⟩

theorem CoreDecCase.more {d d' : Decoder} (h : CoreDecCase d d') : d.pixpos ≠ d.n := by
  cases h <;> assumption

theorem DecCounts.coreDec {d d' : Decoder} (h : DecCounts d) (hc : CoreDecCase d d') : DecCounts d' := by
  obtain ⟨run, pixpos, out⟩ := h
  refine ⟨fun _ => hc.run_le (run hc.fault_eq_none), ?_, ?_⟩
  · have hmore := hc.more
    rw [hc.frame.n]
    obtain ⟨hpix, -⟩ | ⟨hpix, -⟩ := hc.delivers <;> omega
  · obtain ⟨hpix, p, hout⟩ | ⟨hpix, hout⟩ := hc.delivers
    · rw [hout, hpix, List.length_append, out]
      rfl
    · rw [hout, hpix, out]

/-- The counters of a decode side whose core is untouched. -/
theorem DecCounts.keep {d : Decoder} (h : DecCounts d) (src : ByteSource) (hd : Header) (p : DecodePhase) :
    DecCounts { d with source := src, header := hd, phase := p } :=
  ⟨h.run, h.pixpos, h.out⟩

/-- Settles O43 (R14, R133): the core delivers one pixel a step (`CoreDecCase.delivers`), the wrapper and the host none. -/
theorem stepKeepsDecoderCounts : Obligations.StepKeepsDecoderCounts := by
  unfold Obligations.StepKeepsDecoderCounts
  intro s t hs h
  cases step_cases h with
  | dec d vs hv hc =>
    cases hc with
    | core hp hcore => exact hs.coreDec hcore
    | magic hp hr =>
      obtain ⟨p, -, rfl⟩ := readMagic_ok hr
      exact hs.keep s.dec.source s.dec.header p
    | fields hp hr =>
      obtain ⟨hd, n, ch, rfl⟩ | ⟨hd, r, rfl⟩ := readFields_ok hr
      · exact .of_streamStart _ n ch
      · exact hs.keep s.dec.source hd _
    | finish hp hr =>
      obtain ⟨r, rfl⟩ := finish_ok hr
      exact hs.keep s.dec.source s.dec.header _
  | enc e vs hv hc => exact hs
  | skip v vs hv => exact hs
  | host a vs hv _ ha =>
    obtain ⟨-, n, ch, hfresh⟩ | ⟨src, p, hkeep⟩ := (hostAct_starts_or_keeps ha).1
    · rw [hfresh]
      exact .of_streamStart (Decoder.fresh n ch) n ch
    · rw [hkeep]
      exact hs.keep src s.dec.header p

end Sys2Proof.Machine
end

section

namespace Sys2Proof.Machine

/-! ### The fault record (spec/60_exceptions.md R170, R172, R179) -/

/-- The half of the fault record that speaks of `DEC`. -/
structure DecFaultRecord (d : Decoder) : Prop where
  kind : ∀ e, d.fault = some e → e = .truncatedStream d.bytepos
  missing : (d.phase = .bare ∨ d.phase = .pixels) → d.fault ≠ none →
    d.source.ended = true ∧ d.source.bytes.read (d.base + d.bytepos) = none

theorem faultsInv_iff (s : State) : FaultsInv s ↔ s.enc.fault = none ∧ DecFaultRecord s.dec :=
  ⟨fun ⟨enc, kind, missing⟩ => ⟨enc, kind, missing⟩, fun ⟨enc, kind, missing⟩ => ⟨enc, kind, missing⟩⟩

/-- Without a fault there is nothing to record. -/
theorem DecFaultRecord.of_none {d : Decoder} (h : d.fault = none) : DecFaultRecord d :=
  ⟨fun e he => (by rw [h] at he; cases he), fun _ hne => absurd h hne⟩

/-- Outside the stream only the kind is recorded. -/
theorem DecFaultRecord.outside {d : Decoder} (h : DecFaultRecord d) (hd : Header) {p : DecodePhase} (src : ByteSource)
    (hp : ¬ (p = .bare ∨ p = .pixels)) : DecFaultRecord { d with source := src, header := hd, phase := p } :=
  ⟨h.kind, fun hin => absurd hin hp⟩

/-- A step of the core records an error at the missing byte, or leaves `FAULT` none (R134). -/
theorem CoreDecCase.faultRecord {d d' : Decoder} (h : CoreDecCase d d') : DecFaultRecord d' := by
  cases h with
  | expand hf => exact .of_none hf
  | op hf hm hr i rest hd =>
    obtain ⟨p, hop⟩ | ⟨length, -, hop⟩ := opDec_cases i d <;> rw [hop] <;> exact .of_none hf
  | truncated hf hm hr he k hd =>
    exact ⟨fun e hfault => (Option.some.inj hfault).symm, fun _ _ => ⟨he, Decoder.read_missing hd⟩⟩

/-- A move of the decode side keeps its fault record. -/
theorem DecCase.faultRecord {d d' : Decoder} (hc : DecCase d d') (h : DecFaultRecord d) : DecFaultRecord d' := by
  cases hc with
  | core hp hcore => exact hcore.faultRecord
  | magic hp hr =>
    obtain ⟨p, hp', rfl⟩ := readMagic_ok hr
    exact h.outside d.header d.source (by obtain rfl | ⟨r, rfl⟩ := hp' <;> simp)
  | fields hp hr =>
    obtain ⟨hd, n, ch, rfl⟩ | ⟨hd, r, rfl⟩ := readFields_ok hr
    · exact .of_none rfl
    · exact h.outside hd d.source (by simp)
  | finish hp hr =>
    obtain ⟨r, rfl⟩ := finish_ok hr
    exact h.outside d.header d.source (by simp)

/-- A move of the encode side raises nothing (R110). -/
theorem EncCase.fault_eq_none {e e' : Encoder} (hc : EncCase e e') (h : e.fault = none) : e'.fault = none := by
  cases hc with
  | core p => obtain ⟨-, hstep⟩ | ⟨-, hstep⟩ := e.step_cases p <;> rw [hstep] <;> exact h
  | header hp ch hc hk => rfl
  | marker hp hm hk => exact h
  | failed a bs r hr ha => exact h

/-- Settles O44: a turn by the two lemmas above; the host's actions start afresh, leave the fault record's fields, or deliver a byte
to a source that has not ended, in whose stream no fault is recorded. -/
theorem stepKeepsFaultRecord : Obligations.StepKeepsFaultRecord := by
  unfold Obligations.StepKeepsFaultRecord
  intro s t hs h
  rw [faultsInv_iff] at hs ⊢
  obtain ⟨henc, hdec⟩ := hs
  cases step_cases h with
  | dec d vs hv hc => exact ⟨henc, hc.faultRecord hdec⟩
  | enc e vs hv hc => exact ⟨hc.fault_eq_none henc, hdec⟩
  | skip v vs hv => exact ⟨henc, hdec⟩
  | host a vs hv _ ha =>
    rcases hostAct_cases ha with ⟨n, ch, rfl⟩ | ⟨n, ch, rfl⟩ | ⟨p, rfl⟩ | ⟨b, hopen, rfl⟩ | rfl | ⟨l, rfl⟩ | ⟨hd, rfl⟩ | rfl
    · exact ⟨rfl, hdec⟩
    · exact ⟨henc, .of_none rfl⟩
    · exact ⟨henc, hdec⟩
    · refine ⟨henc, hdec.kind, fun hp hne => absurd (hdec.missing hp hne).1 ?_⟩
      rw [show s.dec.source.ended = false from hopen]
      exact Bool.false_ne_true
    · exact ⟨henc, hdec.kind, fun hp hne => ⟨rfl, (hdec.missing hp hne).2⟩⟩
    · exact ⟨henc, hdec⟩
    · exact ⟨henc, hdec⟩
    · exact ⟨henc, hdec.outside s.dec.header _ (by simp)⟩

end Sys2Proof.Machine
end

section

namespace Sys2Proof.Machine

/-! ### Bytes emitted and pixels delivered stay (spec/20_memory.md R42, R46) -/

/-- An action of the host that gives the encode side no new sink changes of it the input pixels and the sink's limit alone. -/
theorem hostAct_keeps_sink {a : HostAction} {s t : State} (h : hostAct a s = .next t)
    (hr : restartsEnc (.host a) = false) :
    ∃ ps l, t.enc = { s.enc with pixels := ps, sink := { s.enc.sink with limit := l } } := by
  cases a with
  | startEnc n c | resetEnc | encodeFile hd => cases hr
  | startDec n c | deliverByte b =>
    simp only [hostAct] at h
    split at h <;> cases h
    exact ⟨_, _, rfl⟩
  | resetDec | deliverPixel p | endBytes | limitSink l | decodeFile =>
    cases h
    exact ⟨_, _, rfl⟩

/-- An action of the host that gives the decode side no new source changes of it the source alone, where every byte stays. -/
theorem hostAct_keeps_source {a : HostAction} {s t : State} (h : hostAct a s = .next t)
    (hr : restartsDec (.host a) = false) (hwf : s.dec.source.bytes.wf) :
    ∃ src, t.dec = { s.dec with source := src } ∧ s.dec.source.bytes.Extends src.bytes := by
  cases a with
  | startDec n c | resetDec | decodeFile => cases hr
  | startEnc n c =>
    simp only [hostAct] at h
    split at h <;> cases h
    exact ⟨s.dec.source, rfl, fun _ _ hb => hb⟩
  | deliverByte b =>
    simp only [hostAct] at h
    split at h <;> cases h
    exact ⟨_, rfl, Memory.extends_write_endOffset hwf b⟩
  | resetEnc | deliverPixel p | endBytes | limitSink l | encodeFile hd =>
    cases h
    exact ⟨_, rfl, fun _ _ hb => hb⟩

/-- Bytes counted in `OUTPOS` that stand in the sink of the stream. -/
def Encoder.EmittedStand (e : Encoder) : Prop :=
  e.inStream = true → ∀ k, k < e.outpos → (e.sink.bytes.read (e.base + k)).isSome = true

/-- What was emitted before is still counted, and reads the same. -/
def Encoder.EmittedKept (e e' : Encoder) : Prop :=
  e.outpos ≤ e'.outpos ∧ ∀ k, k < e.outpos → e'.sink.bytes.read (e'.base + k) = e.sink.bytes.read (e.base + k)

/-- A move of the encode side writes behind `OUTPOS`, but for the header, before its stream (R42). -/
theorem EncCase.emittedKept {e e' : Encoder} (hc : EncCase e e') (hp : e.phase ≠ .header) : e.EmittedKept e' := by
  cases hc with
  | core p =>
    obtain ⟨-, hstep⟩ | ⟨-, hstep⟩ := e.step_cases p <;> rw [hstep] <;>
      refine ⟨by dsimp only; omega, fun k hk => ByteSink.putAll_read_other (.inl (Nat.add_lt_add_left hk e.base))⟩
  | header hph => exact absurd hph hp
  | marker => exact ⟨Nat.le_refl _, fun k hk => ByteSink.putAll_read_other (.inl (Nat.add_lt_add_left hk e.base))⟩
  | failed a bs r hr ha =>
    refine ⟨Nat.le_refl _, fun k hk => ?_⟩
    obtain rfl | hph | rfl := ha
    · rfl
    · exact absurd hph hp
    · exact ByteSink.putAll_read_other (.inl (Nat.add_lt_add_left hk e.base))

/-- What a move of the encode side emits stands in the sink (R42). -/
theorem EncCase.emittedStand {e e' : Encoder} (hc : EncCase e e') (h : e.EmittedStand) : e'.EmittedStand := by
  cases hc with
  | core p hp =>
    intro _ k hk
    have hbefore := h (Encoder.inStream_of_phase hp)
    obtain ⟨hopen, hstep⟩ | ⟨-, hstep⟩ := e.step_cases p <;> rw [hstep] at hk ⊢
    · by_cases hold : k < e.outpos
      · exact ByteSink.putAll_read_isSome (hbefore k hold)
      · obtain ⟨hk0, hk1⟩ := ByteSink.putAll_not_failed hopen
        obtain ⟨i, rfl⟩ : ∃ i, k = e.outpos + i := ⟨k - e.outpos, by omega⟩
        have hi : i < (encodeAll (encodePixel e.last e.ctx p).2).length := by dsimp only at hk; omega
        have htaken := (ByteSink.putAll_taken hk0 hk1).2 i hi
        rw [List.getElem?_eq_getElem hi, Nat.add_assoc] at htaken
        dsimp only
        rw [htaken]
        rfl
    · exact ByteSink.putAll_read_isSome (hbefore k hk)
  | header => exact fun _ k hk => absurd hk (Nat.not_lt_zero k)
  | marker hp => exact fun _ k hk => ByteSink.putAll_read_isSome (h (Encoder.inStream_of_phase (.inr hp)) k hk)
  | failed a bs r hr ha =>
    intro hin
    rw [Encoder.not_inStream_of_failed e _ hr] at hin
    cases hin

/-- Settles O45 (R42, R90): a move by the two lemmas above; the host opens an empty stream or leaves the bytes. -/
theorem stepKeepsEmittedBytes : Obligations.StepKeepsEmittedBytes := by
  unfold Obligations.StepKeepsEmittedBytes
  intro s t hs h
  show t.enc.EmittedStand ∧ (_ → _ → s.enc.EmittedKept t.enc)
  have same : s.enc.EmittedKept s.enc := ⟨Nat.le_refl _, fun _ _ => rfl⟩
  cases step_cases h with
  | dec d vs hv hc => exact ⟨hs, fun _ _ => same⟩
  | enc e vs hv hc => exact ⟨hc.emittedStand hs, fun _ hp => hc.emittedKept hp⟩
  | skip v vs hv => exact ⟨hs, fun _ _ => same⟩
  | host a vs hv _ ha =>
    refine ⟨?_, fun hno hp => ?_⟩
    · rcases hostAct_cases ha with ⟨n, ch, rfl⟩ | ⟨n, ch, rfl⟩ | ⟨p, rfl⟩ | ⟨b, -, rfl⟩ | rfl | ⟨l, rfl⟩ | ⟨hd, rfl⟩ | rfl
      · exact fun _ k hk => absurd hk (Nat.not_lt_zero k)
      · exact hs
      · exact hs
      · exact hs
      · exact hs
      · exact hs
      · exact fun hin => absurd hin Bool.false_ne_true
      · exact hs
    · obtain ⟨ps, l, hkeep⟩ := hostAct_keeps_sink ha (hno _ vs hv)
      rw [hkeep]
      exact same

/-- A move of the decode side that starts no stream delivers at most one pixel. -/
theorem DecCase.delivers_at_most_one {d d' : Decoder} (hc : DecCase d d') (hp : d.phase ≠ .fields) :
    ∃ ps, d'.out = d.out ++ ps ∧ ps.length ≤ 1 := by
  have none_delivered : d.out = d.out ++ [] := (List.append_nil _).symm
  cases hc with
  | core hph hcore =>
    obtain ⟨-, p, hout⟩ | ⟨-, hout⟩ := hcore.delivers
    · exact ⟨[p], hout, Nat.le_refl 1⟩
    · exact ⟨[], hout.trans none_delivered, Nat.zero_le 1⟩
  | magic hph hr =>
    obtain ⟨p, -, rfl⟩ := readMagic_ok hr
    exact ⟨[], none_delivered, Nat.zero_le 1⟩
  | fields hph hr => exact absurd hph hp
  | finish hph hr =>
    obtain ⟨r, rfl⟩ := finish_ok hr
    exact ⟨[], none_delivered, Nat.zero_le 1⟩

/-- Settles O46 (R46, R131): moves leave the source, the host's other actions leave its bytes, and only the core delivers. -/
theorem stepKeepsDeliveredPixels : Obligations.StepKeepsDeliveredPixels := by
  unfold Obligations.StepKeepsDeliveredPixels
  intro s t hwf h hno hp
  have none_delivered : ∃ ps, s.dec.out = s.dec.out ++ ps ∧ ps.length ≤ 1 :=
    ⟨[], (List.append_nil _).symm, Nat.zero_le 1⟩
  cases step_cases h with
  | dec d vs hv hc =>
    refine ⟨hc.delivers_at_most_one hp, fun a b hread => ?_⟩
    rw [show d.source = s.dec.source from hc.source_eq]
    exact hread
  | enc e vs hv hc => exact ⟨none_delivered, fun _ _ hread => hread⟩
  | skip v vs hv => exact ⟨none_delivered, fun _ _ hread => hread⟩
  | host a vs hv _ ha =>
    obtain ⟨src, hkeep, hext⟩ := hostAct_keeps_source ha (hno _ vs hv) hwf
    rw [hkeep]
    exact ⟨none_delivered, hext⟩

/-- Settles O47: a fresh side is one right after a stream start, of which each invariant holds. -/
theorem resetMeetsInvariants : Obligations.ResetMeetsInvariants := by
  unfold Obligations.ResetMeetsInvariants
  refine ⟨⟨List.Pairwise.nil, List.Pairwise.nil⟩, ⟨fun _ => cacheInv_init, fun _ => cacheInv_init⟩,
    .of_streamStart (Encoder.fresh 0 .four) 0 .four, .of_streamStart (Encoder.fresh 0 .four) 0 .four,
    .of_streamStart (Decoder.fresh 0 .four) 0 .four, (faultsInv_iff _).2 ⟨rfl, .of_none rfl⟩,
    fun _ k hk => absurd hk (Nat.not_lt_zero k), rfl, rfl, rfl, Context.lookup_init, rfl, rfl, rfl, rfl, rfl, rfl⟩

end Sys2Proof.Machine
end

section

namespace Sys2Proof.Machine

/-! ### A memory that holds a list of bytes from offset 0 -/

/-- The memory of a stream in which these bytes stand, and no others. -/
def Memory.ofBytes (bs : List Byte) : Memory := Memory.writeAll [] 0 bs

theorem Memory.writeAll_append (m : Memory) (a : Nat) (xs ys : List Byte) :
    m.writeAll a (xs ++ ys) = (m.writeAll a xs).writeAll (a + xs.length) ys := by
  induction xs generalizing m a with
  | nil => rfl
  | cons x xs ih =>
    simp only [List.cons_append, Memory.writeAll, ih, List.length_cons, Nat.add_assoc, Nat.add_comm 1]

/-- Bytes written behind those of a stream. -/
theorem Memory.ofBytes_writeAll (xs ys : List Byte) :
    (Memory.ofBytes xs).writeAll xs.length ys = Memory.ofBytes (xs ++ ys) := by
  rw [Memory.ofBytes, Memory.ofBytes, Memory.writeAll_append, Nat.zero_add]

theorem Memory.ofBytes_wf (bs : List Byte) : (Memory.ofBytes bs).wf := Memory.writeAll_wf List.Pairwise.nil 0 bs

theorem Memory.read_ofBytes (bs : List Byte) (a : Nat) : (Memory.ofBytes bs).read a = bs[a]? := by
  rw [Memory.ofBytes, Memory.read_writeAll]
  split
  · rfl
  · rw [List.getElem?_eq_none (by omega)]
    rfl

/-- Such a memory lists its bytes in order and ends behind the last. -/
theorem Memory.ofBytes_layout (bs : List Byte) :
    (Memory.ofBytes bs).endOffset = bs.length ∧ (Memory.ofBytes bs).map Prod.snd = bs := by
  induction bs using List.reverseRecOn with
  | nil => exact ⟨rfl, rfl⟩
  | append_singleton bs b ih =>
    obtain ⟨hend, hbytes⟩ := ih
    have happend : Memory.ofBytes (bs ++ [b]) = Memory.ofBytes bs ++ [(bs.length, b)] := by
      rw [← Memory.ofBytes_writeAll]
      exact Memory.write_append (Memory.ofBytes_wf bs) hend.le b
    rw [happend, Memory.endOffset_append, List.map_append, hbytes, List.length_append]
    exact ⟨rfl, rfl⟩

/-- A window of such a memory is a part of the list. -/
theorem Memory.window_ofBytes (bs : List Byte) (a k : Nat) : (Memory.ofBytes bs).window a k = (bs.drop a).take k := by
  induction k generalizing a with
  | zero => rw [List.take_zero]; rfl
  | succ k ih =>
    simp only [Memory.window, Memory.read_ofBytes]
    by_cases ha : a < bs.length
    · rw [List.getElem?_eq_getElem ha, List.drop_eq_getElem_cons ha, List.take_succ_cons, ← ih]
    · rw [List.getElem?_eq_none (by omega), List.drop_of_length_le (by omega), List.take_nil]

/-- A sink without a limit that holds a list of bytes. -/
def ByteSink.ofBytes (bs : List Byte) : ByteSink := ⟨Memory.ofBytes bs, none, false⟩

theorem ByteSink.ofBytes_contents (bs : List Byte) : (ByteSink.ofBytes bs).contents = bs := (Memory.ofBytes_layout bs).2

/-- Bytes to such a sink at its end stand behind those it holds. -/
theorem ByteSink.ofBytes_putAll (xs ys : List Byte) :
    (ByteSink.ofBytes xs).putAll xs.length ys = ByteSink.ofBytes (xs ++ ys) := by
  rw [ByteSink.putAll_open (by rfl) fun i hi => by rfl]
  exact congrArg (fun m => (⟨m, none, false⟩ : ByteSink)) (Memory.ofBytes_writeAll xs ys)

end Sys2Proof.Machine
end

section

namespace Sys2Proof.Machine

/-! ### The operations of a whole pixel sequence (spec/41_encoder.md R91) -/

/-- The operations `ENC` emits for the pixels left, from a context on; the last of them is pixel `N - 1`. -/
def emitAll (c : Context) : List Pixel → List Instr
  | [] => []
  | p :: ps => (encodePixel ps.isEmpty c p).2 ++ emitAll (encodePixel ps.isEmpty c p).1 ps

/-- The context of `ENC` after `k` of the pixels left. -/
def contextAfter (c : Context) : List Pixel → Nat → Context
  | p :: ps, k + 1 => contextAfter (encodePixel ps.isEmpty c p).1 ps k
  | _, _ => c

@[simp] theorem contextAfter_zero (c : Context) (ps : List Pixel) : contextAfter c ps 0 = c := by cases ps <;> rfl

/-- A pending run comes out as one RUN, of at least its length, once pixels are left to end it (R92 to R94). -/
theorem emitAll_of_pending {c : Context} {ps : List Pixel} (hpending : c.run ≠ 0) (hle : c.run.toNat ≤ 61)
    (hps : ps.isEmpty = false) :
    ∃ m rest, emitAll c ps = .run m :: rest ∧ c.run.toNat ≤ m ∧ m ≤ 62 := by
  induction ps generalizing c with
  | nil => cases hps
  | cons p ps ih =>
    have hsucc := run_succ hle
    rcases encodePixel_cases ps.isEmpty c p with ⟨-, hne, hmore, hop⟩ | ⟨-, -, hop⟩ | ⟨-, hop⟩ <;>
      simp only [emitAll, hop]
    · have hpending' : c.run + 1 ≠ 0 := fun h => by
        rw [h] at hsucc
        cases hsucc
      obtain ⟨m, rest, hemit, hlo, hhi⟩ := ih (c := { c with run := c.run + 1, prev := p }) hpending'
        (by dsimp only; omega) hmore
      exact ⟨m, rest, hemit, by dsimp only at hlo; omega, hhi⟩
    · exact ⟨_, _, rfl, by omega, by omega⟩
    · rw [pendingRun, if_neg hpending]
      exact ⟨_, _, rfl, Nat.le_refl _, by omega⟩

/-- The RUN that `DEC` has read already when `ENC` has `i` pixels of it pending and `DEC` `j` still to repeat. -/
def runAhead (i j : Nat) : List Instr := if i + j = 0 then [] else [.run (i + j)]

/-- With `j` pixels of a run left, `DEC` has read what `ENC` emits from here on but for `rest`. -/
structure Ahead (c : Context) (j : Nat) (ps : List Pixel) (rest : List Instr) : Prop where
  idle : c.run = 0 → j = 0
  emit : emitAll c ps = runAhead c.run.toNat j ++ rest

/-- Without a run of `ENC` pending the operations left are all to be read. -/
theorem Ahead.of_idle {c : Context} (h : c.run = 0) (ps : List Pixel) : Ahead c 0 ps (emitAll c ps) :=
  ⟨fun _ => rfl, by rw [h]; rfl⟩

theorem runAhead_of_pos {i : Nat} (h : 0 < i) (j : Nat) : runAhead i j = [.run (i + j)] := if_neg (by omega)

/-- What `DEC` does for the next pixel: it repeats `PREV` for a run it has read, or reads the RUN or the operation selected. -/
theorem Ahead.next {c : Context} {j : Nat} {p : Pixel} {ps : List Pixel} {rest : List Instr} (h : Ahead c j (p :: ps) rest)
    (hle : c.run.toNat ≤ 61) :
    (p = c.prev ∧ ∃ i, j = i + 1 ∧ Ahead (encodePixel ps.isEmpty c p).1 i ps rest) ∨
    (p = c.prev ∧ j = 0 ∧ ∃ i rest', i ≤ 61 ∧ rest = .run (i + 1) :: rest' ∧
      Ahead (encodePixel ps.isEmpty c p).1 i ps rest') ∨
    (p ≠ c.prev ∧ j = 0 ∧ ∃ rest', rest = selectOp c p :: rest' ∧ Ahead (encodePixel ps.isEmpty c p).1 0 ps rest') := by
  obtain ⟨idle, emit⟩ := h
  have hsucc := run_succ hle
  have hpos : c.run ≠ 0 → 0 < c.run.toNat := fun hne => Nat.pos_of_ne_zero fun h0 => hne (BitVec.eq_of_toNat_eq h0)
  rcases encodePixel_cases ps.isEmpty c p with ⟨hp, hne, hmore, hop⟩ | ⟨hp, -, hop⟩ | ⟨hp, hop⟩ <;>
    simp only [emitAll, hop] at emit ⊢
  · -- the run of `ENC` grows: its RUN is still to come, and is the one `DEC` repeats for
    have hpending : c.run + 1 ≠ 0 := fun h => by
      rw [h] at hsucc
      cases hsucc
    obtain ⟨m, rest', hemit, hlo, hhi⟩ := emitAll_of_pending (c := { c with run := c.run + 1, prev := p }) hpending
      (by dsimp only; omega) hmore
    dsimp only at hlo
    have ahead {i : Nat} (hi : c.run.toNat + 1 + i = m) : Ahead { c with run := c.run + 1, prev := p } i ps rest' :=
      ⟨fun h => absurd h hpending, by rw [hemit, runAhead_of_pos (by dsimp only; omega)]; simp only [hsucc, hi]; rfl⟩
    by_cases hrun : c.run = 0
    · obtain rfl := idle hrun
      have hzero : c.run.toNat = 0 := by rw [hrun]; rfl
      rw [hzero] at emit
      refine .inr (.inl ⟨hp, rfl, m - 1, rest', by omega, ?_, ahead (by omega)⟩)
      rw [show m - 1 + 1 = m by omega, ← hemit]
      exact emit.symm
    · rw [runAhead_of_pos (hpos hrun), List.nil_append, hemit] at emit
      obtain ⟨hm, rfl⟩ := List.cons.inj emit
      obtain rfl := Instr.run.inj hm
      exact .inl ⟨hp, j - 1, by omega, ahead (by omega)⟩
  · -- the run of `ENC` is flushed with this pixel
    by_cases hrun : c.run = 0
    · obtain rfl := idle hrun
      rw [hrun] at emit
      exact .inr (.inl ⟨hp, rfl, 0, _, by omega, emit.symm, .of_idle rfl ps⟩)
    · rw [runAhead_of_pos (hpos hrun)] at emit
      obtain ⟨hj, rfl⟩ := List.cons.inj emit
      have hj := Instr.run.inj hj
      exact .inl ⟨hp, 0, by omega, .of_idle rfl ps⟩
  · -- a run of `ENC` has ended before this pixel
    by_cases hrun : c.run = 0
    · obtain rfl := idle hrun
      rw [pendingRun, if_pos hrun, hrun] at emit
      exact .inr (.inr ⟨hp, rfl, _, emit.symm, .of_idle rfl ps⟩)
    · rw [pendingRun, if_neg hrun, runAhead_of_pos (hpos hrun)] at emit
      obtain ⟨hj, rfl⟩ := List.cons.inj emit
      have hj := Instr.run.inj hj
      exact .inr (.inr ⟨hp, by omega, _, rfl, .of_idle rfl ps⟩)

end Sys2Proof.Machine
end

section

namespace Sys2Proof.Machine

/-! ### `DEC` on the bytes `ENC` emits (spec/42_decoder.md R136, spec/20_memory.md R35) -/

/-- On the encoder's cache and `PREV` the operation selected for a pixel produces and stores that pixel. -/
theorem opDec_selectOp {d : Decoder} {c : Context} (hcache : d.ctx.cache = c.cache) (hprev : d.ctx.prev = c.prev)
    (p : Pixel) : opDec (selectOp c p) d = (d.advance (selectOp c p).length).storeAndProduce p := by
  have happly : p.a = c.prev.a → diffApply c.prev (delta p c.prev).1 (delta p c.prev).2.1 (delta p c.prev).2.2 = p :=
    diffApply_deltaWith true
  rcases selectOp_cases c p with ⟨hit, hop⟩ | ⟨-, alpha, -, hop⟩ | ⟨-, alpha, -, -, hop⟩ | ⟨-, alpha, -, -, hop⟩ |
    ⟨-, -, hop⟩ <;> rw [hop]
  · have hlookup : d.ctx.lookup (slotHash p) = p := by
      rw [Context.lookup, hcache]
      exact hit
    simp only [opDec, hlookup, Instr.length]
  · simp only [opDec, hprev, happly alpha, Instr.length]
  · simp only [opDec, hprev, lumaApply_eq_diffApply, happly alpha, Instr.length]
  · simp only [opDec, hprev, ← alpha, Instr.length]
  · rfl

/-- What an encoder step makes of the cache. -/
theorem encodePixel_cache (last : Bool) (c : Context) (p : Pixel) :
    (encodePixel last c p).1.cache = if p = c.prev then c.cache else (c.remember p).cache := by
  unfold encodePixel
  split
  · dsimp only
    split <;> rfl
  · rfl

/-- An encoder step leaves `RUN` within 0..61 (R107). -/
theorem encodePixel_run_le {c : Context} (h : c.run.toNat ≤ 61) (last : Bool) (p : Pixel) :
    (encodePixel last c p).1.run.toNat ≤ 61 := by
  obtain hr | ⟨-, -, -, hr, hle⟩ := encodePixel_run (last := last) (p := p) h
  · rw [hr]
    exact Nat.zero_le _
  · omega

/-- Behind what `DEC` has read there stand these operations in the source, then `tail`. -/
def Decoder.HasLeft (d : Decoder) (is : List Instr) (tail : List Byte) : Prop :=
  ∃ pre, d.source.bytes = Memory.ofBytes (pre ++ (encodeAll is ++ tail)) ∧ pre.length = d.base + d.bytepos

/-- A fetching `DEC` runs the first well-formed operation left, and has the others left. -/
theorem Decoder.HasLeft.read {s : State} {i : Instr} {is : List Instr} {tail : List Byte}
    (h : s.dec.HasLeft (i :: is) tail) (fetches : DecFetches s) (hwf : i.wf = true) :
    decMove s = .ok (.next (s.withDec (opDec i s.dec))) ∧ (opDec i s.dec).HasLeft is tail := by
  obtain ⟨pre, hbytes, hpre⟩ := h
  rw [encodeAll_cons, List.append_assoc] at hbytes
  have hlength : (encode i).length ≤ maxLength := by rw [encode_length]; cases i <;> simp [Instr.length, maxLength]
  have hfetch : s.dec.fetch maxLength = encode i ++ (encodeAll is ++ tail).take (maxLength - (encode i).length) := by
    rw [Decoder.fetch, hbytes, Memory.window_ofBytes, ← hpre, List.drop_left, List.take_append,
      List.take_of_length_le hlength]
  have hd := (congrArg decode hfetch).trans (decodeOfEncode i _ hwf)
  have hkept : (opDec i s.dec).source = s.dec.source ∧ (opDec i s.dec).base = s.dec.base ∧
      (opDec i s.dec).bytepos = s.dec.bytepos + i.length := by cases i <;> exact ⟨rfl, rfl, rfl⟩
  obtain ⟨hsource, hbase, hbytepos⟩ := hkept
  refine ⟨(fetches.move_of_ok hd).trans (congrArg _ (exec_eq i s)), pre ++ encode i, ?_, ?_⟩
  · rw [hsource, hbytes, List.append_assoc]
  · rw [hbase, hbytepos, List.length_append, hpre, encode_length, Nat.add_assoc]

/-- `d'` is `d` after it has produced the pixels `qs` of one stream. -/
structure HasProduced (d d' : Decoder) (qs : List Pixel) : Prop where
  frame : CoreFrame d d'
  out : d'.out = d.out ++ qs.map (outPixel d.ch)
  pixpos : d'.pixpos = d.pixpos + qs.length

theorem HasProduced.refl (d : Decoder) : HasProduced d d [] :=
  ⟨⟨rfl, rfl, rfl, rfl, rfl, rfl⟩, (List.append_nil _).symm, rfl⟩

theorem HasProduced.cons {d d' d'' : Decoder} {p : Pixel} {qs : List Pixel} (h : HasProduced d d' [p])
    (h' : HasProduced d' d'' qs) : HasProduced d d'' (p :: qs) where
  frame :=
    ⟨h'.frame.n.trans h.frame.n, h'.frame.ch.trans h.frame.ch, h'.frame.source.trans h.frame.source,
      h'.frame.base.trans h.frame.base, h'.frame.phase.trans h.frame.phase, h'.frame.header.trans h.frame.header⟩
  out := by
    rw [h'.out, h.out, h.frame.ch, List.append_assoc]
    rfl
  pixpos := by
    rw [h'.pixpos, h.pixpos, Nat.add_assoc, Nat.add_comm [p].length]
    rfl

/-- `DEC` stands at a pixel where `ENC`, about to process the pixels `ps`, had the context `c`; behind the operations left, `tail`
stands in the source. -/
structure Follows (d : Decoder) (c : Context) (ps : List Pixel) (tail : List Byte) : Prop where
  phase : d.phase = .bare ∨ d.phase = .pixels
  fault : d.fault = none
  cache : d.ctx.cache = c.cache
  prev : d.ctx.prev = c.prev
  n : d.n = d.pixpos + ps.length
  runLe : c.run.toNat ≤ 61
  ahead : ∃ rest, d.HasLeft rest tail ∧ Ahead c d.ctx.run.toNat ps rest

/-- A decoder step follows the encoder's step on a pixel when it produces the pixel, changes the cache alike, and what it has read is
ahead of the encoder's new context. -/
theorem Follows.produced {d d' : Decoder} {c : Context} {p : Pixel} {ps : List Pixel} {tail : List Byte} {rest : List Instr}
    (h : Follows d c (p :: ps) tail) (hprod : HasProduced d d' [p]) (hfault : d'.fault = none) (hprev : d'.ctx.prev = p)
    (hcache : d'.ctx.cache = (encodePixel ps.isEmpty c p).1.cache) (hleft : d'.HasLeft rest tail)
    (hahead : Ahead (encodePixel ps.isEmpty c p).1 d'.ctx.run.toNat ps rest) :
    Follows d' (encodePixel ps.isEmpty c p).1 ps tail where
  phase := by
    rw [hprod.frame.phase]
    exact h.phase
  fault := hfault
  cache := hcache
  prev := hprev.trans (encodePixel_prev _ c p).symm
  n := by
    have hn := h.n
    have hpixpos := hprod.pixpos
    rw [List.length_cons] at hn
    rw [List.length_singleton] at hpixpos
    rw [hprod.frame.n]
    omega
  runLe := encodePixel_run_le h.runLe _ p
  ahead := ⟨rest, hleft, hahead⟩

/-- `DEC` that follows `ENC` takes a step for the next pixel, produces it, and follows on. -/
theorem Follows.step {s : State} {c : Context} {p : Pixel} {ps : List Pixel} {tail : List Byte}
    (h : Follows s.dec c (p :: ps) tail) :
    ∃ d, decMove s = .ok (.next (s.withDec d)) ∧ Follows d (encodePixel ps.isEmpty c p).1 ps tail ∧
      HasProduced s.dec d [p] := by
  have hmore : s.dec.pixpos ≠ s.dec.n := by
    have hn := h.n
    rw [List.length_cons] at hn
    omega
  have fetches (h0 : s.dec.ctx.run.toNat = 0) : DecFetches s :=
    ⟨h.phase, h.fault, hmore, BitVec.eq_of_toNat_eq h0⟩
  have hcache := encodePixel_cache ps.isEmpty c p
  obtain ⟨rest, hleft, ahead⟩ := h.ahead
  rcases ahead.next h.runLe with ⟨hp, j, hj, ahead'⟩ | ⟨hp, hj, j, rest', hle, rfl, ahead'⟩ |
    ⟨hp, hj, rest', rfl, ahead'⟩
  · -- a RUN read already: the expander repeats `PREV`
    have hrun : s.dec.ctx.run ≠ 0 := fun h0 => by rw [h0] at hj; cases hj
    have hrunLeft := (expandRun_spec s hrun).run
    rw [State.withDec_dec, hj, Nat.add_sub_cancel] at hrunLeft
    have hprev : s.dec.ctx.prev = p := h.prev.trans hp.symm
    have hprod : HasProduced s.dec s.dec.expandRun [p] := ⟨⟨rfl, rfl, rfl, rfl, rfl, rfl⟩, by rw [← hprev]; rfl, rfl⟩
    rw [if_pos hp] at hcache
    exact ⟨_, decMove_of_run h.phase h.fault hmore hrun,
      h.produced hprod h.fault hprev (h.cache.trans hcache.symm) hleft (hrunLeft ▸ ahead'), hprod⟩
  · -- a RUN stands at `BYTEPOS`
    obtain ⟨hmove, hleft'⟩ := hleft.read (fetches hj) ((Instr.wf_run _).2 (by omega))
    have hrunLeft : (BitVec.ofNat 6 (j + 1 - 1)).toNat = j := by rw [BitVec.toNat_ofNat]; omega
    have hprev : s.dec.ctx.prev = p := h.prev.trans hp.symm
    have hprod : HasProduced s.dec (opDec (.run (j + 1)) s.dec) [p] :=
      ⟨⟨rfl, rfl, rfl, rfl, rfl, rfl⟩, by rw [← hprev]; rfl, rfl⟩
    rw [if_pos hp] at hcache
    exact ⟨_, hmove, h.produced hprod h.fault hprev (h.cache.trans hcache.symm) hleft' (hrunLeft.symm ▸ ahead'), hprod⟩
  · -- the operation selected for the pixel stands at `BYTEPOS`
    obtain ⟨hmove, hleft'⟩ := hleft.read (fetches hj) (selectOp_wf c p)
    rw [opDec_selectOp h.cache h.prev p] at hmove hleft'
    have hprod : HasProduced s.dec ((s.dec.advance (selectOp c p).length).storeAndProduce p) [p] :=
      ⟨⟨rfl, rfl, rfl, rfl, rfl, rfl⟩, rfl, rfl⟩
    have hremember : (s.dec.ctx.remember p).cache = (c.remember p).cache :=
      congrArg (fun v : Vector Pixel 64 => v.set (slotHash p).val p (slotHash p).isLt) h.cache
    rw [if_neg hp] at hcache
    exact ⟨_, hmove, h.produced hprod h.fault rfl (hremember.trans hcache.symm) hleft' (hj.symm ▸ ahead'), hprod⟩

/-- `k` turns of a following `DEC` produce the next `k` pixels. -/
theorem Follows.turns (k : Nat) {s : State} {c : Context} {ps : List Pixel} {tail : List Byte} (h : Follows s.dec c ps tail)
    (hk : k ≤ ps.length) :
    ∃ d, (∀ vs, runEvents (List.replicate k .dec ++ vs) s = runEvents vs (s.withDec d)) ∧
      Follows d (contextAfter c ps k) (ps.drop k) tail ∧ HasProduced s.dec d (ps.take k) := by
  induction k generalizing s c ps with
  | zero => exact ⟨s.dec, fun vs => rfl, by rw [contextAfter_zero]; exact h, .refl _⟩
  | succ k ih =>
    cases ps with
    | nil => exact absurd hk (Nat.not_succ_le_zero k)
    | cons p ps =>
      obtain ⟨d, hmove, hfollows, hone⟩ := h.step
      obtain ⟨d', hrun, hfollows', hrest⟩ := ih (s := s.withDec d) hfollows (Nat.le_of_succ_le_succ hk)
      exact ⟨d', fun vs => (runEvents_dec hmove _).trans (hrun vs), hfollows', hone.cons hrest⟩

/-- At the end `ENC` has no run pending, and `DEC` has read all the operations and holds the encoder's context. -/
theorem Follows.ended {d : Decoder} {c : Context} {tail : List Byte} (h : Follows d c [] tail) :
    c.run = 0 ∧ d.ctx = c ∧ d.pixpos = d.n ∧ d.HasLeft [] tail := by
  obtain ⟨rest, hleft, idle, emit⟩ := h.ahead
  have hsum : c.run.toNat + d.ctx.run.toNat = 0 := by
    by_contra hne
    rw [runAhead, if_neg hne] at emit
    cases emit
  have hrest : rest = [] := by
    rw [runAhead, if_pos hsum] at emit
    exact emit.symm
  have hrun : c.run = 0 := BitVec.eq_of_toNat_eq (by rw [Nat.eq_zero_of_add_eq_zero_right hsum]; rfl)
  have hrun' : d.ctx.run = c.run :=
    BitVec.eq_of_toNat_eq (by omega)
  have hctx : d.ctx = c := by
    cases hd : d.ctx
    cases c
    have hcache := h.cache
    have hprev := h.prev
    simp_all
  exact ⟨hrun, hctx, h.n.symm, hrest ▸ hleft⟩

end Sys2Proof.Machine
end

section

namespace Sys2Proof.Machine

/-! ### `ENC` over a whole pixel sequence (spec/41_encoder.md R91) -/

/-- `ENC` stands at a pixel with the pixels `ps` (as it sees them) left to process; `pre` stands before its stream in the sink, and
what it has emitted and has still to emit is `total`. -/
structure Encodes (e : Encoder) (pre total : List Byte) (ps : List Pixel) : Prop where
  phase : e.phase = .bare ∨ e.phase = .pixels
  fault : e.fault = none
  base : e.base = pre.length
  pixels : (e.pixels.map (sourcePixel e.ch)).drop e.pixpos = ps
  n : e.n = e.pixpos + ps.length
  sink : ∃ out, e.sink = ByteSink.ofBytes (pre ++ out) ∧ e.outpos = out.length ∧
    out ++ encodeAll (emitAll e.ctx ps) = total

/-- `ENC` takes a step for the next pixel. -/
theorem Encodes.step {e : Encoder} {pre total : List Byte} {p : Pixel} {ps : List Pixel}
    (h : Encodes e pre total (p :: ps)) :
    ∃ e', e.move = .ok e' ∧ Encodes e' pre total ps ∧ e'.ctx = (encodePixel ps.isEmpty e.ctx p).1 ∧
      e'.pixpos = e.pixpos + 1 ∧ e'.phase = e.phase := by
  obtain ⟨phase, fault, base, pixels, n, out, hsink, houtpos, htotal⟩ := h
  rw [List.length_cons] at n
  have hmore : e.pixpos ≠ e.n := by omega
  have hopen : e.sink.failed = false := by rw [hsink]; rfl
  have hnext : e.nextPixel = some p := by
    rw [Encoder.nextPixel_eq, ← List.head?_drop, pixels]
    rfl
  have hlast : e.last = ps.isEmpty := by
    cases ps <;> simp [Encoder.last, n]
  have hput (bs : List Byte) : e.sink.putAll (e.base + e.outpos) bs = ByteSink.ofBytes (pre ++ (out ++ bs)) := by
    rw [hsink, base, houtpos, ← List.length_append, ByteSink.ofBytes_putAll, List.append_assoc]
  have hmove : e.move = .ok (e.step p) := by
    rw [Encoder.move_eq_core phase hopen hmore, Encoder.coreMove_of_pixel fault hmore hopen hnext]
  rw [Encoder.step_of_open (by rw [hput]; rfl), hput, hlast] at hmove
  refine ⟨_, hmove, ⟨phase, fault, base, ?_, ?_, _, rfl, ?_, ?_⟩, rfl, rfl, rfl⟩
  · dsimp only
    rw [← List.drop_drop, pixels]
    rfl
  · dsimp only
    omega
  · dsimp only
    rw [houtpos, List.length_append]
  · rw [List.append_assoc, ← encodeAll_append]
    exact htotal

/-- `k` turns of `ENC` process the next `k` pixels. -/
theorem Encodes.turns (k : Nat) {s : State} {pre total : List Byte} {ps : List Pixel} (h : Encodes s.enc pre total ps)
    (hk : k ≤ ps.length) :
    ∃ e, (∀ vs, runEvents (List.replicate k .enc ++ vs) s = runEvents vs { s with enc := e }) ∧
      Encodes e pre total (ps.drop k) ∧ e.ctx = contextAfter s.enc.ctx ps k ∧ e.pixpos = s.enc.pixpos + k ∧
      e.phase = s.enc.phase := by
  induction k generalizing s ps with
  | zero => exact ⟨s.enc, fun vs => rfl, h, (contextAfter_zero _ _).symm, rfl, rfl⟩
  | succ k ih =>
    cases ps with
    | nil => exact absurd hk (Nat.not_succ_le_zero k)
    | cons p ps =>
      obtain ⟨e, hmove, hnext, hctx, hpixpos, hphase⟩ := h.step
      obtain ⟨e', hrun, hrest, hctx', hpixpos', hphase'⟩ := ih (s := { s with enc := e }) hnext (Nat.le_of_succ_le_succ hk)
      refine ⟨e', fun vs => (runEvents_enc hmove _).trans (hrun vs), hrest, ?_, ?_, hphase'.trans hphase⟩
      · rw [hctx']
        exact congrArg (contextAfter · ps k) hctx
      · rw [hpixpos']
        dsimp only
        omega

/-- At the end `ENC` has emitted everything. -/
theorem Encodes.ended {e : Encoder} {pre total : List Byte} (h : Encodes e pre total []) :
    e.pixpos = e.n ∧ e.sink = ByteSink.ofBytes (pre ++ total) ∧ e.outpos = total.length := by
  obtain ⟨out, hsink, houtpos, htotal⟩ := h.sink
  obtain rfl : out = total := (List.append_nil out).symm.trans htotal
  exact ⟨h.n.symm, hsink, houtpos⟩

end Sys2Proof.Machine
end

section

namespace Sys2Proof.Machine

/-! ### The host's deliveries (spec/70_reset_and_hazards.md R204) -/

/-- Pixels delivered stand behind those there. -/
theorem runEvents_deliverPixels (ps : List Pixel) (s : State) (vs : List Event) :
    runEvents (deliverPixels ps ++ vs) s = runEvents vs { s with enc := s.enc.withPixels (s.enc.pixels ++ ps) } := by
  induction ps generalizing s with
  | nil => rw [List.append_nil]; rfl
  | cons p ps ih =>
    refine (runEvents_step (v := .host (.deliverPixel p)) rfl _).trans ((ih _).trans ?_)
    simp only [Encoder.withPixels, List.append_assoc, List.singleton_append]

/-- The decode side whose source holds a list of bytes. -/
def Decoder.onBytes (d : Decoder) (bs : List Byte) (ended : Bool) : Decoder := { d with source := ⟨Memory.ofBytes bs, ended⟩ }

@[simp] theorem Decoder.onBytes_bytes (d : Decoder) (bs : List Byte) (ended : Bool) :
    (d.onBytes bs ended).source.bytes = Memory.ofBytes bs := rfl

/-- A byte delivered stands behind those there. -/
theorem takeEvent_deliverByte (s : State) (bs : List Byte) (b : Byte) :
    takeEvent (.host (.deliverByte b)) (s.withDec (s.dec.onBytes bs false)) =
      .next (s.withDec (s.dec.onBytes (bs ++ [b]) false)) := by
  have hwrite : (Memory.ofBytes bs).write (Memory.ofBytes bs).endOffset b = Memory.ofBytes (bs ++ [b]) := by
    rw [(Memory.ofBytes_layout bs).1, ← Memory.ofBytes_writeAll]
    rfl
  rw [takeEvent, hostAct_deliverByte rfl]
  exact congrArg (fun m => Host.Outcome.next (s.withDec { s.dec with source := ⟨m, false⟩ })) hwrite

/-- Bytes delivered stand behind those there. -/
theorem runEvents_deliverByte_each (more : List Byte) (s : State) (bs : List Byte) (vs : List Event) :
    runEvents (more.map (fun b => .host (.deliverByte b)) ++ vs) (s.withDec (s.dec.onBytes bs false)) =
      runEvents vs (s.withDec (s.dec.onBytes (bs ++ more) false)) := by
  induction more generalizing bs with
  | nil => rw [List.append_nil]; rfl
  | cons b more ih =>
    refine (runEvents_step (takeEvent_deliverByte s bs b) _).trans ((ih _).trans ?_)
    rw [List.append_assoc]
    rfl

/-- A whole source delivered to a side that has read nothing yet, and its end. -/
theorem runEvents_deliverBytes (bs : List Byte) {s : State} (h : s.dec.source = ⟨[], false⟩) (vs : List Event) :
    runEvents (deliverBytes bs ++ vs) s = runEvents vs (s.withDec (s.dec.onBytes bs true)) := by
  have hs : s.withDec (s.dec.onBytes [] false) = s := by
    rw [Decoder.onBytes, show (⟨Memory.ofBytes [], false⟩ : ByteSource) = s.dec.source from h.symm]
    rfl
  have hbytes := runEvents_deliverByte_each bs s [] (.host .endBytes :: vs)
  rw [hs] at hbytes
  rw [deliverBytes, List.append_assoc]
  exact hbytes.trans (runEvents_step (v := .host .endBytes) rfl vs)

end Sys2Proof.Machine
end

section

namespace Sys2Proof.Machine

/-! ### The round trip of the core (spec/42_decoder.md R136, spec/20_memory.md R35) -/

/-- The bytes `ENC` emits for a whole pixel sequence. -/
def streamBytes (ch : ChannelCount) (ps : List Pixel) : List Byte :=
  encodeAll (emitAll Context.init (ps.map (sourcePixel ch)))

/-- A started encode side with all its pixels delivered has the whole sequence to encode. -/
theorem Encodes.of_streamStart {e : Encoder} {pre : List Byte} {ps : List Pixel} {n : Nat} (ch : ChannelCount)
    (hn : n = ps.length) (hphase : e.phase = .bare ∨ e.phase = .pixels) (hbase : e.base = pre.length) (hpixels : e.pixels = ps)
    (hsink : e.sink = ByteSink.ofBytes pre) :
    Encodes (e.streamStart n ch) pre (streamBytes ch ps) (ps.map (sourcePixel ch)) where
  phase := hphase
  fault := rfl
  base := hbase
  pixels := congrArg (List.map (sourcePixel ch)) hpixels
  n := by rw [List.length_map, ← hn]; exact (Nat.zero_add _).symm
  sink := ⟨[], hsink.trans (by rw [List.append_nil]), rfl, rfl⟩

/-- A started decode side on those bytes follows from the first pixel on. -/
theorem Follows.of_streamStart {d : Decoder} {pre tail : List Byte} {ps : List Pixel} {n : Nat} (ch : ChannelCount)
    (hn : n = ps.length) (hphase : d.phase = .bare ∨ d.phase = .pixels) (hbase : d.base = pre.length)
    (hbytes : d.source.bytes = Memory.ofBytes (pre ++ (streamBytes ch ps ++ tail))) :
    Follows (d.streamStart n ch) Context.init (ps.map (sourcePixel ch)) tail where
  phase := hphase
  fault := rfl
  cache := rfl
  prev := rfl
  n := by rw [List.length_map, ← hn]; exact (Nat.zero_add _).symm
  runLe := Nat.zero_le _
  ahead := ⟨_, ⟨pre, hbytes, hbase.symm⟩, Ahead.of_idle rfl _⟩

/-- A run of a bare `ENC` over some of its pixels. -/
theorem encoderRun_spec {c : Byte} {ch : ChannelCount} (hc : channelCount c = some ch) (ps : List Pixel) {k : Nat}
    (hk : k ≤ ps.length) (s : State) :
    ∃ e, runEvents (encoderRun c ps k) s = .next e ∧
      Encodes e.enc [] (streamBytes ch ps) ((ps.map (sourcePixel ch)).drop k) ∧
      e.enc.ctx = contextAfter Context.init (ps.map (sourcePixel ch)) k ∧ e.enc.pixpos = k := by
  have hstart : takeEvent (.host (.startEnc ps.length c)) s = .next { s with enc := Encoder.fresh ps.length ch } := by
    simp only [takeEvent, hostAct, hc]
  have hready : Encodes ((Encoder.fresh ps.length ch).withPixels ps) [] (streamBytes ch ps) (ps.map (sourcePixel ch)) :=
    Encodes.of_streamStart (e := (Encoder.fresh ps.length ch).withPixels ps) ch rfl (.inl rfl) rfl rfl rfl
  obtain ⟨e, hrun, hrest, hctx, hpixpos, -⟩ :=
    Encodes.turns k (s := { s with enc := (Encoder.fresh ps.length ch).withPixels ps }) hready (by rwa [List.length_map])
  refine ⟨{ s with enc := e, agenda := [] }, ?_, hrest, hctx, hpixpos.trans (Nat.zero_add k)⟩
  rw [encoderRun, List.cons_append, runEvents_step hstart, runEvents_deliverPixels, ← List.append_nil (List.replicate k _)]
  exact (hrun []).trans (runEvents_nil _)

/-- A run of a bare `DEC` over the bytes of those pixels. -/
theorem decoderRun_spec {c : Byte} {ch : ChannelCount} (hc : channelCount c = some ch) (ps : List Pixel) {k : Nat}
    (hk : k ≤ ps.length) (s : State) :
    ∃ d, runEvents (decoderRun c ps.length (streamBytes ch ps) k) s = .next d ∧
      Follows d.dec (contextAfter Context.init (ps.map (sourcePixel ch)) k) ((ps.map (sourcePixel ch)).drop k) [] ∧
      d.dec.source.bytes = Memory.ofBytes (streamBytes ch ps) ∧ d.dec.base = 0 ∧ d.dec.pixpos = k ∧
      d.dec.out = (ps.take k).map fun p => outPixel ch (sourcePixel ch p) := by
  have hstart : takeEvent (.host (.startDec ps.length c)) s = .next { s with dec := Decoder.fresh ps.length ch } := by
    simp only [takeEvent, hostAct, hc]
  have hready : Follows ((Decoder.fresh ps.length ch).onBytes (streamBytes ch ps) true) Context.init
      (ps.map (sourcePixel ch)) [] :=
    Follows.of_streamStart (d := (Decoder.fresh ps.length ch).onBytes (streamBytes ch ps) true) (pre := []) ch rfl
      (.inl rfl) rfl (by rw [List.append_nil]; rfl)
  obtain ⟨d, hrun, hrest, hprod⟩ :=
    Follows.turns k (s := { s with dec := (Decoder.fresh ps.length ch).onBytes (streamBytes ch ps) true }) hready
      (by rwa [List.length_map])
  have hlength : ((ps.map (sourcePixel ch)).take k).length = k := by rw [List.length_take, List.length_map, min_eq_left hk]
  refine ⟨{ s with dec := d, agenda := [] }, ?_, hrest, congrArg ByteSource.bytes hprod.frame.source, hprod.frame.base, ?_, ?_⟩
  · rw [decoderRun, List.cons_append, runEvents_step hstart, runEvents_deliverBytes _ rfl,
      ← List.append_nil (List.replicate k _)]
    exact (hrun []).trans (runEvents_nil _)
  · exact hprod.pixpos.trans (by rw [hlength]; exact Nat.zero_add k)
  · refine hprod.out.trans ?_
    rw [← List.map_take, List.map_map]
    rfl

/-- Settles O56 (R35 (d), R136): `DEC` follows `ENC` pixel by pixel (`Follows.turns`); at the end its context is the encoder's and it
has read every byte (`Follows.ended`). -/
theorem coreRoundTrip : Obligations.CoreRoundTrip := by
  unfold Obligations.CoreRoundTrip
  intro s c ch ps hc
  obtain ⟨e, hrun, hencoded, hctx, hpixpos⟩ := encoderRun_spec hc ps (Nat.le_refl _) s
  have hall : (ps.map (sourcePixel ch)).drop ps.length = [] := List.drop_of_length_le (by rw [List.length_map])
  rw [hall] at hencoded
  obtain ⟨-, hsink, houtpos⟩ := hencoded.ended
  have hcontents : e.enc.sink.contents = streamBytes ch ps := by rw [hsink, List.nil_append, ByteSink.ofBytes_contents]
  have hrun0 : e.enc.ctx.run = 0 := by
    obtain ⟨d, -, hfollows, -⟩ := decoderRun_spec hc ps (Nat.le_refl _) s
    rw [hall] at hfollows
    rw [hctx]
    exact hfollows.ended.1
  refine ⟨e, hrun, hpixpos, hrun0, by rw [hcontents, houtpos], fun k hk => ?_⟩
  rw [hcontents]
  obtain ⟨ek, hek, -, hctxk, -⟩ := encoderRun_spec hc ps hk s
  obtain ⟨dk, hdk, hfollows, hbytes, hbase, hpixposk, hout⟩ := decoderRun_spec hc ps hk s
  refine ⟨ek, dk, hek, hdk, hout, hfollows.cache.trans (by rw [hctxk]), hfollows.prev.trans (by rw [hctxk]), hpixposk,
    hfollows.fault, fun hend => ?_⟩
  subst hend
  rw [hall] at hfollows
  obtain ⟨-, hsame, -, pre, hread, hpre⟩ := hfollows.ended
  refine ⟨?_, hsame.trans hctx.symm⟩
  have hpre' : pre = streamBytes ch ps := by
    have hmem := congrArg (List.map Prod.snd) (hread.symm.trans hbytes)
    rw [(Memory.ofBytes_layout _).2, (Memory.ofBytes_layout _).2] at hmem
    simpa using hmem
  rw [houtpos, ← hpre', hpre, hbase, Nat.zero_add]

end Sys2Proof.Machine
end

section

namespace Sys2Proof.Machine

/-! ### The round trip of whole files (spec/43_container.md R155, R156; spec/42_decoder.md R136) -/

/-- The turns of a file's run: one before those of the pixels and one after them. -/
theorem replicate_two_more (v : Event) (n : Nat) : List.replicate (n + 2) v = v :: (List.replicate n v ++ [v]) := by
  rw [List.replicate_succ, List.replicate_succ']

/-- The file `encode` writes. -/
def fileBytes (h : Header) (ch : ChannelCount) (ps : List Pixel) : List Byte :=
  headerBytes h ++ (streamBytes ch ps ++ endMarker)

/-- The header's move of `encode` with all its pixels delivered: the header stands in the sink and the stream is started. -/
theorem encode_header_move {e : Encoder} {h : Header} {ch : ChannelCount} {ps : List Pixel} (hp : e.phase = .header)
    (hh : e.header = h) (hc : channelCount h.channels = some ch) (hn : h.pixelCount = ps.length) (hpixels : e.pixels = ps)
    (hsink : e.sink = ByteSink.ofBytes []) :
    ∃ e', e.move = .ok e' ∧ e'.phase = .pixels ∧
      Encodes e' (headerBytes h) (streamBytes ch ps) (ps.map (sourcePixel ch)) := by
  subst hh
  have hput : e.sink.putAll 0 (headerBytes e.header) = ByteSink.ofBytes (headerBytes e.header) := by
    rw [hsink]
    exact ByteSink.ofBytes_putAll [] (headerBytes e.header)
  have hmove := Encoder.move_header hp
  rw [Encoder.writeHeader_of_open hc (by rw [hput]; rfl)] at hmove
  exact ⟨_, hmove, rfl, Encodes.of_streamStart ch hn (.inr rfl) rfl hpixels hput⟩

/-- The marker's move of `encode`. -/
theorem Encodes.marker_move {e : Encoder} {pre total : List Byte} (h : Encodes e pre total []) (hp : e.phase = .pixels) :
    ∃ e', e.move = .ok e' ∧ e'.phase = .done .success ∧ e'.sink = ByteSink.ofBytes (pre ++ (total ++ endMarker)) := by
  obtain ⟨hover, hsink, houtpos⟩ := h.ended
  have hput : e.sink.putAll (e.base + e.outpos) endMarker = ByteSink.ofBytes (pre ++ (total ++ endMarker)) := by
    rw [hsink, h.base, houtpos, ← List.length_append, ByteSink.ofBytes_putAll, List.append_assoc]
  have hmove := Encoder.move_marker hp (by rw [hsink]; rfl) hover
  rw [Encoder.writeMarker_of_open (by rw [hput]; rfl)] at hmove
  exact ⟨_, hmove, rfl, hput⟩

/-- `encode` writes that file and succeeds. -/
theorem encodeRun_spec {h : Header} {ch : ChannelCount} (hc : channelCount h.channels = some ch) {ps : List Pixel}
    (hn : ps.length = h.pixelCount) (s : State) :
    ∃ e, runEvents (encodeRun h ps) s = .next e ∧ e.enc.phase = .done .success ∧
      e.enc.sink = ByteSink.ofBytes (fileBytes h ch ps) := by
  obtain ⟨e₁, hheader, hphase, hready⟩ := encode_header_move (e := (s.enc.openFile h).withPixels ps) rfl rfl hc hn.symm rfl rfl
  obtain ⟨e₂, hrun, hrest, -, -, hphase'⟩ := Encodes.turns ps.length (s := { s with enc := e₁ }) hready (by rw [List.length_map])
  rw [List.drop_of_length_le (by rw [List.length_map])] at hrest
  obtain ⟨e₃, hmarker, hdone, hsink⟩ := hrest.marker_move (hphase'.trans hphase)
  refine ⟨{ s with enc := e₃, agenda := [] }, ?_, hdone, hsink⟩
  have hlast := (runEvents_enc (s := { s with enc := e₂ }) hmarker []).trans (runEvents_nil _)
  rw [encodeRun, replicate_two_more, List.cons_append, runEvents_step (v := .host (.encodeFile h)) rfl,
    runEvents_deliverPixels]
  exact (runEvents_enc hheader _).trans ((hrun [Event.enc]).trans hlast)

/-- `decode` of that file reads the magic. -/
theorem readMagic_fileBytes {d : Decoder} {h : Header} {ch : ChannelCount} {ps : List Pixel}
    (hbytes : d.source.bytes = Memory.ofBytes (fileBytes h ch ps)) : d.readMagic = .ok { d with phase := .fields } := by
  have hmagic : d.source.bytes.window 0 4 = magic := by
    rw [hbytes, Memory.window_ofBytes]
    rfl
  rw [readMagic_of_full (by rw [hmagic]; rfl), if_pos hmagic]

/-- `decode` of that file starts the stream on its pixels. -/
theorem readFields_fileBytes {d : Decoder} {h : Header} {ch : ChannelCount} {ps : List Pixel}
    (hbytes : d.source.bytes = Memory.ofBytes (fileBytes h ch ps)) (hc : channelCount h.channels = some ch)
    (hn : h.pixelCount = ps.length) :
    ∃ d', d.readFields = .ok d' ∧ d'.phase = .pixels ∧ d'.header = h ∧ d'.ch = ch ∧ d'.out = [] ∧
      Follows d' Context.init (ps.map (sourcePixel ch)) endMarker := by
  have hwindow : d.source.bytes.window 4 10 = (headerBytes h).drop 4 := by
    rw [hbytes, Memory.window_ofBytes]
    rfl
  exact ⟨_, readFields_of_supported (by rw [hwindow, headerFields_headerBytes]) hc, rfl, rfl, rfl, rfl,
    Follows.of_streamStart (pre := headerBytes h) ch hn (.inr rfl) rfl hbytes⟩

/-- The two turns in which `decode` of that file reads the header. -/
theorem decode_header_turns {s : State} {h : Header} {ch : ChannelCount} {ps : List Pixel} (hp : s.dec.phase = .magic)
    (hbytes : s.dec.source.bytes = Memory.ofBytes (fileBytes h ch ps)) (hc : channelCount h.channels = some ch)
    (hn : h.pixelCount = ps.length) :
    ∃ d, (∀ vs, runEvents (.dec :: .dec :: vs) s = runEvents vs (s.withDec d)) ∧ d.phase = .pixels ∧ d.header = h ∧
      d.ch = ch ∧ d.out = [] ∧ Follows d Context.init (ps.map (sourcePixel ch)) endMarker := by
  obtain ⟨d, hfields, hstarted⟩ := readFields_fileBytes (d := { s.dec with phase := .fields }) hbytes hc hn
  have firstTurn := decMove_of_wrapper (decMove_magic hp) (readMagic_fileBytes hbytes)
  have secondTurn := decMove_of_wrapper (s := s.withDec { s.dec with phase := .fields }) (decMove_fields rfl) hfields
  exact ⟨d, fun vs => (runEvents_dec firstTurn _).trans (runEvents_dec secondTurn vs), hstarted⟩

/-- Behind the last operation `decode` finds the marker. -/
theorem Follows.marker_turn {s : State} {c : Context} (h : Follows s.dec c [] endMarker) (hp : s.dec.phase = .pixels) :
    decMove s = .ok (.next (s.withDec { s.dec with phase := .done .success })) := by
  obtain ⟨-, -, hover, pre, hbytes, hpre⟩ := h.ended
  refine decMove_of_wrapper (decMove_finish hp (.inr hover)) (finish_of_marker h.fault ?_)
  rw [Decoder.fetch, hbytes, Memory.window_ofBytes, ← hpre, List.drop_left]
  rfl

/-- `decode` of that file succeeds with the header and the pixels. -/
theorem decodeRun_spec {h : Header} {ch : ChannelCount} (hc : channelCount h.channels = some ch) {ps : List Pixel}
    (hn : ps.length = h.pixelCount) (s : State) :
    ∃ d, runEvents (decodeRun ps.length (fileBytes h ch ps)) s = .next d ∧
      d.dec.returned = some (some (h, ps.map fun p => outPixel ch (sourcePixel ch p)), none) := by
  obtain ⟨d₁, hhead, hphase, hheader, hch, hnone, hready⟩ :=
    decode_header_turns (s := s.withDec (s.dec.openFile.onBytes (fileBytes h ch ps) true)) rfl
      (Decoder.onBytes_bytes s.dec.openFile (fileBytes h ch ps) true) hc hn.symm
  obtain ⟨d₂, hrun, hrest, hprod⟩ := Follows.turns ps.length (s := s.withDec d₁) hready (by rw [List.length_map])
  rw [List.drop_of_length_le (by rw [List.length_map])] at hrest
  have hend := hrest.marker_turn (s := s.withDec d₂) (hprod.frame.phase.trans hphase)
  have hheader' : d₂.header = h := hprod.frame.header.trans hheader
  have hout : d₂.out = ps.map fun p => outPixel ch (sourcePixel ch p) := by
    rw [hprod.out, State.withDec_dec, hnone, hch, List.take_of_length_le (by rw [List.length_map]), List.map_map]
    rfl
  refine ⟨{ s with dec := { d₂ with phase := .done .success }, agenda := [] }, ?run, ?returned⟩
  case run =>
    have hlast := (runEvents_dec hend []).trans (runEvents_nil _)
    rw [decodeRun, List.replicate_succ, replicate_two_more, List.cons_append,
      runEvents_step (v := .host .decodeFile) (t := s.withDec s.dec.openFile) rfl, runEvents_deliverBytes _ rfl]
    exact (hhead _).trans ((hrun [Event.dec]).trans hlast)
  case returned =>
    simp only [Decoder.returned, hout, hheader']
    rfl

/-- Settles O57 (R136): `encodeRun_spec` gives the file, which `decodeRun_spec` reads back. -/
theorem fileRoundTrip : Obligations.FileRoundTrip := by
  unfold Obligations.FileRoundTrip
  intro s h ch ps hc hn
  obtain ⟨e, hencode, hphase, hsink⟩ := encodeRun_spec hc hn s
  obtain ⟨d, hdecode, hreturned⟩ := decodeRun_spec hc hn s
  refine ⟨e, hencode, hphase, d, ?_, hreturned⟩
  rw [hsink, ByteSink.ofBytes_contents]
  exact hdecode

end Sys2Proof.Machine
end
